-- ==== Sys2Proof/Word.lean ====
section
/-! DEFINITION. The word types of the block: register words, command words, the 46-bit working bitmap. -/

namespace Sys2Proof

/-- A pin register, a wake-status word, the master register (R17): 32 bits. -/
abbrev Word := BitVec 32

/-- A command word of the command port (R100): 64 bits, the only length. -/
abbrev Command := BitVec 64

/-- `RDATA` of a response (R100): 64 bits. -/
abbrev Rdata := BitVec 64

/-- A pin or group selector, the field `SEL` (R101): 16 bits, unsigned. -/
abbrev Selector := BitVec 16

/-- The field `PARAM` (R101): 8 bits. -/
abbrev ParamByte := BitVec 8

/-- The working copy of the wake-status bitmap (R46): 46 bits. -/
abbrev Bitmap := BitVec 46

end Sys2Proof
end

