-- ==== Sys2Proof/Syntax.lean ====
section
/-! DEFINITION. The commands of the block: one constructor per row of spec/opcode_table.json, with the operands of R101 and R105. -/

namespace Sys2Proof

/-- The 35 operation variants of R110, in the table's order. `pin` and `group` are the field `SEL`, `data`, `value`
and `irq` the field `DATA`, `param` the field `PARAM` where the row leaves bits of it open. -/
inductive Instr where
  | readPin (pin : Selector)
  | writePin (pin : Selector) (data : Word)
  | readWakeStatus
  | readMaster
  | writeMaster (data : Word)
  | getDebounce (pin : Selector)
  | getPullDown (pin : Selector)
  | getPullUp (pin : Selector)
  | getDriveStrength (pin : Selector)
  | getOther00 (pin : Selector)
  | getOther05 (pin : Selector)
  | getOther06to07 (pin : Selector) (param : ParamByte)
  | getOther08to0F (pin : Selector) (param : ParamByte)
  | getOther10to1F (pin : Selector) (param : ParamByte)
  | getOther20to3F (pin : Selector) (param : ParamByte)
  | getOther40to7F (pin : Selector) (param : ParamByte)
  | getOther80toFF (pin : Selector) (param : ParamByte)
  | setDebounce (pin : Selector) (value : Word)
  | setPullDown (pin : Selector) (value : Word)
  | setPullUp (pin : Selector) (value : Word)
  | setDriveStrength (pin : Selector) (value : Word)
  | setOther00 (pin : Selector) (value : Word)
  | setOther05 (pin : Selector) (value : Word)
  | setOther06to07 (pin : Selector) (param : ParamByte) (value : Word)
  | setOther08to0F (pin : Selector) (param : ParamByte) (value : Word)
  | setOther10to1F (pin : Selector) (param : ParamByte) (value : Word)
  | setOther20to3F (pin : Selector) (param : ParamByte) (value : Word)
  | setOther40to7F (pin : Selector) (param : ParamByte) (value : Word)
  | setOther80toFF (pin : Selector) (param : ParamByte) (value : Word)
  | setConfigGroup (group : Selector) (param : ParamByte) (value : Word)
  | dispatchHw (irq : Word)
  | dispatchQuery (irq : Word)
  | enterSuspend
  | enterHibernate
  | restore
  deriving DecidableEq, Repr

end Sys2Proof
end

