-- ==== Sys2Proof/WellFormed.lean ====
section
/-! DEFINITION. Which terms of `Instr` a command word can stand for: the ranges the rows of spec/opcode_table.json give their open fields. -/

namespace Sys2Proof

/-- `param` lies in the row's range (the `*.OTHER_*` rows of R182 and R183). -/
def paramIn (lo hi : Nat) (param : ParamByte) : Bool :=
  decide (lo ≤ param.toNat) && decide (param.toNat ≤ hi)

/-- A term is well formed when each operand fits its row: the tag of an `OTHER` row is in the row's range, and the
sign of `irq` is the one that selects the row (R211). Every other operand fills its field. -/
def Instr.wellFormed : Instr → Bool
  | .readPin _ | .writePin _ _ | .readWakeStatus | .readMaster | .writeMaster _ => true
  | .getDebounce _ | .getPullDown _ | .getPullUp _ | .getDriveStrength _ => true
  | .getOther00 _ | .getOther05 _ => true
  | .getOther06to07 _ p => paramIn 0x06 0x07 p
  | .getOther08to0F _ p => paramIn 0x08 0x0F p
  | .getOther10to1F _ p => paramIn 0x10 0x1F p
  | .getOther20to3F _ p => paramIn 0x20 0x3F p
  | .getOther40to7F _ p => paramIn 0x40 0x7F p
  | .getOther80toFF _ p => paramIn 0x80 0xFF p
  | .setDebounce _ _ | .setPullDown _ _ | .setPullUp _ _ | .setDriveStrength _ _ => true
  | .setOther00 _ _ | .setOther05 _ _ => true
  | .setOther06to07 _ p _ => paramIn 0x06 0x07 p
  | .setOther08to0F _ p _ => paramIn 0x08 0x0F p
  | .setOther10to1F _ p _ => paramIn 0x10 0x1F p
  | .setOther20to3F _ p _ => paramIn 0x20 0x3F p
  | .setOther40to7F _ p _ => paramIn 0x40 0x7F p
  | .setOther80toFF _ p _ => paramIn 0x80 0xFF p
  | .setConfigGroup _ _ _ => true
  | .dispatchHw irq => !irq.msb
  | .dispatchQuery irq => irq.msb
  | .enterSuspend | .enterHibernate | .restore => true

end Sys2Proof
end

