-- ==== Sys2Proof/Decode.lean ====
section
/-! DEFINITION. The decoder (R101, R102, R106, R110 to R114), total on 64-bit words and rejecting by name; after it the encoder, and the opcode table's match and mask rows. -/

namespace Sys2Proof

/-! ## Fields of a command word (R101) -/

/-- `OPC`, bits 63:56. -/
def opcField (w : Command) : BitVec 8 := w.extractLsb' 56 8

/-- `PARAM`, bits 55:48. -/
def paramField (w : Command) : ParamByte := w.extractLsb' 48 8

/-- `SEL`, bits 47:32. -/
def selField (w : Command) : Selector := w.extractLsb' 32 16

/-- `DATA`, bits 31:0. -/
def dataField (w : Command) : Word := w.extractLsb' 0 32

/-- The word with the given fields, `OPC << 56 | PARAM << 48 | SEL << 32 | DATA` (R118). -/
def packWord (opc : BitVec 8) (param : ParamByte) (sel : Selector) (data : Word) : Command :=
  opc ++ param ++ sel ++ data

/-! ## The decoder -/

/-- Why a word is illegal. Each is answered `BadCommand` (R111, R112); raised by `decode`. Safe: nothing runs. -/
inductive DecodeError where
  /-- R111: `OPC` is not in the opcode map. -/
  | reservedOpcode (opc : BitVec 8)
  /-- R112: a bit of `PARAM` that the format says must be zero is set. -/
  | paramNotZero
  /-- R112: the format does not use `SEL` and it is not zero. -/
  | selNotZero
  /-- R112: the format does not use `DATA` and it is not zero. -/
  | dataNotZero
  deriving DecidableEq, Repr

/-- R102: the fields passed here are those the format says must be zero. -/
def mustBeZero (param : ParamByte) (sel : Selector) (data : Word) (i : Instr) : Except DecodeError Instr :=
  if param ≠ 0#8 then .error .paramNotZero
  else if sel ≠ 0#16 then .error .selNotZero
  else if data ≠ 0#32 then .error .dataNotZero
  else .ok i

/-- The variant of `GET_CONFIG` that `PARAM` selects (R106, R110). -/
def getVariant (pin : Selector) (param : ParamByte) : Instr :=
  if param = 0x00#8 then .getOther00 pin
  else if param = 0x01#8 then .getDebounce pin
  else if param = 0x02#8 then .getPullDown pin
  else if param = 0x03#8 then .getPullUp pin
  else if param = 0x04#8 then .getDriveStrength pin
  else if param = 0x05#8 then .getOther05 pin
  else if param.toNat ≤ 0x07 then .getOther06to07 pin param
  else if param.toNat ≤ 0x0F then .getOther08to0F pin param
  else if param.toNat ≤ 0x1F then .getOther10to1F pin param
  else if param.toNat ≤ 0x3F then .getOther20to3F pin param
  else if param.toNat ≤ 0x7F then .getOther40to7F pin param
  else .getOther80toFF pin param

/-- The variant of `SET_CONFIG` that `PARAM` selects (R106, R110). -/
def setVariant (pin : Selector) (param : ParamByte) (value : Word) : Instr :=
  if param = 0x00#8 then .setOther00 pin value
  else if param = 0x01#8 then .setDebounce pin value
  else if param = 0x02#8 then .setPullDown pin value
  else if param = 0x03#8 then .setPullUp pin value
  else if param = 0x04#8 then .setDriveStrength pin value
  else if param = 0x05#8 then .setOther05 pin value
  else if param.toNat ≤ 0x07 then .setOther06to07 pin param value
  else if param.toNat ≤ 0x0F then .setOther08to0F pin param value
  else if param.toNat ≤ 0x1F then .setOther10to1F pin param value
  else if param.toNat ≤ 0x3F then .setOther20to3F pin param value
  else if param.toNat ≤ 0x7F then .setOther40to7F pin param value
  else .setOther80toFF pin param value

/-- The opcode map of R110 over the four fields, each opcode with the format of R102. -/
def decodeFields (opc : BitVec 8) (param : ParamByte) (sel : Selector) (data : Word) : Except DecodeError Instr :=
  if opc = 0x01#8 then mustBeZero param 0 data (.readPin sel)
  else if opc = 0x02#8 then mustBeZero param 0 0 (.writePin sel data)
  else if opc = 0x03#8 then mustBeZero param sel data .readWakeStatus
  else if opc = 0x04#8 then mustBeZero param sel data .readMaster
  else if opc = 0x05#8 then mustBeZero param sel 0 (.writeMaster data)
  else if opc = 0x10#8 then mustBeZero 0 0 data (getVariant sel param)
  else if opc = 0x11#8 then .ok (setVariant sel param data)
  else if opc = 0x12#8 then .ok (.setConfigGroup sel param data)
  else if opc = 0x20#8 then mustBeZero param sel 0 (if data.msb then .dispatchQuery data else .dispatchHw data)
  else if opc = 0x30#8 then
    mustBeZero (param &&& 0xFE#8) sel data (if param.getLsbD 0 then .enterHibernate else .enterSuspend)
  else if opc = 0x31#8 then mustBeZero param sel data .restore
  else .error (.reservedOpcode opc)

/-- The decoder (R114: total; every word is one variant or illegal). -/
def decode (w : Command) : Except DecodeError Instr :=
  decodeFields (opcField w) (paramField w) (selField w) (dataField w)

/-- The instruction the decoder reads from a row's word of `nbits` bits, the bits above them zero; `none` where it
refuses, or where the row is longer than a command. -/
def decodeTableWord (nbits w : Nat) : Option Instr :=
  if nbits ≤ 64 then (decode (BitVec.ofNat 64 (w % 2 ^ nbits))).toOption else none

/-! ## The encoder -/

/-- The command word of an instruction (R101, R102, R110). -/
def encode : Instr → Command
  | .readPin pin => packWord 0x01#8 0 pin 0
  | .writePin pin data => packWord 0x02#8 0 pin data
  | .readWakeStatus => packWord 0x03#8 0 0 0
  | .readMaster => packWord 0x04#8 0 0 0
  | .writeMaster data => packWord 0x05#8 0 0 data
  | .getDebounce pin => packWord 0x10#8 0x01#8 pin 0
  | .getPullDown pin => packWord 0x10#8 0x02#8 pin 0
  | .getPullUp pin => packWord 0x10#8 0x03#8 pin 0
  | .getDriveStrength pin => packWord 0x10#8 0x04#8 pin 0
  | .getOther00 pin => packWord 0x10#8 0x00#8 pin 0
  | .getOther05 pin => packWord 0x10#8 0x05#8 pin 0
  | .getOther06to07 pin param => packWord 0x10#8 param pin 0
  | .getOther08to0F pin param => packWord 0x10#8 param pin 0
  | .getOther10to1F pin param => packWord 0x10#8 param pin 0
  | .getOther20to3F pin param => packWord 0x10#8 param pin 0
  | .getOther40to7F pin param => packWord 0x10#8 param pin 0
  | .getOther80toFF pin param => packWord 0x10#8 param pin 0
  | .setDebounce pin value => packWord 0x11#8 0x01#8 pin value
  | .setPullDown pin value => packWord 0x11#8 0x02#8 pin value
  | .setPullUp pin value => packWord 0x11#8 0x03#8 pin value
  | .setDriveStrength pin value => packWord 0x11#8 0x04#8 pin value
  | .setOther00 pin value => packWord 0x11#8 0x00#8 pin value
  | .setOther05 pin value => packWord 0x11#8 0x05#8 pin value
  | .setOther06to07 pin param value => packWord 0x11#8 param pin value
  | .setOther08to0F pin param value => packWord 0x11#8 param pin value
  | .setOther10to1F pin param value => packWord 0x11#8 param pin value
  | .setOther20to3F pin param value => packWord 0x11#8 param pin value
  | .setOther40to7F pin param value => packWord 0x11#8 param pin value
  | .setOther80toFF pin param value => packWord 0x11#8 param pin value
  | .setConfigGroup group param value => packWord 0x12#8 param group value
  | .dispatchHw irq => packWord 0x20#8 0 0 irq
  | .dispatchQuery irq => packWord 0x20#8 0 0 irq
  | .enterSuspend => packWord 0x30#8 0x00#8 0 0
  | .enterHibernate => packWord 0x30#8 0x01#8 0 0
  | .restore => packWord 0x31#8 0 0 0

/-! ## The opcode table's own form: match and mask

A second, independent writing of the encodings, row by row as spec/opcode_table.json gives them. The machine does not
use it; statements compare the decoder with it. -/

/-- One row of spec/opcode_table.json. -/
structure OpcodeRow where
  mnemonic : String
  pattern : Command
  mask : Command
  deriving DecidableEq, Repr

/-- The word matches the row. -/
def OpcodeRow.matches (r : OpcodeRow) (w : Command) : Bool := w &&& r.mask == r.pattern

/-- The row of an instruction. -/
def Instr.row : Instr → OpcodeRow
  | .readPin _ => ⟨"READ_PIN", 0x0100000000000000, 0xFFFF0000FFFFFFFF⟩
  | .writePin _ _ => ⟨"WRITE_PIN", 0x0200000000000000, 0xFFFF000000000000⟩
  | .readWakeStatus => ⟨"READ_WAKE_STATUS", 0x0300000000000000, 0xFFFFFFFFFFFFFFFF⟩
  | .readMaster => ⟨"READ_MASTER", 0x0400000000000000, 0xFFFFFFFFFFFFFFFF⟩
  | .writeMaster _ => ⟨"WRITE_MASTER", 0x0500000000000000, 0xFFFFFFFF00000000⟩
  | .getDebounce _ => ⟨"GET_CONFIG.DEBOUNCE", 0x1001000000000000, 0xFFFF0000FFFFFFFF⟩
  | .getPullDown _ => ⟨"GET_CONFIG.PULL_DOWN", 0x1002000000000000, 0xFFFF0000FFFFFFFF⟩
  | .getPullUp _ => ⟨"GET_CONFIG.PULL_UP", 0x1003000000000000, 0xFFFF0000FFFFFFFF⟩
  | .getDriveStrength _ => ⟨"GET_CONFIG.DRIVE_STRENGTH", 0x1004000000000000, 0xFFFF0000FFFFFFFF⟩
  | .getOther00 _ => ⟨"GET_CONFIG.OTHER_00", 0x1000000000000000, 0xFFFF0000FFFFFFFF⟩
  | .getOther05 _ => ⟨"GET_CONFIG.OTHER_05", 0x1005000000000000, 0xFFFF0000FFFFFFFF⟩
  | .getOther06to07 _ _ => ⟨"GET_CONFIG.OTHER_06_07", 0x1006000000000000, 0xFFFE0000FFFFFFFF⟩
  | .getOther08to0F _ _ => ⟨"GET_CONFIG.OTHER_08_0F", 0x1008000000000000, 0xFFF80000FFFFFFFF⟩
  | .getOther10to1F _ _ => ⟨"GET_CONFIG.OTHER_10_1F", 0x1010000000000000, 0xFFF00000FFFFFFFF⟩
  | .getOther20to3F _ _ => ⟨"GET_CONFIG.OTHER_20_3F", 0x1020000000000000, 0xFFE00000FFFFFFFF⟩
  | .getOther40to7F _ _ => ⟨"GET_CONFIG.OTHER_40_7F", 0x1040000000000000, 0xFFC00000FFFFFFFF⟩
  | .getOther80toFF _ _ => ⟨"GET_CONFIG.OTHER_80_FF", 0x1080000000000000, 0xFF800000FFFFFFFF⟩
  | .setDebounce _ _ => ⟨"SET_CONFIG.DEBOUNCE", 0x1101000000000000, 0xFFFF000000000000⟩
  | .setPullDown _ _ => ⟨"SET_CONFIG.PULL_DOWN", 0x1102000000000000, 0xFFFF000000000000⟩
  | .setPullUp _ _ => ⟨"SET_CONFIG.PULL_UP", 0x1103000000000000, 0xFFFF000000000000⟩
  | .setDriveStrength _ _ => ⟨"SET_CONFIG.DRIVE_STRENGTH", 0x1104000000000000, 0xFFFF000000000000⟩
  | .setOther00 _ _ => ⟨"SET_CONFIG.OTHER_00", 0x1100000000000000, 0xFFFF000000000000⟩
  | .setOther05 _ _ => ⟨"SET_CONFIG.OTHER_05", 0x1105000000000000, 0xFFFF000000000000⟩
  | .setOther06to07 _ _ _ => ⟨"SET_CONFIG.OTHER_06_07", 0x1106000000000000, 0xFFFE000000000000⟩
  | .setOther08to0F _ _ _ => ⟨"SET_CONFIG.OTHER_08_0F", 0x1108000000000000, 0xFFF8000000000000⟩
  | .setOther10to1F _ _ _ => ⟨"SET_CONFIG.OTHER_10_1F", 0x1110000000000000, 0xFFF0000000000000⟩
  | .setOther20to3F _ _ _ => ⟨"SET_CONFIG.OTHER_20_3F", 0x1120000000000000, 0xFFE0000000000000⟩
  | .setOther40to7F _ _ _ => ⟨"SET_CONFIG.OTHER_40_7F", 0x1140000000000000, 0xFFC0000000000000⟩
  | .setOther80toFF _ _ _ => ⟨"SET_CONFIG.OTHER_80_FF", 0x1180000000000000, 0xFF80000000000000⟩
  | .setConfigGroup _ _ _ => ⟨"SET_CONFIG_GROUP", 0x1200000000000000, 0xFF00000000000000⟩
  | .dispatchHw _ => ⟨"DISPATCH.HW", 0x2000000000000000, 0xFFFFFFFF80000000⟩
  | .dispatchQuery _ => ⟨"DISPATCH.QUERY", 0x2000000080000000, 0xFFFFFFFF80000000⟩
  | .enterSuspend => ⟨"ENTER.SUSPEND", 0x3000000000000000, 0xFFFFFFFFFFFFFFFF⟩
  | .enterHibernate => ⟨"ENTER.HIBERNATE", 0x3001000000000000, 0xFFFFFFFFFFFFFFFF⟩
  | .restore => ⟨"RESTORE", 0x3100000000000000, 0xFFFFFFFFFFFFFFFF⟩

/-- The table: the row of every constructor, in the table's order. -/
def opcodeTable : List OpcodeRow :=
  [Instr.readPin 0, .writePin 0 0, .readWakeStatus, .readMaster, .writeMaster 0].map Instr.row
  ++ [Instr.getDebounce 0, .getPullDown 0, .getPullUp 0, .getDriveStrength 0, .getOther00 0, .getOther05 0,
      .getOther06to07 0 0, .getOther08to0F 0 0, .getOther10to1F 0 0, .getOther20to3F 0 0, .getOther40to7F 0 0,
      .getOther80toFF 0 0].map Instr.row
  ++ [Instr.setDebounce 0 0, .setPullDown 0 0, .setPullUp 0 0, .setDriveStrength 0 0, .setOther00 0 0,
      .setOther05 0 0, .setOther06to07 0 0 0, .setOther08to0F 0 0 0, .setOther10to1F 0 0 0, .setOther20to3F 0 0 0,
      .setOther40to7F 0 0 0, .setOther80toFF 0 0 0, .setConfigGroup 0 0 0].map Instr.row
  ++ [Instr.dispatchHw 0, .dispatchQuery 0, .enterSuspend, .enterHibernate, .restore].map Instr.row

end Sys2Proof
end

