-- ==== Sys2Proof/Config.lean ====
section
/-! DEFINITION. The implementation parameters of `00_scope.md` (R9 to R16) as one record, with the spec's defaults. No rule bakes a default in: every operation reads the record. -/

namespace Sys2Proof

/-- The parameters of R9 to R16. `State` carries one such record, which no step changes, so that a statement
about every state is a statement about every configuration (R8; notes/assumptions/1.md). -/
structure Config where
  /-- R9 `NPINS`. -/
  npins : Nat
  /-- R10 `OUT_VAL_OFF`. -/
  outValOff : Nat
  /-- R10 `WS_SUSPEND_OFF`. -/
  wsSuspendOff : Nat
  /-- R10 `WS_HIBERNATE_OFF`. -/
  wsHibernateOff : Nat
  /-- R10 `DB_UNIT_OFF`. -/
  dbUnitOff : Nat
  /-- R10 `PULL_DOWN_OFF`. -/
  pullDownOff : Nat
  /-- R10 `PULL_UP_OFF`. -/
  pullUpOff : Nat
  /-- R10 `DRV_OFF`. -/
  drvOff : Nat
  /-- R10 `DRV_MASK`. -/
  drvMask : Word
  /-- R10 `INT_EN_OFF`. -/
  intEnOff : Nat
  /-- R10 `INT_MASK_OFF`. -/
  intMaskOff : Nat
  /-- R10 `OUT_EN_OFF`. -/
  outEnOff : Nat
  /-- R10 `DB_CNT_OFF`. -/
  dbCntOff : Nat
  /-- R10 `DB_CNT_MASK`. -/
  dbCntMask : Word
  /-- R10 `DB_FINE_MAX`. -/
  dbFineMax : Nat
  /-- R10 `DB_COARSE_MAX`. -/
  dbCoarseMax : Nat
  /-- R10 `PENDING_OFF`. -/
  pendingOff : Nat
  /-- R10 `WAKE_STS_OFF`. -/
  wakeStsOff : Nat
  /-- R13 `RO_MASK`. -/
  roMask : Word
  /-- R14 `BASE`. -/
  base : Nat
  /-- R14 `WAKE_STS0_OFF`. -/
  wakeSts0Off : Nat
  /-- R14 `WAKE_STS1_OFF`. -/
  wakeSts1Off : Nat
  /-- R14 `MASTER_OFF`. -/
  masterOff : Nat
  /-- R15 `EOI_OFF`. -/
  eoiOff : Nat
  /-- R15 `DB_OVERRIDE_OFF`. -/
  dbOverrideOff : Nat
  /-- R15 `DB_SOURCE_OFF`. -/
  dbSourceOff : Nat
  /-- R16 `NGROUPS` and `group_pins`: entry `g` is the pin list of group `g`, `NGROUPS` is the length. -/
  groups : List (List Nat)
  deriving DecidableEq, Repr

/-- The default column of R10, R13, R14 and R15. The spec gives no default for `NPINS`, `BASE`, `NGROUPS` and
`group_pins`: these four are those of the spec's worked examples (40_register_bank.md's header, 95_test_vectors.md
section 4.4). DESIGN CHOICE, notes/assumptions/2.md. -/
def Config.default : Config where
  npins := 8
  outValOff := 0
  wsSuspendOff := 1
  wsHibernateOff := 2
  dbUnitOff := 3
  pullDownOff := 4
  pullUpOff := 5
  drvOff := 6
  drvMask := 0x7#32
  intEnOff := 9
  intMaskOff := 10
  outEnOff := 11
  dbCntOff := 12
  dbCntMask := 0xFFF#32
  dbFineMax := 0xFF
  dbCoarseMax := 0xFFF
  pendingOff := 28
  wakeStsOff := 29
  roMask := 0x30000006#32
  base := 0
  wakeSts0Off := 0x2E0
  wakeSts1Off := 0x2E4
  masterOff := 0x2E8
  eoiOff := 0
  dbOverrideOff := 1
  dbSourceOff := 2
  groups := [[], [1, 3], [0, 1, 2], [2, 9, 3], [4, 4]]

end Sys2Proof
end

