-- ==== Sys2Proof/Machine/Layout.lean ====
section
/-! DEFINITION. The bit shorthands of R12 and R15, and the well-formedness of a configuration (R9, R11, R13, R14, R15). -/

namespace Sys2Proof

/-! ## Shorthands (R12, R15) -/

/-- `F_BIT = 1 << F_OFF` (R12). -/
def bitAt (off : Nat) : Word := 1#32 <<< off

/-- `OUT_VAL_BIT`. -/
def Config.outValBit (c : Config) : Word := bitAt c.outValOff

/-- `WS_SUSPEND_BIT`. -/
def Config.wsSuspendBit (c : Config) : Word := bitAt c.wsSuspendOff

/-- `WS_HIBERNATE_BIT`. -/
def Config.wsHibernateBit (c : Config) : Word := bitAt c.wsHibernateOff

/-- `DB_UNIT_BIT`. -/
def Config.dbUnitBit (c : Config) : Word := bitAt c.dbUnitOff

/-- `PULL_DOWN_BIT`. -/
def Config.pullDownBit (c : Config) : Word := bitAt c.pullDownOff

/-- `PULL_UP_BIT`. -/
def Config.pullUpBit (c : Config) : Word := bitAt c.pullUpOff

/-- `DRV_FIELD`. -/
def Config.drvField (c : Config) : Word := c.drvMask <<< c.drvOff

/-- `INT_EN_BIT`. -/
def Config.intEnBit (c : Config) : Word := bitAt c.intEnOff

/-- `INT_MASK_BIT`; 1 lets the interrupt through (R22). -/
def Config.intMaskBit (c : Config) : Word := bitAt c.intMaskOff

/-- `OUT_EN_BIT`. -/
def Config.outEnBit (c : Config) : Word := bitAt c.outEnOff

/-- `DB_CNT_FIELD`. -/
def Config.dbCntField (c : Config) : Word := c.dbCntMask <<< c.dbCntOff

/-- `PENDING_BIT`. -/
def Config.pendingBit (c : Config) : Word := bitAt c.pendingOff

/-- `WAKE_STS_BIT`. -/
def Config.wakeStsBit (c : Config) : Word := bitAt c.wakeStsOff

/-- `EOI_BIT` of `MASTER` (R15). -/
def Config.eoiBit (c : Config) : Word := bitAt c.eoiOff

/-- `DB_OVERRIDE_BIT` of `MASTER` (R15). -/
def Config.dbOverrideBit (c : Config) : Word := bitAt c.dbOverrideOff

/-- `DB_SOURCE_BIT` of `MASTER` (R15); read by no rule. -/
def Config.dbSourceBit (c : Config) : Word := bitAt c.dbSourceOff

/-! ## Well-formedness -/

/-- The fields of a pin register as (offset, unshifted mask), in the order of R10. -/
def Config.fields (c : Config) : List (Nat × Word) :=
  [(c.outValOff, 1#32), (c.wsSuspendOff, 1#32), (c.wsHibernateOff, 1#32), (c.dbUnitOff, 1#32),
   (c.pullDownOff, 1#32), (c.pullUpOff, 1#32), (c.drvOff, c.drvMask), (c.intEnOff, 1#32), (c.intMaskOff, 1#32),
   (c.outEnOff, 1#32), (c.dbCntOff, c.dbCntMask), (c.pendingOff, 1#32), (c.wakeStsOff, 1#32)]

/-- The field lies inside bits 31 to 0 (R11). -/
def fieldFits (f : Nat × Word) : Bool := decide (f.1 < 32) && decide (f.2.toNat * 2 ^ f.1 < 2 ^ 32)

/-- No two words of the list share a bit. -/
def pairwiseDisjoint : List Word → Bool
  | [] => true
  | a :: rest => rest.all (fun b => a &&& b == 0#32) && pairwiseDisjoint rest

/-- R11: every field inside the word, no two overlapping, the two debounce limits, the shapes of the two masks. -/
def Config.fieldsWf (c : Config) : Bool :=
  c.fields.all fieldFits
  && pairwiseDisjoint (c.fields.map fun f => f.2 <<< f.1)
  && decide (c.dbFineMax = 0xFF)
  && decide (0xFF < c.dbCoarseMax) && decide (c.dbCoarseMax ≤ c.dbCntMask.toNat)
  && (c.dbCntMask &&& (c.dbCntMask + 1#32) == 0#32)
  && (c.drvMask == 0x7#32)

/-- R13: `RO_MASK` holds the pending and wake-status bits, and nothing but these two and the two wake-source bits,
since R31 and R39 make every other bit of a pin register read/write storage (DEDUCED, notes/assumptions/6.md). -/
def Config.roMaskWf (c : Config) : Bool :=
  (c.pendingBit &&& ~~~c.roMask == 0#32) && (c.wakeStsBit &&& ~~~c.roMask == 0#32)
  && (c.roMask &&& ~~~(c.pendingBit ||| c.wakeStsBit ||| c.wsSuspendBit ||| c.wsHibernateBit) == 0#32)

/-- R14: the offsets are multiples of 4, distinct and past the pin area; `BASE` is a multiple of 4. -/
def Config.addressesWf (c : Config) : Bool :=
  decide (c.base % 4 = 0)
  && decide (c.wakeSts0Off % 4 = 0) && decide (c.wakeSts1Off % 4 = 0) && decide (c.masterOff % 4 = 0)
  && decide (c.wakeSts0Off ≠ c.wakeSts1Off) && decide (c.wakeSts0Off ≠ c.masterOff)
  && decide (c.wakeSts1Off ≠ c.masterOff)
  && decide (4 * c.npins ≤ c.wakeSts0Off) && decide (4 * c.npins ≤ c.wakeSts1Off)
  && decide (4 * c.npins ≤ c.masterOff)

/-- R15: the master bits are distinct bits of a 32-bit word. -/
def Config.masterWf (c : Config) : Bool :=
  decide (c.eoiOff < 32) && decide (c.dbOverrideOff < 32) && decide (c.dbSourceOff < 32)
  && decide (c.eoiOff ≠ c.dbOverrideOff) && decide (c.eoiOff ≠ c.dbSourceOff)
  && decide (c.dbOverrideOff ≠ c.dbSourceOff)

/-- A well-formed configuration: R9 with R11, R13, R14 and R15. Any other is refused (V13). -/
def Config.wf (c : Config) : Bool :=
  decide (c.npins ≤ 184) && c.fieldsWf && c.roMaskWf && c.addressesWf && c.masterWf

end Sys2Proof
end

