-- ==== Sys2Proof/Machine/State.lean ====
section
/-! DEFINITION. The state of the block (10_state.md), as plain data, with its reset (R57 to R59); the events of its ports; the inputs of the agents that are not the block; the faults and refusals. -/

namespace Sys2Proof.Machine

/-! ## The reasons a step can stop -/

/-- R287: "The block has no fault state, no halt and no lock-up of its own". There is no fault, so no constructor and
nobody who raises one: an error is a status in a response (R280) and the machine goes on. -/
inductive Fault where
  deriving DecidableEq, Repr

/-- What the model does not admit. Each is a refusal the spec itself asks of a model. -/
inductive Refusal where
  /-- An instruction that has no meaning yet; raised by an arm of `exec` only. Safe. -/
  | notModelled (mnemonic : String)
  /-- R11, R14, R9 (V13): an ill-formed configuration; raised by `step`. Safe. -/
  | illFormedConfig
  /-- R74 (V5): an access that is not 4 bytes wide or not at a multiple of 4; raised by `memRead` and `memWrite`. Safe. -/
  | badAccess
  /-- R75 (V6): an access to an address that holds no register; raised by `memRead` and `memWrite`. Safe. -/
  | unmappedAddress
  /-- R221 (V9): a `CB_RET` while no callback is outstanding; raised by `callbackReturn`. Safe. -/
  | callbackReturnUnasked
  deriving DecidableEq, Repr

/-! ## What the ports carry -/

/-- The statuses of a response (R108, R281). -/
inductive Status where
  | ok
  | invalidArgument
  | notSupported
  | notFound
  | badCommand
  deriving DecidableEq, Repr

/-- The power modes (R107, R310). -/
inductive Mode where
  | suspend
  | hibernate
  deriving DecidableEq, Repr

/-- What answers a command: the port itself in one step, or the sequencer that ran the command (R45, R104). A
sequencer runs one command at a time, so the name says which command a response answers. -/
inductive Engine where
  | port
  | disp
  | grp
  | sm
  deriving DecidableEq, Repr

/-- An event at the response port (R100), the callback port (R220, R221) or the diagnostic port (R309). -/
inductive PortEvent where
  /-- The pair (`STATUS`, `RDATA`) of R100. -/
  | response (engine : Engine) (status : Status) (rdata : Rdata)
  /-- `CB_CALL(pin)`, out (R220). -/
  | cbCall (pin : Nat)
  /-- `CB_RET`, in (R221). -/
  | cbRet
  /-- `DIAG_ACTIVE(pin)` (R216). -/
  | diagActive (pin : Nat)
  /-- `DIAG_NONWAKE_MASKED(pin, mode)` (R252). -/
  | diagNonwakeMasked (pin : Nat) (mode : Mode)
  /-- `DIAG_DEBOUNCE_CLEARED(pin)` (R252). -/
  | diagDebounceCleared (pin : Nat)
  /-- `EOI_WRITTEN` (R297). -/
  | eoiWritten
  deriving DecidableEq, Repr

/-! ## The sequencers and the lock -/

/-- The bank lock (R52). -/
inductive Lock where
  | free
  | held
  deriving DecidableEq, Repr

/-- `disp.phase` (R46). -/
inductive DispPhase where
  | idle
  | status
  | next
  | read
  | cbwait
  | reread
  | eoi
  deriving DecidableEq, Repr

/-- `disp.ctx` (R46): hardware-interrupt or resume/query context (R211). -/
inductive Ctx where
  | hw
  | query
  deriving DecidableEq, Repr

/-- The dispatch sequencer (R46, R50, R53). -/
structure Disp where
  phase : DispPhase
  ctx : Ctx
  /-- The working copy of the bitmap, bits already taken cleared. -/
  work : Bitmap
  /-- The group being scanned, 0 to 45. -/
  k : Nat
  /-- The pin within the group, 0 to 3. -/
  i : Nat
  /-- The block's only flag (R50). -/
  handled : Bool
  /-- The word read in step 2a (R53). -/
  v : Word
  deriving DecidableEq, Repr

/-- `grp.phase` (R47). -/
inductive GrpPhase where
  | idle
  | run
  deriving DecidableEq, Repr

/-- The group sequencer (R47). -/
structure Grp where
  phase : GrpPhase
  list : List Nat
  j : Nat
  param : ParamByte
  value : Word
  deriving DecidableEq, Repr

/-- `sm.phase` (R48). -/
inductive SmPhase where
  | idle
  | save
  | rest
  deriving DecidableEq, Repr

/-- The state-manager sequencer (R48). -/
structure Sm where
  phase : SmPhase
  mode : Mode
  pin : Nat
  deriving DecidableEq, Repr

/-! ## What the agents outside the block do -/

/-- The agents that present commands (R7): the block does not know the sender (R304). -/
inductive Agent where
  | host
  | irqsrc
  | cb
  deriving DecidableEq, Repr

/-- The values a reset leaves unspecified (R57 to R59, V11, V12), drawn from outside: the `RO_MASK` bits of the pin
registers, the wake-status words, and every sequencer field but the phases and `disp.handled`. -/
structure ResetDraw where
  pins : List Word
  wsts0 : Word
  wsts1 : Word
  disp : Disp
  grp : Grp
  sm : Sm
  deriving DecidableEq, Repr

/-- The values the acceptance of a command writes and the spec leaves open: R59 has every field of the sequencer written
then, and R212 and R260 say what only some of them hold. Drawn from outside, each in the range of its field (R46). -/
structure AcceptDraw where
  work : Bitmap
  k : Fin 46
  i : Fin 4
  v : Word
  mode : Mode
  deriving DecidableEq, Repr

/-- One choice of the schedule (R7, R8): which agent steps next, with every value that comes from outside the block
in that step. An oracle's answer is part of the choice, so it is under no law (R18). -/
inductive Act where
  /-- An agent presents a command word at the port (R100). -/
  | present (sender : Agent) (w : Command)
  /-- The port takes up the `n`-th word that waits there (R100: in any order). -/
  | accept (n : Nat)
  /-- The values the next acceptances leave open are drawn (R59, V12). -/
  | draw (d : AcceptDraw)
  /-- `DISP` takes a step; `live` is the answer to `ask is_live(p)` if the step asks (R222). -/
  | disp (live : Bool)
  /-- `GRP` takes a step (R188). -/
  | grp
  /-- `SM` takes a step; `eligible` is the answer to `ask eligible(p)` if the step asks (R252, R260). -/
  | sm (eligible : Bool)
  /-- The callback returns, `CB_RET` (R221). -/
  | cbRet
  /-- `ENV` writes the bits it owns of one pin register (R37, R38, R343). -/
  | envPin (pin : Nat) (v : Word)
  /-- `ENV` writes the two wake-status words (R41). -/
  | envWake (w0 w1 : Word)
  /-- The external reset (R320), with the values it leaves unspecified. -/
  | reset (draw : ResetDraw)
  deriving DecidableEq, Repr

/-! ## The state -/

/-- All state of the block, and four fields of the model's own: `cfg` (R8), `draw`, `sched`, `trace`. -/
structure State where
  /-- The configuration (R9 to R16). The model's own place for it; no step changes it. -/
  cfg : Config
  /-- `x[0]` to `x[NPINS-1]` (R30). -/
  pins : List Word
  /-- `WSTS0` (R41). -/
  wsts0 : Word
  /-- `WSTS1` (R41). -/
  wsts1 : Word
  /-- `MASTER` (R43). -/
  master : Word
  /-- `snap[0]` to `snap[NPINS-1]` (R44). -/
  snap : List (Option Word)
  /-- The bank lock (R52). -/
  lock : Lock
  /-- The dispatch sequencer (R46). An outstanding callback is `disp.phase = cbwait` (R54). -/
  disp : Disp
  /-- The group sequencer (R47). -/
  grp : Grp
  /-- The state-manager sequencer (R48). -/
  sm : Sm
  /-- The command words presented and not yet taken up (R100, R104). -/
  port : List Command
  /-- The model's own: a free value, what the next acceptance writes where the spec leaves it open (R59, V12;
  notes/assumptions/5.md). -/
  draw : AcceptDraw
  /-- The model's own: the choices of the schedule still to come (R8). -/
  sched : List Act
  /-- The model's own: the events at the ports so far, oldest first (R18: emitting changes no state of the block). -/
  trace : List PortEvent
  deriving DecidableEq, Repr

/-- The free values of acceptance in the reset state. DESIGN CHOICE, notes/assumptions/5.md. -/
def AcceptDraw.zero : AcceptDraw where
  work := 0
  k := 0
  i := 0
  v := 0
  mode := .suspend

/-- The state after reset (R57 to R59) for a configuration and the values the reset leaves unspecified. -/
def State.resetWith (cfg : Config) (d : ResetDraw) : State where
  cfg := cfg
  pins := (List.range cfg.npins).map fun i => d.pins.getD i 0 &&& cfg.roMask
  wsts0 := d.wsts0
  wsts1 := d.wsts1
  master := 0
  snap := List.replicate cfg.npins none
  lock := .free
  disp := { d.disp with phase := .idle, handled := false }
  grp := { d.grp with phase := .idle }
  sm := { d.sm with phase := .idle }
  port := []
  draw := AcceptDraw.zero
  sched := []
  trace := []

/-- The draw of R60, `ZERO(n)`: every bit `ENV` owns and both wake-status words 0; the idle sequencers' other fields,
which the spec leaves unspecified, at zero too. DESIGN CHOICE, notes/assumptions/4.md and 5.md. -/
def ResetDraw.zero : ResetDraw where
  pins := []
  wsts0 := 0
  wsts1 := 0
  disp := { phase := .idle, ctx := .hw, work := 0, k := 0, i := 0, handled := false, v := 0 }
  grp := { phase := .idle, list := [], j := 0, param := 0, value := 0 }
  sm := { phase := .idle, mode := .suspend, pin := 0 }

/-- The machine right after reset: R57 to R59 with the draw of R60, in the default configuration. -/
def State.reset : State := State.resetWith Config.default ResetDraw.zero

end Sys2Proof.Machine
end

