-- ==== Sys2Proof/Machine/Operands.lean ====
section
/-! DEFINITION. The operand forms of R105 to R107, the status codes of R108 and the packed result of R109. -/

namespace Sys2Proof.Machine

/-- The context the sign of `irq = sext_32(DATA)` selects (R105, R211). -/
def ctxOf (irq : Word) : Ctx := if irq.toInt < 0 then .query else .hw

/-- The supported configuration parameters (R106, R170). -/
inductive ParamTag where
  | debounce
  | pullDown
  | pullUp
  | driveStrength
  deriving DecidableEq, Repr

/-- The tag of a parameter (R106). -/
def ParamTag.byte : ParamTag → ParamByte
  | .debounce => 0x01#8
  | .pullDown => 0x02#8
  | .pullUp => 0x03#8
  | .driveStrength => 0x04#8

/-- The parameter a tag names; `none` for an unknown parameter (R106, R113). -/
def paramTagOf (param : ParamByte) : Option ParamTag :=
  if param = 0x01#8 then some .debounce
  else if param = 0x02#8 then some .pullDown
  else if param = 0x03#8 then some .pullUp
  else if param = 0x04#8 then some .driveStrength
  else none

/-- The code of a mode, `PARAM` of `ENTER` (R107). -/
def Mode.code : Mode → ParamByte
  | .suspend => 0x00#8
  | .hibernate => 0x01#8

/-- The code of a status (R108). -/
def Status.code : Status → BitVec 8
  | .ok => 0x00#8
  | .invalidArgument => 0x01#8
  | .notSupported => 0x02#8
  | .notFound => 0x03#8
  | .badCommand => 0xFF#8

/-- `pack(param, value) = (zext_64(value) << 8) | zext_64(param)` (R109). -/
def pack (param : ParamByte) (value : Word) : Rdata := (value.setWidth 64 <<< 8) ||| param.setWidth 64

/-- `unpack_value(r) = r >> 8` (R109). -/
def unpackValue (r : Rdata) : Rdata := r >>> 8

/-- `unpack_param(r) = r[7:0]` (R109). -/
def unpackParam (r : Rdata) : ParamByte := r.extractLsb' 0 8

/-- The on/off reading of a pull value: 1 for any non-zero value (R179, U1). -/
def onOff (value : Word) : Word := if value ≠ 0#32 then 1#32 else 0#32

/-- A Boolean result in `RDATA` (R103, R210). -/
def boolResult (b : Bool) : Rdata := if b then 1#64 else 0#64

end Sys2Proof.Machine
end

