-- ==== Sys2Proof/Machine/Flags.lean ====
section
/-! DEFINITION. The block's only flag, `disp.handled` (R50), and the flag-like tests on a register word that the rules compute. -/

namespace Sys2Proof.Machine

/-- R222: the flag is set when a dispatched pin is a live line; nothing clears it during a pass (R50). -/
def Disp.markHandled (d : Disp) : Disp := { d with handled := true }

/-- R225: the result of a hardware-interrupt pass. -/
def Disp.result (d : Disp) : Rdata := boolResult d.handled

/-- `w & bits != 0`: the test the rules make on a register word. -/
def anySet (w bits : Word) : Bool := w &&& bits != 0#32

/-- The pending bit of a pin word (R37). -/
def isPending (c : Config) (w : Word) : Bool := anySet w c.pendingBit

end Sys2Proof.Machine
end

