-- ==== Sys2Proof/Machine/Ops.lean ====
section
/-! DEFINITION. The named operations every meaning is written over: bit fields (R146, R147), the write merge (R76), the register space (R71 to R75), responses and events (R100, R18), the lock (R80), waiting at the port (R104), and the block's trap and its return (R298, R301). -/

namespace Sys2Proof.Machine

/-! ## Bit fields -/

/-- `field_get(w, off, mask) = (w >> off) & mask` (R146). -/
def fieldGet (w : Word) (off : Nat) (mask : Word) : Word := (w >>> off) &&& mask

/-- `field_set(w, off, mask, val) = (w & ~(mask << off)) | ((val & mask) << off)` (R147). -/
def fieldSet (w : Word) (off : Nat) (mask val : Word) : Word := (w &&& ~~~(mask <<< off)) ||| ((val &&& mask) <<< off)

/-- `hw_merge(old, new) = (old & RO_MASK) | (new & ~RO_MASK)` (R76). -/
def hwMerge (roMask old new : Word) : Word := (old &&& roMask) ||| (new &&& ~~~roMask)

/-! ## Events and responses -/

/-- `emit E` (R18). -/
def State.emit (s : State) (e : PortEvent) : State := { s with trace := s.trace ++ [e] }

/-- `respond(STATUS, RDATA)` (R100), from the engine that answers. -/
def State.respond (s : State) (engine : Engine) (status : Status) (rdata : Rdata) : State :=
  s.emit (.response engine status rdata)

/-- `raise <Status>` (R280): the response carries the status, and `RDATA = 0` (R103). Nothing else is written. -/
def State.raise (s : State) (engine : Engine) (status : Status) : State := s.respond engine status 0

/-! ## Registers -/

/-- `x[i]` (R18, R30). -/
def State.x (s : State) (i : Nat) : Word := s.pins.getD i 0

/-- The form of the register space as data: one word for each of the `NPINS` pin registers (R30). The three global
registers are single words, so this is all there is to keep (notes/assumptions/8.md). -/
def Memory.wf (s : State) : Bool := s.pins.length == s.cfg.npins

/-- `x[i] <- v`: a software write, which leaves the bits in `RO_MASK` as they were (R18, R76). -/
def State.storePin (s : State) (i : Nat) (v : Word) : State :=
  { s with pins := s.pins.set i (hwMerge s.cfg.roMask (s.x i) v) }

/-- `MASTER <- v` (R18, R73): every bit is stored, and setting `EOI_BIT` emits `EOI_WRITTEN` (R297). -/
def State.storeMaster (s : State) (v : Word) : State :=
  let t : State := { s with master := v }
  if anySet v s.cfg.eoiBit then t.emit .eoiWritten else t

/-- The bitmap `WS = {WSTS1, WSTS0}` (R41), 64 bits, not masked. -/
def State.wakeBitmap (s : State) : BitVec 64 := s.wsts1 ++ s.wsts0

/-! ## The register space -/

/-- What an address holds. -/
inductive RegName where
  | pin (i : Nat)
  | wsts0
  | wsts1
  | master
  deriving DecidableEq, Repr

/-- The address of `x[i]`, `BASE + 4*i` (R71). -/
def pinAddress (c : Config) (i : Nat) : Nat := c.base + 4 * i

/-- The address of `WSTS0` (R71). -/
def wsts0Address (c : Config) : Nat := c.base + c.wakeSts0Off

/-- The address of `WSTS1` (R71). -/
def wsts1Address (c : Config) : Nat := c.base + c.wakeSts1Off

/-- The address of `MASTER` (R71). -/
def masterAddress (c : Config) : Nat := c.base + c.masterOff

/-- The address map of R71; `none` where the map has nothing. -/
def registerAt (c : Config) (addr : Nat) : Option RegName :=
  if c.base ≤ addr ∧ (addr - c.base) % 4 = 0 ∧ (addr - c.base) / 4 < c.npins then some (.pin ((addr - c.base) / 4))
  else if addr = wsts0Address c then some .wsts0
  else if addr = wsts1Address c then some .wsts1
  else if addr = masterAddress c then some .master
  else none

/-- The register an access reaches, or the refusal of R74 or R75. -/
def accessTarget (c : Config) (addr n : Nat) : Except Refusal RegName :=
  if n ≠ 4 ∨ addr % 4 ≠ 0 then .error .badAccess
  else match registerAt c addr with
    | some r => .ok r
    | none => .error .unmappedAddress

/-- The value of a register; a read changes nothing (R72, R78). -/
def State.readRegister (s : State) : RegName → Word
  | .pin i => s.x i
  | .wsts0 => s.wsts0
  | .wsts1 => s.wsts1
  | .master => s.master

/-- A software write of a register: merged for a pin register, ignored for a wake-status word (R73). -/
def State.writeRegister (s : State) (r : RegName) (v : Word) : State :=
  match r with
  | .pin i => s.storePin i v
  | .wsts0 => s
  | .wsts1 => s
  | .master => s.storeMaster v

/-- `MemRead(addr, n)` (R72, R74, R75). -/
def memRead (addr n : Nat) (s : State) : Except Refusal Word :=
  (accessTarget s.cfg addr n).map s.readRegister

/-- `MemWrite(addr, n, v)` (R73, R74, R75). -/
def memWrite (addr n : Nat) (v : Word) (s : State) : Except Refusal State :=
  (accessTarget s.cfg addr n).map fun r => s.writeRegister r v

/-- The byte of the register space at an address, little-endian (R77): the reader statements about memory use. `none`
where the map of R71 has nothing. No command accesses a byte (R74). -/
def State.byteAt (s : State) (addr : Nat) : Option (BitVec 8) :=
  ((registerAt s.cfg (addr - addr % 4)).map s.readRegister).map fun w => w.extractLsb' (8 * (addr % 4)) 8

/-! ## The lock and the port -/

/-- A locked section of a sequencer (R80): acquire, run the body, release, as one step; no step while the lock is held. -/
def State.locked (s : State) (body : State → State) : State :=
  match s.lock with
  | .held => s
  | .free => { body { s with lock := .held } with lock := .free }

/-- A command that cannot be accepted waits at the port: it is not answered and nothing else changes (R104). -/
def State.waitAtPort (s : State) (i : Instr) : State := { s with port := s.port ++ [encode i] }

/-- A single-step command whose body is one locked section (R81, R104); it waits while the lock is held. -/
def portSection (i : Instr) (s : State) (body : State → Except Refusal State) : Host.Outcome State Fault Refusal :=
  match s.lock with
  | .held => .next (s.waitAtPort i)
  | .free =>
    match body { s with lock := .held } with
    | .ok t => .next { t with lock := .free }
    | .error r => .refused r

/-! ## The trap and its return -/

/-- The entry of the block's trap (R220, R298): `CB_CALL(pin)` is emitted and the sequencer waits. No register is
saved or changed, the lock stays free, and the pin index is all that is passed (R299). -/
def callbackEntry (pin : Nat) (s : State) : State :=
  let t := s.emit (.cbCall pin)
  { t with disp := { t.disp with phase := .cbwait } }

/-- The return (R221, R301): `CB_RET` moves the sequencer to `REREAD` and restores nothing; unasked it is refused (V9). -/
def callbackReturn (s : State) : Host.Outcome State Fault Refusal :=
  if s.disp.phase = .cbwait then
    let t := s.emit .cbRet
    .next { t with disp := { t.disp with phase := .reread } }
  else .refused .callbackReturnUnasked

end Sys2Proof.Machine
end

