-- ==== Sys2Proof/Machine/Bank.lean ====
section
/-! DEFINITION. The Register Bank commands (40_register_bank.md, R140 to R145). -/

namespace Sys2Proof.Machine

/-- `READ_PIN` (R141). -/
def execReadPin (pin : Selector) (s : State) : Host.Outcome State Fault Refusal :=
  if s.cfg.npins ≤ pin.toNat then .next (s.raise .port .notFound)
  else portSection (.readPin pin) s fun s => do
    let r ← memRead (pinAddress s.cfg pin.toNat) 4 s
    return s.respond .port .ok (r.setWidth 64)

/-- `WRITE_PIN` (R142). -/
def execWritePin (pin : Selector) (data : Word) (s : State) : Host.Outcome State Fault Refusal :=
  if s.cfg.npins ≤ pin.toNat then .next (s.raise .port .notFound)
  else portSection (.writePin pin data) s fun s => do
    let t ← memWrite (pinAddress s.cfg pin.toNat) 4 data s
    return t.respond .port .ok 0

/-- `READ_WAKE_STATUS` (R143): `WSTS0`, then `WSTS1`, in one section; not masked. -/
def execReadWakeStatus (s : State) : Host.Outcome State Fault Refusal :=
  portSection .readWakeStatus s fun s => do
    let lo ← memRead (wsts0Address s.cfg) 4 s
    let hi ← memRead (wsts1Address s.cfg) 4 s
    return s.respond .port .ok (hi ++ lo)

/-- `READ_MASTER` (R144). -/
def execReadMaster (s : State) : Host.Outcome State Fault Refusal :=
  portSection .readMaster s fun s => do
    let r ← memRead (masterAddress s.cfg) 4 s
    return s.respond .port .ok (r.setWidth 64)

/-- `WRITE_MASTER` (R145). -/
def execWriteMaster (data : Word) (s : State) : Host.Outcome State Fault Refusal :=
  portSection (.writeMaster data) s fun s => do
    let t ← memWrite (masterAddress s.cfg) 4 data s
    return t.respond .port .ok 0

end Sys2Proof.Machine
end

