-- ==== Sys2Proof/Machine/DispatchEngine.lean ====
section
/-! DEFINITION. The IRQ Dispatch Engine (42_irq_dispatch.md, R210 to R232): the acceptance of `DISPATCH` and the steps of the dispatch sequencer. -/

namespace Sys2Proof.Machine

/-- `pin = 4 * disp.k + disp.i`. -/
def Disp.pin (d : Disp) : Nat := 4 * d.k + d.i

/-- The dispatch sequencer as an acceptance leaves it: R212 gives the phase, the context and the flag; R59 has every other
field written too and says no value, so these are drawn. -/
def startedDisp (ctx : Ctx) (d : AcceptDraw) : Disp :=
  { phase := .status, ctx := ctx, work := d.work, k := d.k, i := d.i, handled := false, v := d.v }

/-- Acceptance of a `DISPATCH` (R212, R59); it waits while the sequencer is busy (R104). -/
def acceptDispatch (i : Instr) (irq : Word) (s : State) : Host.Outcome State Fault Refusal :=
  match s.disp.phase with
  | .idle => .next { s with disp := startedDisp (ctxOf irq) s.draw }
  | _ => .next (s.waitAtPort i)

/-- `DISPATCH` with `irq >= 0` (R227): its acceptance; the pass is `dispStep`. -/
def execDispatchHw (irq : Word) (s : State) : Host.Outcome State Fault Refusal :=
  acceptDispatch (.dispatchHw irq) irq s

/-- `DISPATCH` with `irq < 0` (R228): its acceptance; the pass is `dispStep`. -/
def execDispatchQuery (irq : Word) (s : State) : Host.Outcome State Fault Refusal :=
  acceptDispatch (.dispatchQuery irq) irq s

/-- The smallest set bit of the working copy (R214). -/
def lowestSet (w : Bitmap) : Option Nat := (List.range 46).find? fun j => w.getLsbD j

/-- `work & ~(1 << k)` (R214). -/
def clearBit (w : Bitmap) (k : Nat) : Bitmap := w &&& ~~~(1#46 <<< k)

/-- The pass ends: the response, and the sequencer is idle. -/
def endPass (rdata : Rdata) (s : State) : State :=
  { s with disp := { s.disp with phase := .idle } }.respond .disp .ok rdata

/-- `advance` (R223). -/
def advance (s : State) : State :=
  if s.disp.i < 3 then { s with disp := { s.disp with i := s.disp.i + 1, phase := .read } }
  else { s with disp := { s.disp with phase := .next } }

/-- Step `STATUS` (R213): the bitmap is sampled once and masked to 46 bits. -/
def statusStep (s : State) : State :=
  s.locked fun s =>
    { s with disp := { s.disp with
        work := (s.wakeBitmap &&& 0x00003FFFFFFFFFFF#64).setWidth 46
        phase := .next } }

/-- Step `NEXT` (R214, R224). -/
def nextStep (s : State) : State :=
  match lowestSet s.disp.work with
  | none =>
    match s.disp.ctx with
    | .query => endPass (boolResult false) s
    | .hw => { s with disp := { s.disp with phase := .eoi } }
  | some k => { s with disp := { s.disp with work := clearBit s.disp.work k, k := k, i := 0, phase := .read } }

/-- Step `READ`, the decision on the word just read (R217 to R220): in `QUERY` context the wake-status bit, in `HW`
context the pending and mask bits. -/
def readDecision (s : State) : State :=
  match s.disp.ctx with
  | .query => if anySet s.disp.v s.cfg.wakeStsBit then endPass (boolResult true) s else advance s
  | .hw =>
    if !isPending s.cfg s.disp.v || !anySet s.disp.v s.cfg.intMaskBit then advance s
    else callbackEntry s.disp.pin s

/-- Step `READ`, the diagnostic (R216). -/
def diagActive (s : State) : State :=
  if isPending s.cfg s.disp.v then s.emit (.diagActive s.disp.pin) else s

/-- Step `READ` (R215 to R220): a pin past the last one is passed over with no access (R226). -/
def readStep (s : State) : State :=
  if s.cfg.npins ≤ s.disp.pin then advance s
  else match s.lock with
    | .held => s
    | .free => readDecision (diagActive (s.locked fun s => { s with disp := { s.disp with v := s.x s.disp.pin } }))

/-- Step `REREAD`, the locked body (R222): the word is read again, and written back in both branches. -/
def rereadBody (live : Bool) (s : State) : State :=
  let w := s.x s.disp.pin
  if live then { s with disp := s.disp.markHandled }.storePin s.disp.pin w
  else s.storePin s.disp.pin (w &&& ~~~s.cfg.intMaskBit)

/-- Step `REREAD` (R222). -/
def rereadStep (live : Bool) (s : State) : State :=
  match s.lock with
  | .held => s
  | .free => advance (s.locked (rereadBody live))

/-- Step `EOI` (R225): the read-modify-write of `MASTER`, then the response. -/
def eoiStep (s : State) : State :=
  match s.lock with
  | .held => s
  | .free =>
    let t := s.locked fun s => s.storeMaster (s.master ||| s.cfg.eoiBit)
    endPass t.disp.result t

/-- One step of the dispatch sequencer; `live` is the answer to `ask is_live(pin)` if the step asks. It has none of its
own while idle or waiting for the callback (R221). -/
def dispStep (live : Bool) (s : State) : State :=
  match s.disp.phase with
  | .idle => s
  | .status => statusStep s
  | .next => nextStep s
  | .read => readStep s
  | .cbwait => s
  | .reread => rereadStep live s
  | .eoi => eoiStep s

end Sys2Proof.Machine
end

