-- ==== Sys2Proof/Machine/Codec.lean ====
section
/-! DEFINITION. The Pin Configuration Codec (41_config_codec.md, R170 to R190): `GET_CONFIG`, `SET_CONFIG`, `SET_CONFIG_GROUP` and the group sequencer. -/

namespace Sys2Proof.Machine

/-! ## Debounce arithmetic -/

/-- Whether the pin's unit selector asks for the large unit, the coarse path (R33, R176). -/
def coarseUnit (c : Config) (w : Word) : Bool := anySet w c.dbUnitBit

/-- The count of a duration in microseconds, exact and floored (R19, R176). -/
def debounceCount (coarse : Bool) (value : Word) : Nat :=
  if coarse then value.toNat * 1000 / 31250 else value.toNat * 1000 / 15625

/-- The limit of the selected path (R176). -/
def debounceLimit (c : Config) (coarse : Bool) : Nat := if coarse then c.dbCoarseMax else c.dbFineMax

/-- `x[pin] <- field_set(x[pin], DB_CNT_OFF, DB_CNT_MASK, count)`. -/
def storeCount (pin : Nat) (count : Word) (s : State) : State :=
  s.storePin pin (fieldSet (s.x pin) s.cfg.dbCntOff s.cfg.dbCntMask count)

/-- The locked body of R177: the zero test, then the override test, then the range test. It is also
`set_debounce_nested` (R186). -/
def setDebounceBody (pin : Nat) (value : Word) (s : State) : Status × State :=
  if value = 0#32 then (.ok, storeCount pin 0#32 s)
  else if anySet s.master s.cfg.dbOverrideBit then (.ok, s)
  else
    let coarse := coarseUnit s.cfg (s.x pin)
    let count := debounceCount coarse value
    if debounceLimit s.cfg coarse < count then (.invalidArgument, s)
    else (.ok, storeCount pin (BitVec.ofNat 32 count) s)

/-! ## The bodies of the single-pin commands -/

/-- The locked body of `SET_CONFIG` for a supported parameter (R177, R179, R180, R181). -/
def setBody (tag : ParamTag) (pin : Nat) (value : Word) (s : State) : Status × State :=
  match tag with
  | .debounce => setDebounceBody pin value s
  | .pullDown => (.ok, s.storePin pin (fieldSet (s.x pin) s.cfg.pullDownOff 1#32 (onOff value)))
  | .pullUp => (.ok, s.storePin pin (fieldSet (s.x pin) s.cfg.pullUpOff 1#32 (onOff value)))
  | .driveStrength => (.ok, s.storePin pin (fieldSet (s.x pin) s.cfg.drvOff s.cfg.drvMask (value &&& 0x7#32)))

/-- The field `GET_CONFIG` reads out of a word (R172 to R175). -/
def configField (c : Config) (tag : ParamTag) (w : Word) : Word :=
  match tag with
  | .debounce => fieldGet w c.dbCntOff c.dbCntMask
  | .pullDown => fieldGet w c.pullDownOff 1#32
  | .pullUp => fieldGet w c.pullUpOff 1#32
  | .driveStrength => fieldGet w c.drvOff c.drvMask

/-- `SET_CONFIG(pin, param, value)` with the checks of R171, as its own command and as one step of the group form:
the status and the state after it; `none` while the section needs the lock and it is held (R83). -/
def setConfig (pin : Nat) (param : ParamByte) (value : Word) (s : State) : Option (Status × State) :=
  if s.cfg.npins ≤ pin then some (.notFound, s)
  else match paramTagOf param with
    | none => some (.notSupported, s)
    | some tag =>
      match s.lock with
      | .held => none
      | .free =>
        let r := setBody tag pin value { s with lock := .held }
        some (r.1, { r.2 with lock := .free })

/-! ## Commands -/

/-- A `GET_CONFIG` of a supported parameter (R171 to R175). -/
def codecGet (i : Instr) (tag : ParamTag) (pin : Selector) (s : State) : Host.Outcome State Fault Refusal :=
  if s.cfg.npins ≤ pin.toNat then .next (s.raise .port .notFound)
  else portSection i s fun s =>
    .ok (s.respond .port .ok (pack tag.byte (configField s.cfg tag (s.x pin.toNat))))

/-- A `SET_CONFIG` of a supported parameter: the status of `setConfig` is the response. -/
def codecSet (i : Instr) (tag : ParamTag) (pin : Selector) (value : Word) (s : State) :
    Host.Outcome State Fault Refusal :=
  match setConfig pin.toNat tag.byte value s with
  | none => .next (s.waitAtPort i)
  | some (st, t) => .next (t.respond .port st 0)

/-- `GET_CONFIG` and `SET_CONFIG` with an unknown parameter (R182, R183): the selector is judged first, no register is
touched and no lock is taken. -/
def unknownParam (pin : Selector) (s : State) : Host.Outcome State Fault Refusal :=
  if s.cfg.npins ≤ pin.toNat then .next (s.raise .port .notFound) else .next (s.raise .port .notSupported)

/-- `GET_CONFIG` with `Debounce` (R172): the raw count in ticks. -/
def execGetDebounce (pin : Selector) (s : State) : Host.Outcome State Fault Refusal :=
  codecGet (.getDebounce pin) .debounce pin s

/-- `GET_CONFIG` with `PullDown` (R173). -/
def execGetPullDown (pin : Selector) (s : State) : Host.Outcome State Fault Refusal :=
  codecGet (.getPullDown pin) .pullDown pin s

/-- `GET_CONFIG` with `PullUp` (R174). -/
def execGetPullUp (pin : Selector) (s : State) : Host.Outcome State Fault Refusal :=
  codecGet (.getPullUp pin) .pullUp pin s

/-- `GET_CONFIG` with `DriveStrength` (R175). -/
def execGetDriveStrength (pin : Selector) (s : State) : Host.Outcome State Fault Refusal :=
  codecGet (.getDriveStrength pin) .driveStrength pin s

/-- `GET_CONFIG` with tag `0x00` (R182). -/
def execGetOther00 (pin : Selector) (s : State) : Host.Outcome State Fault Refusal := unknownParam pin s

/-- `GET_CONFIG` with tag `0x05` (R182). -/
def execGetOther05 (pin : Selector) (s : State) : Host.Outcome State Fault Refusal := unknownParam pin s

/-- `GET_CONFIG` with a tag in `0x06` to `0x07` (R182). -/
def execGetOther06to07 (pin : Selector) (_param : ParamByte) (s : State) : Host.Outcome State Fault Refusal :=
  unknownParam pin s

/-- `GET_CONFIG` with a tag in `0x08` to `0x0F` (R182). -/
def execGetOther08to0F (pin : Selector) (_param : ParamByte) (s : State) : Host.Outcome State Fault Refusal :=
  unknownParam pin s

/-- `GET_CONFIG` with a tag in `0x10` to `0x1F` (R182). -/
def execGetOther10to1F (pin : Selector) (_param : ParamByte) (s : State) : Host.Outcome State Fault Refusal :=
  unknownParam pin s

/-- `GET_CONFIG` with a tag in `0x20` to `0x3F` (R182). -/
def execGetOther20to3F (pin : Selector) (_param : ParamByte) (s : State) : Host.Outcome State Fault Refusal :=
  unknownParam pin s

/-- `GET_CONFIG` with a tag in `0x40` to `0x7F` (R182). -/
def execGetOther40to7F (pin : Selector) (_param : ParamByte) (s : State) : Host.Outcome State Fault Refusal :=
  unknownParam pin s

/-- `GET_CONFIG` with a tag in `0x80` to `0xFF` (R182). -/
def execGetOther80toFF (pin : Selector) (_param : ParamByte) (s : State) : Host.Outcome State Fault Refusal :=
  unknownParam pin s

/-- `SET_CONFIG` with `Debounce` (R177). -/
def execSetDebounce (pin : Selector) (value : Word) (s : State) : Host.Outcome State Fault Refusal :=
  codecSet (.setDebounce pin value) .debounce pin value s

/-- `SET_CONFIG` with `PullDown` (R179). -/
def execSetPullDown (pin : Selector) (value : Word) (s : State) : Host.Outcome State Fault Refusal :=
  codecSet (.setPullDown pin value) .pullDown pin value s

/-- `SET_CONFIG` with `PullUp` (R180). -/
def execSetPullUp (pin : Selector) (value : Word) (s : State) : Host.Outcome State Fault Refusal :=
  codecSet (.setPullUp pin value) .pullUp pin value s

/-- `SET_CONFIG` with `DriveStrength` (R181). -/
def execSetDriveStrength (pin : Selector) (value : Word) (s : State) : Host.Outcome State Fault Refusal :=
  codecSet (.setDriveStrength pin value) .driveStrength pin value s

/-- `SET_CONFIG` with tag `0x00` (R183). -/
def execSetOther00 (pin : Selector) (_value : Word) (s : State) : Host.Outcome State Fault Refusal := unknownParam pin s

/-- `SET_CONFIG` with tag `0x05` (R183). -/
def execSetOther05 (pin : Selector) (_value : Word) (s : State) : Host.Outcome State Fault Refusal := unknownParam pin s

/-- `SET_CONFIG` with a tag in `0x06` to `0x07` (R183). -/
def execSetOther06to07 (pin : Selector) (_param : ParamByte) (_value : Word) (s : State) :
    Host.Outcome State Fault Refusal := unknownParam pin s

/-- `SET_CONFIG` with a tag in `0x08` to `0x0F` (R183). -/
def execSetOther08to0F (pin : Selector) (_param : ParamByte) (_value : Word) (s : State) :
    Host.Outcome State Fault Refusal := unknownParam pin s

/-- `SET_CONFIG` with a tag in `0x10` to `0x1F` (R183). -/
def execSetOther10to1F (pin : Selector) (_param : ParamByte) (_value : Word) (s : State) :
    Host.Outcome State Fault Refusal := unknownParam pin s

/-- `SET_CONFIG` with a tag in `0x20` to `0x3F` (R183). -/
def execSetOther20to3F (pin : Selector) (_param : ParamByte) (_value : Word) (s : State) :
    Host.Outcome State Fault Refusal := unknownParam pin s

/-- `SET_CONFIG` with a tag in `0x40` to `0x7F` (R183). -/
def execSetOther40to7F (pin : Selector) (_param : ParamByte) (_value : Word) (s : State) :
    Host.Outcome State Fault Refusal := unknownParam pin s

/-- `SET_CONFIG` with a tag in `0x80` to `0xFF` (R183). -/
def execSetOther80toFF (pin : Selector) (_param : ParamByte) (_value : Word) (s : State) :
    Host.Outcome State Fault Refusal := unknownParam pin s

/-- `SET_CONFIG_GROUP`, its acceptance (R188). The group check touches no register, so it is answered even while the
sequencer is busy (R104; DEDUCED, notes/assumptions/7.md); otherwise a busy sequencer makes the command wait. -/
def execSetConfigGroup (group : Selector) (param : ParamByte) (value : Word) (s : State) :
    Host.Outcome State Fault Refusal :=
  match s.cfg.groups[group.toNat]? with
  | none => .next (s.raise .port .notFound)
  | some list =>
    match s.grp.phase with
    | .run => .next (s.waitAtPort (.setConfigGroup group param value))
    | .idle => .next { s with grp := { phase := .run, list := list, j := 0, param := param, value := value } }

/-- One step of the group sequencer (R188). -/
def grpStep (s : State) : State :=
  match s.grp.phase with
  | .idle => s
  | .run =>
    match s.grp.list[s.grp.j]? with
    | none => { s with grp := { s.grp with phase := .idle } }.respond .grp .ok 0
    | some pin =>
      match setConfig pin s.grp.param s.grp.value s with
      | none => s
      | some (st, t) =>
        if st = .ok then { t with grp := { t.grp with j := t.grp.j + 1 } }
        else { t with grp := { t.grp with phase := .idle } }.respond .grp st 0

end Sys2Proof.Machine
end

