-- ==== Sys2Proof/Machine/StateManager.lean ====
section
/-! DEFINITION. The Suspend/Hibernate State Manager (43_state_manager.md, R250 to R263): `ENTER`, `RESTORE` and the state-manager sequencer. -/

namespace Sys2Proof.Machine

/-! ## Acceptance -/

/-- Acceptance of `ENTER` (R251); it waits while the sequencer is busy (R104). -/
def acceptEnter (i : Instr) (mode : Mode) (s : State) : Host.Outcome State Fault Refusal :=
  match s.sm.phase with
  | .idle => .next { s with sm := { phase := .save, mode := mode, pin := 0 } }
  | _ => .next (s.waitAtPort i)

/-- `ENTER(Suspend)` (R250, R251): its acceptance; the pins are `smStep`. -/
def execEnterSuspend (s : State) : Host.Outcome State Fault Refusal := acceptEnter .enterSuspend .suspend s

/-- `ENTER(Hibernate)` (R250, R251): its acceptance; the pins are `smStep`. -/
def execEnterHibernate (s : State) : Host.Outcome State Fault Refusal := acceptEnter .enterHibernate .hibernate s

/-- `RESTORE` (R260): its acceptance; the pins are `smStep`. The mode, which only `SAVE` uses (R48), is written too and
no rule says with what (R59), so it is drawn. It waits while the sequencer is busy (R104). -/
def execRestore (s : State) : Host.Outcome State Fault Refusal :=
  match s.sm.phase with
  | .idle => .next { s with sm := { phase := .rest, mode := s.draw.mode, pin := 0 } }
  | _ => .next (s.waitAtPort .restore)

/-! ## The steps -/

/-- The wake-source bit the mode tests (R254). -/
def wakeMask (c : Config) : Mode → Word
  | .suspend => c.wsSuspendBit
  | .hibernate => c.wsHibernateBit

/-- Source step 3 (R254, R255): a pin that is no wake source for the mode loses its mask bit. -/
def maskNonwake (mode : Mode) (p : Nat) (saved : Word) (s : State) : State :=
  if anySet saved (wakeMask s.cfg mode) then s
  else (s.storePin p (saved &&& ~~~s.cfg.intMaskBit)).emit (.diagNonwakeMasked p mode)

/-- Source step 4 (R256): a non-zero debounce count is cleared through the codec, nested. -/
def clearDebounce (p : Nat) (saved : Word) (s : State) : State :=
  if anySet saved s.cfg.dbCntField then (setDebounceBody p 0#32 s).2.emit (.diagDebounceCleared p) else s

/-- The locked section of `ENTER` for one eligible pin (R252, R253): the word without its pending bit is saved, then
the live register is masked and its debounce cleared. -/
def saveBody (mode : Mode) (p : Nat) (s : State) : State :=
  let saved := s.x p &&& ~~~s.cfg.pendingBit
  let t : State := { s with snap := s.snap.set p (some saved) }
  clearDebounce p saved (maskNonwake mode p saved t)

/-- Slot `p` of the snapshot (R44). -/
def State.slot (s : State) (p : Nat) : Option Word := s.snap.getD p none

/-- The locked section of `RESTORE` for one eligible pin with a saved word (R260). -/
def restoreBody (p : Nat) (w : Word) (s : State) : State := s.storePin p w

/-- `sm.pin <- p + 1`. -/
def nextPin (s : State) : State := { s with sm := { s.sm with pin := s.sm.pin + 1 } }

/-- The operation ends: `respond(Ok, 0)` and the sequencer is idle. -/
def endManager (s : State) : State := { s with sm := { s.sm with phase := .idle } }.respond .sm .ok 0

/-- One step of `ENTER` (R252); `eligible` is the answer to `ask eligible(p)`. -/
def saveStep (eligible : Bool) (s : State) : State :=
  if s.cfg.npins ≤ s.sm.pin then endManager s
  else if eligible then
    match s.lock with
    | .held => s
    | .free => nextPin (s.locked (saveBody s.sm.mode s.sm.pin))
  else nextPin s

/-- One step of `RESTORE` (R260). A slot that is `none` is passed over, and so is a pin not eligible now (R261). -/
def restStep (eligible : Bool) (s : State) : State :=
  if s.cfg.npins ≤ s.sm.pin then endManager s
  else if eligible then
    match s.slot s.sm.pin with
    | none => nextPin s
    | some w =>
      match s.lock with
      | .held => s
      | .free => nextPin (s.locked (restoreBody s.sm.pin w))
  else nextPin s

/-- One step of the state-manager sequencer. -/
def smStep (eligible : Bool) (s : State) : State :=
  match s.sm.phase with
  | .idle => s
  | .save => saveStep eligible s
  | .rest => restStep eligible s

end Sys2Proof.Machine
end

