-- ==== Sys2Proof/Machine/Dispatch.lean ====
section
/-! DEFINITION. `exec`: one arm per constructor of `Instr`, each one direct call of the instruction's meaning. -/

namespace Sys2Proof.Machine

def exec (i : Instr) (s : State) : Host.Outcome State Fault Refusal :=
  match i with
  | .readPin pin => Sys2Proof.Machine.execReadPin pin s
  | .writePin pin data => Sys2Proof.Machine.execWritePin pin data s
  | .readWakeStatus => Sys2Proof.Machine.execReadWakeStatus s
  | .readMaster => Sys2Proof.Machine.execReadMaster s
  | .writeMaster data => Sys2Proof.Machine.execWriteMaster data s
  | .getDebounce pin => Sys2Proof.Machine.execGetDebounce pin s
  | .getPullDown pin => Sys2Proof.Machine.execGetPullDown pin s
  | .getPullUp pin => Sys2Proof.Machine.execGetPullUp pin s
  | .getDriveStrength pin => Sys2Proof.Machine.execGetDriveStrength pin s
  | .getOther00 pin => Sys2Proof.Machine.execGetOther00 pin s
  | .getOther05 pin => Sys2Proof.Machine.execGetOther05 pin s
  | .getOther06to07 pin param => Sys2Proof.Machine.execGetOther06to07 pin param s
  | .getOther08to0F pin param => Sys2Proof.Machine.execGetOther08to0F pin param s
  | .getOther10to1F pin param => Sys2Proof.Machine.execGetOther10to1F pin param s
  | .getOther20to3F pin param => Sys2Proof.Machine.execGetOther20to3F pin param s
  | .getOther40to7F pin param => Sys2Proof.Machine.execGetOther40to7F pin param s
  | .getOther80toFF pin param => Sys2Proof.Machine.execGetOther80toFF pin param s
  | .setDebounce pin value => Sys2Proof.Machine.execSetDebounce pin value s
  | .setPullDown pin value => Sys2Proof.Machine.execSetPullDown pin value s
  | .setPullUp pin value => Sys2Proof.Machine.execSetPullUp pin value s
  | .setDriveStrength pin value => Sys2Proof.Machine.execSetDriveStrength pin value s
  | .setOther00 pin value => Sys2Proof.Machine.execSetOther00 pin value s
  | .setOther05 pin value => Sys2Proof.Machine.execSetOther05 pin value s
  | .setOther06to07 pin param value => Sys2Proof.Machine.execSetOther06to07 pin param value s
  | .setOther08to0F pin param value => Sys2Proof.Machine.execSetOther08to0F pin param value s
  | .setOther10to1F pin param value => Sys2Proof.Machine.execSetOther10to1F pin param value s
  | .setOther20to3F pin param value => Sys2Proof.Machine.execSetOther20to3F pin param value s
  | .setOther40to7F pin param value => Sys2Proof.Machine.execSetOther40to7F pin param value s
  | .setOther80toFF pin param value => Sys2Proof.Machine.execSetOther80toFF pin param value s
  | .setConfigGroup group param value => Sys2Proof.Machine.execSetConfigGroup group param value s
  | .dispatchHw irq => Sys2Proof.Machine.execDispatchHw irq s
  | .dispatchQuery irq => Sys2Proof.Machine.execDispatchQuery irq s
  | .enterSuspend => Sys2Proof.Machine.execEnterSuspend s
  | .enterHibernate => Sys2Proof.Machine.execEnterHibernate s
  | .restore => Sys2Proof.Machine.execRestore s

end Sys2Proof.Machine
end

