-- ==== Sys2Proof/Machine/Agents.lean ====
section
/-! DEFINITION. One choice of the schedule carried out: the port takes up a command, a sequencer steps, the callback returns, `ENV` writes the bits it owns, the block is reset (R7, R100, R104, R320, R343). -/

namespace Sys2Proof.Machine

/-- The port takes up a word: the decoded command runs, an illegal word is answered `BadCommand` and changes nothing
else (R111, R112). -/
def takeCommand (w : Command) (s : State) : Host.Outcome State Fault Refusal :=
  match decode w with
  | .ok i => exec i s
  | .error _ => .next (s.raise .port .badCommand)

/-- The port takes up the `n`-th waiting word (R100); with no such word nothing happens. -/
def acceptNth (n : Nat) (s : State) : Host.Outcome State Fault Refusal :=
  match s.port[n]? with
  | none => .next s
  | some w => takeCommand w { s with port := s.port.eraseIdx n }

/-- `ENV` writes the bits it owns of one pin register, those in `RO_MASK` (R37, R38, R343), only while the lock is
free (R86). -/
def envPin (pin : Nat) (v : Word) (s : State) : State :=
  match s.lock with
  | .held => s
  | .free => { s with pins := s.pins.set pin (hwMerge s.cfg.roMask v (s.x pin)) }

/-- `ENV` writes the wake-status words (R41), only while the lock is free (R86). -/
def envWake (w0 w1 : Word) (s : State) : State :=
  match s.lock with
  | .held => s
  | .free => { s with wsts0 := w0, wsts1 := w1 }

/-- The external reset (R320, R323): every piece of the block's state takes its reset value, an operation under way is
abandoned without a response, an outstanding callback and every waiting command are forgotten. The configuration, the
free values, the rest of the schedule and the events already emitted are not the block's state. -/
def externalReset (d : ResetDraw) (s : State) : State :=
  { State.resetWith s.cfg d with draw := s.draw, sched := s.sched, trace := s.trace }

/-- One choice of the schedule. An agent that has no step in this state changes nothing (R83, R104, R221). -/
def runAct (a : Act) (s : State) : Host.Outcome State Fault Refusal :=
  match a with
  | .present _ w => .next { s with port := s.port ++ [w] }
  | .accept n => acceptNth n s
  | .draw d => .next { s with draw := d }
  | .disp live => .next (dispStep live s)
  | .grp => .next (grpStep s)
  | .sm eligible => .next (smStep eligible s)
  | .cbRet => callbackReturn s
  | .envPin pin v => .next (envPin pin v s)
  | .envWake w0 w1 => .next (envWake w0 w1 s)
  | .reset d => .next (externalReset d s)

/-- The next choice of the schedule; with none left, no agent steps and the block waits (R322). -/
def runSchedule (s : State) : Host.Outcome State Fault Refusal :=
  match s.sched with
  | [] => .next s
  | a :: rest => runAct a { s with sched := rest }

/-- The command word that `nbits` bits `w` stand for, the bits above them zero. -/
def commandOfBits (nbits w : Nat) : Command := BitVec.ofNat 64 (w % 2 ^ nbits)

/-- The word is presented first at the port, and the port is the next to step. -/
def placeCommand (w : Command) (s : State) : State :=
  { s with port := w :: s.port, sched := .accept 0 :: s.sched }

end Sys2Proof.Machine
end

