-- ==== Sys2Proof/Machine/Step.lean ====
section
/-! DEFINITION. The step of the machine, and where a command word is placed so that the next step takes it up. -/

namespace Sys2Proof.Machine

/-- One step: an ill-formed configuration is refused (R11), otherwise the next choice of the schedule is carried out. -/
def step (s : State) : Host.Outcome State Fault Refusal :=
  if s.cfg.wf then runSchedule s else .refused .illFormedConfig

/-- `s` with the command word placed so that the very next step takes it up and runs it. The block fetches nothing
(R45, R88): this stands for an agent that presents the word and a port that takes it up next (notes/assumptions/3.md). -/
def State.withFetchWord (s : State) (nbits w : Nat) : State := placeCommand (commandOfBits nbits w) s

end Sys2Proof.Machine
end

