-- ==== Sys2Proof/Safety.lean ====
section
/-! DEFINITION. What claims speak of: the invariant of the state, quiescence (R342), what each outside party may do (R343), runs of one engine with no other agent, and the whole algorithms of R187, R227, R228, R252 and R260 that those runs are compared with. -/

namespace Sys2Proof.Safety

open Sys2Proof.Machine

/-! ## The invariant -/

/-- R44, R335: no saved word has the pending bit set. -/
def snapshotClean (s : State) : Bool :=
  s.snap.all fun o => match o with
    | none => true
    | some w => w &&& s.cfg.pendingBit == 0#32

/-- R44: one slot per pin. -/
def snapshotShaped (s : State) : Bool := s.snap.length == s.cfg.npins

/-- R46, R54, R217: while the sequencer is busy `k` and `i` are in range; a callback is outstanding, or its pin is re-read,
only for an existing pin; the phases only `HW` context reaches are reached in it alone. -/
def dispInRange (s : State) : Bool :=
  match s.disp.phase with
  | .idle => true
  | .status | .next | .read => decide (s.disp.k ≤ 45) && decide (s.disp.i ≤ 3)
  | .cbwait | .reread =>
    decide (s.disp.k ≤ 45) && decide (s.disp.i ≤ 3) && decide (s.disp.pin < s.cfg.npins) && decide (s.disp.ctx = .hw)
  | .eoi => decide (s.disp.k ≤ 45) && decide (s.disp.i ≤ 3) && decide (s.disp.ctx = .hw)

/-- R47: the index of the group sequencer is within its list. -/
def grpInRange (s : State) : Bool :=
  match s.grp.phase with
  | .idle => true
  | .run => decide (s.grp.j ≤ s.grp.list.length)

/-- R48: `sm.pin` is in 0 to `NPINS`. -/
def smInRange (s : State) : Bool :=
  match s.sm.phase with
  | .idle => true
  | .save | .rest => decide (s.sm.pin ≤ s.cfg.npins)

/-- The invariant every step keeps: a well-formed configuration, the shape of the two register files, the lock free
between steps (R80, R82), a clean snapshot and sequencers in range. -/
def inv (s : State) : Bool :=
  s.cfg.wf && Memory.wf s && snapshotShaped s && decide (s.lock = .free) && snapshotClean s && dispInRange s
  && grpInRange s && smInRange s

/-! ## Quiescence and the outside parties -/

/-- R342: every sequencer idle, the lock free, no command waiting (and so no callback outstanding, R54). -/
def quiescent (s : State) : Bool :=
  decide (s.disp.phase = .idle) && decide (s.grp.phase = .idle) && decide (s.sm.phase = .idle)
  && decide (s.lock = .free) && s.port.isEmpty

/-- The word is a `DISPATCH` with `irq >= 0`. -/
def isHwDispatch (w : Command) : Bool :=
  match decode w with
  | .ok (.dispatchHw _) => true
  | _ => false

/-- R343: what an outside party may do in this state. The block does not check it (R304). -/
def actAllowed (s : State) : Act → Bool
  | .present .host _ => true
  | .present .irqsrc w => isHwDispatch w
  | .present .cb _ => decide (s.disp.phase = .cbwait)
  | .accept _ | .draw _ | .disp _ | .grp | .sm _ => true
  | .cbRet => decide (s.disp.phase = .cbwait)
  | .envPin _ _ | .envWake _ _ | .reset _ => true

/-- The choice is a step of `ENV` or the external reset: the only ones that change bits software cannot (R56, R343). -/
def isOutside : Act → Bool
  | .envPin _ _ | .envWake _ _ | .reset _ => true
  | .present _ _ | .accept _ | .draw _ | .disp _ | .grp | .sm _ | .cbRet => false

/-- The command is answered in the step that accepts it (R104). -/
def singleStep : Instr → Bool
  | .readPin _ | .writePin _ _ | .readWakeStatus | .readMaster | .writeMaster _ => true
  | .getDebounce _ | .getPullDown _ | .getPullUp _ | .getDriveStrength _ => true
  | .getOther00 _ | .getOther05 _ | .getOther06to07 _ _ | .getOther08to0F _ _ => true
  | .getOther10to1F _ _ | .getOther20to3F _ _ | .getOther40to7F _ _ | .getOther80toFF _ _ => true
  | .setDebounce _ _ | .setPullDown _ _ | .setPullUp _ _ | .setDriveStrength _ _ => true
  | .setOther00 _ _ | .setOther05 _ _ | .setOther06to07 _ _ _ | .setOther08to0F _ _ _ => true
  | .setOther10to1F _ _ _ | .setOther20to3F _ _ _ | .setOther40to7F _ _ _ | .setOther80toFF _ _ _ => true
  | .setConfigGroup _ _ _ | .dispatchHw _ | .dispatchQuery _ | .enterSuspend | .enterHibernate | .restore => false

/-- The address of the register a single-step command may store to, as its meaning computes it; `none` for a command
that stores nothing. The stored bytes are the four from that address on. -/
def storedAddress (c : Config) : Instr → Option Nat
  | .writePin pin _ => some (pinAddress c pin.toNat)
  | .setDebounce pin _ | .setPullDown pin _ | .setPullUp pin _ | .setDriveStrength pin _ =>
    some (pinAddress c pin.toNat)
  | .writeMaster _ => some (masterAddress c)
  | .readPin _ | .readWakeStatus | .readMaster => none
  | .getDebounce _ | .getPullDown _ | .getPullUp _ | .getDriveStrength _ => none
  | .getOther00 _ | .getOther05 _ | .getOther06to07 _ _ | .getOther08to0F _ _ => none
  | .getOther10to1F _ _ | .getOther20to3F _ _ | .getOther40to7F _ _ | .getOther80toFF _ _ => none
  | .setOther00 _ _ | .setOther05 _ _ | .setOther06to07 _ _ _ | .setOther08to0F _ _ _ => none
  | .setOther10to1F _ _ _ | .setOther20to3F _ _ _ | .setOther40to7F _ _ _ | .setOther80toFF _ _ _ => none
  | .setConfigGroup _ _ _ | .dispatchHw _ | .dispatchQuery _ | .enterSuspend | .enterHibernate | .restore => none

/-! ## Runs -/

/-- One step of the machine that carries out the given choice now; the schedule is as it was afterwards. -/
def drive (a : Act) (s : State) : Host.Outcome State Fault Refusal := step { s with sched := a :: s.sched }

/-- At most `n` steps, each the chosen one, for as long as the engine is busy. No other agent steps in between. -/
def runWhile (busy : State → Bool) (choose : State → Act) : Nat → State → Host.Outcome State Fault Refusal
  | 0, s => .next s
  | n + 1, s =>
    if busy s then
      match drive (choose s) s with
      | .next t => runWhile busy choose n t
      | o => o
    else .next s

/-- A dispatch pass run alone: the sequencer steps, a callback returns at once having done nothing, and `live p` is
the answer for pin `p`. -/
def runPass (live : Nat → Bool) : Nat → State → Host.Outcome State Fault Refusal :=
  runWhile (fun s => decide (s.disp.phase ≠ .idle))
    fun s => if s.disp.phase = .cbwait then .cbRet else .disp (live s.disp.pin)

/-- `SET_CONFIG_GROUP` run alone. -/
def runGroup : Nat → State → Host.Outcome State Fault Refusal :=
  runWhile (fun s => decide (s.grp.phase ≠ .idle)) fun _ => .grp

/-- `ENTER` or `RESTORE` run alone; `eligible p` is the answer for pin `p`. -/
def runManager (eligible : Nat → Bool) : Nat → State → Host.Outcome State Fault Refusal :=
  runWhile (fun s => decide (s.sm.phase ≠ .idle)) fun s => .sm (eligible s.sm.pin)

/-! ## The whole algorithms -/

/-- The four pins of group `k`, ascending (R223). -/
def pinsOfGroup (k : Nat) : List Nat := [4 * k, 4 * k + 1, 4 * k + 2, 4 * k + 3]

/-- The pins of the flagged groups in the order a pass visits them (R214, R293). -/
def flaggedPins (s : State) : List Nat :=
  ((List.range 46).filter fun k => s.wakeBitmap.getLsbD k).flatMap pinsOfGroup

/-- The body of R227's loop for one pin. -/
def hwVisit (live : Nat → Bool) (s : State) (p : Nat) : State :=
  if s.cfg.npins ≤ p then s
  else
    let v := s.x p
    let s1 := if anySet v s.cfg.pendingBit then s.emit (.diagActive p) else s
    if anySet v s.cfg.pendingBit && anySet v s.cfg.intMaskBit then
      let s2 := (s1.emit (.cbCall p)).emit .cbRet
      if live p then ({ s2 with disp := { s2.disp with handled := true } }).storePin p v
      else s2.storePin p (v &&& ~~~s2.cfg.intMaskBit)
    else s1

/-- R227: a hardware-interrupt pass. -/
def hwPass (live : Nat → Bool) (s : State) : State :=
  let t := (flaggedPins s).foldl (hwVisit live) { s with disp := { s.disp with handled := false } }
  (t.storeMaster (t.master ||| t.cfg.eoiBit)).respond .disp .ok (boolResult t.disp.handled)

/-- The loop of R228 over the pins still to visit: the first wake-status bit ends the pass. -/
def queryWalk : List Nat → State → State
  | [], s => s.respond .disp .ok 0
  | p :: rest, s =>
    if s.cfg.npins ≤ p then queryWalk rest s
    else
      let s1 := if anySet (s.x p) s.cfg.pendingBit then s.emit (.diagActive p) else s
      if anySet (s.x p) s.cfg.wakeStsBit then s1.respond .disp .ok 1 else queryWalk rest s1

/-- R228: a query pass. -/
def queryPass (s : State) : State := queryWalk (flaggedPins s) s

/-- R187: the settings of a group's pins in list order, the first failure ending it without undoing anything. -/
def groupWalk (param : ParamByte) (value : Word) : List Nat → State → State
  | [], s => s.respond .grp .ok 0
  | p :: rest, s =>
    match setConfig p param value s with
    | none => s
    | some (st, t) => if st = .ok then groupWalk param value rest t else t.respond .grp st 0

/-- What `ENTER` leaves in the register of an eligible pin that held `v` (R257). -/
def savedLive (c : Config) (mode : Mode) (v : Word) : Word :=
  let kept := v &&& ~~~c.pendingBit
  let masked := if anySet kept (wakeMask c mode) then v else v &&& ~~~c.intMaskBit
  if anySet kept c.dbCntField then masked &&& ~~~c.dbCntField else masked

/-- The events `ENTER` emits for an eligible pin that held `v`, in order (R252). -/
def savedEvents (c : Config) (mode : Mode) (p : Nat) (v : Word) : List PortEvent :=
  let kept := v &&& ~~~c.pendingBit
  (if anySet kept (wakeMask c mode) then [] else [.diagNonwakeMasked p mode])
  ++ (if anySet kept c.dbCntField then [.diagDebounceCleared p] else [])

/-- `ENTER` as a whole (R252): each pin in turn, then the response. -/
def enterPass (mode : Mode) (eligible : Nat → Bool) (s : State) : State :=
  let pin (s : State) (p : Nat) : State :=
    if eligible p then
      { s with
        snap := s.snap.set p (some (s.x p &&& ~~~s.cfg.pendingBit))
        pins := s.pins.set p (savedLive s.cfg mode (s.x p))
        trace := s.trace ++ savedEvents s.cfg mode p (s.x p) }
    else s
  ((List.range s.cfg.npins).foldl pin s).respond .sm .ok 0

/-- `RESTORE` as a whole (R260): each eligible pin with a saved word gets it back, then the response. -/
def restorePass (eligible : Nat → Bool) (s : State) : State :=
  let pin (s : State) (p : Nat) : State :=
    if eligible p then
      match s.slot p with
      | none => s
      | some w => { s with pins := s.pins.set p (hwMerge s.cfg.roMask (s.x p) w) }
    else s
  ((List.range s.cfg.npins).foldl pin s).respond .sm .ok 0

end Sys2Proof.Safety
end

