-- ==== Sys2Proof/Certificates/Slice0/Obligations.lean ====
section
/-! DEFINITION. The statements for the provers, from the spec's numbered rules. "The spec's decision D<n>" names a row of spec/92_eei_decisions.md that a clause rests on. -/

open Sys2Proof Sys2Proof.Machine Sys2Proof.Safety

/-! ## Encoding (30_encoding.md) -/

/-- R101, R102, R110, R114: the command word of every well-formed instruction, with every operand at every value its
field admits, decodes to that instruction (the spec's decisions D11, D12). -/
def Obligations.DecodeOfEncodeIsTheInstruction : Prop :=
  ∀ i : Instr, i.wellFormed = true → decode (encode i) = .ok i

/-- R114: a word that decodes is the word of its instruction, and that instruction is well formed: no bit of a legal
word is dropped (D11, D12). -/
def Obligations.EncodeOfDecodeIsTheWord : Prop :=
  ∀ (w : Command) (i : Instr), decode w = .ok i → encode i = w ∧ i.wellFormed = true

/-- R110 to R112, R114 against the opcode table's own match and mask form: a row matches a word exactly when the word
decodes to an instruction of that row, and every instruction's row is in the table; so a legal word matches one row and a
word that matches no row is illegal (D11, D12). -/
def Obligations.OpcodeRowsMatchExactlyTheirWords : Prop :=
  (∀ (w : Command), ∀ r ∈ opcodeTable, r.matches w = true ↔ ∃ i, decode w = .ok i ∧ i.row = r)
  ∧ ∀ i : Instr, i.row ∈ opcodeTable

/-- R118: the worked encodings, written out, decode to what the spec says they stand for, and its two illegal words
are illegal. -/
def Obligations.WorkedEncodingsDecode : Prop :=
  decode 0x0100000500000000#64 = .ok (.readPin 5)
  ∧ decode 0x0200000500000400#64 = .ok (.writePin 5 0x400)
  ∧ decode 0x0300000000000000#64 = .ok .readWakeStatus
  ∧ decode 0x0400000000000000#64 = .ok .readMaster
  ∧ decode 0x0500000000000002#64 = .ok (.writeMaster 2)
  ∧ decode 0x1004000500000000#64 = .ok (.getDriveStrength 5)
  ∧ decode 0x11010005000003E8#64 = .ok (.setDebounce 5 1000)
  ∧ decode 0x1203000200000001#64 = .ok (.setConfigGroup 2 0x03 1)
  ∧ decode 0x2000000000000000#64 = .ok (.dispatchHw 0)
  ∧ decode 0x20000000FFFFFFFF#64 = .ok (.dispatchQuery 0xFFFFFFFF)
  ∧ decode 0x3000000000000000#64 = .ok .enterSuspend
  ∧ decode 0x3001000000000000#64 = .ok .enterHibernate
  ∧ decode 0x3100000000000000#64 = .ok .restore
  ∧ decode 0x0000000000000000#64 = .error (.reservedOpcode 0x00)
  ∧ decode 0x0301000000000000#64 = .error .paramNotZero

/-! ## The step -/

/-- R100, R104: when the port takes up its `n`-th waiting word and the word decodes to `i`, the step is `exec i` on
the state whose port no longer holds the word; and `withFetchWord` places a word so that the next step does so (the
model's own convention, notes/assumptions/3.md). -/
def Obligations.StepRunsTheDecodedInstruction : Prop :=
  (∀ (s : State) (n : Nat) (w : Command) (i : Instr) (rest : List Act),
    s.cfg.wf = true → s.sched = .accept n :: rest → s.port[n]? = some w → decode w = .ok i →
      step s = exec i { s with sched := rest, port := s.port.eraseIdx n })
  ∧ ∀ (s : State) (nbits w : Nat) (i : Instr), s.cfg.wf = true → decodeTableWord nbits w = some i →
      step (s.withFetchWord nbits w) = exec i s

/-- R111, R112 (D12): an illegal word is answered `BadCommand` with `RDATA = 0`, whatever the lock and the sequencers
hold, and nothing else changes. -/
def Obligations.IllegalWordAnsweredBadCommand : Prop :=
  ∀ (s : State) (n : Nat) (w : Command) (e : DecodeError) (rest : List Act),
    s.cfg.wf = true → s.sched = .accept n :: rest → s.port[n]? = some w → decode w = .error e →
      step s = .next { s with
        sched := rest
        port := s.port.eraseIdx n
        trace := s.trace ++ [.response .port .badCommand 0] }

/-- R9, R11, R13, R14, R15, V13: a model refuses an ill-formed configuration. That a configuration whose `RO_MASK` holds a
bit beside the pending, wake-status and two wake-source bits is ill-formed too is the model's choice
(notes/assumptions/6.md). -/
def Obligations.IllFormedConfigurationRefused : Prop :=
  ∀ s : State, s.cfg.wf = false → step s = .refused .illFormedConfig

/-- R44, R46 to R48, R54, R80, R82, R335 (the model's statement of them): every step from a state of the invariant that
answers a next state keeps it. The invariant: a well-formed configuration, one word and one slot per pin, the lock free
between steps, no pending bit in the snapshot, each sequencer's position in range. -/
def Obligations.StepKeepsTheInvariant : Prop :=
  ∀ s t : State, inv s = true → step s = .next t → inv t = true

/-- The reset state of every well-formed configuration, with any draw of what reset leaves unspecified, has the
invariant; so does `State.reset`. -/
def Obligations.ResetHasTheInvariant : Prop :=
  (∀ (c : Config) (d : ResetDraw), c.wf = true → inv (State.resetWith c d) = true) ∧ inv State.reset = true

/-- R57 to R59, R320, R323 (D28, D29): an external reset clears every writable bit, leaves the read-only bits and the
wake-status words as drawn, clears `MASTER`, empties the snapshot, frees the lock, idles the sequencers, forgets the
waiting commands and an outstanding callback, and answers nothing. That the free values, the schedule and the past
events stay is the model's choice (notes/assumptions/21.md). -/
def Obligations.ExternalResetReachesTheResetState : Prop :=
  ∀ (s : State) (d : ResetDraw), s.cfg.wf = true → ∃ t, drive (.reset d) s = .next t ∧ quiescent t = true
    ∧ (∀ i < s.cfg.npins, t.x i &&& ~~~s.cfg.roMask = 0#32 ∧ t.x i &&& s.cfg.roMask = d.pins.getD i 0 &&& s.cfg.roMask)
    ∧ t.pins.length = s.cfg.npins ∧ t.master = 0#32 ∧ t.wsts0 = d.wsts0 ∧ t.wsts1 = d.wsts1
    ∧ t.snap = List.replicate s.cfg.npins none ∧ t.lock = .free ∧ t.disp.handled = false ∧ t.port = []
    ∧ t.cfg = s.cfg ∧ t.draw = s.draw ∧ t.sched = s.sched ∧ t.trace = s.trace

/-- R287, R343: "There are no fatal conditions inside this core": whatever the outside parties do of what R343 allows
them, the step answers a next state. -/
def Obligations.AllowedActsNeverStop : Prop :=
  ∀ (s : State) (a : Act) (rest : List Act), s.cfg.wf = true → s.sched = a :: rest → actAllowed s a = true →
    ∃ t, step s = .next t

/-! ## Registers and bit fields (20_memory.md, 40_register_bank.md) -/

/-- R76 (D4): a software write keeps every bit in `RO_MASK` and replaces every other bit. -/
def Obligations.WriteMergeKeepsReadOnlyBits : Prop :=
  ∀ (roMask old new : Word) (j : Nat),
    (hwMerge roMask old new).getLsbD j = if roMask.getLsbD j then old.getLsbD j else new.getLsbD j

/-- R147 (D13): the three laws of the bit fields, for fields that lie inside the word. -/
def Obligations.BitFieldLaws : Prop :=
  (∀ (w v mask : Word) (off : Nat), fieldFits (off, mask) = true →
    fieldGet (fieldSet w off mask v) off mask = v &&& mask)
  ∧ (∀ (w mask : Word) (off : Nat), fieldSet w off mask (fieldGet w off mask) = w)
  ∧ ∀ (w v mask mask' : Word) (off off' : Nat), fieldFits (off', mask') = true →
    (mask <<< off) &&& (mask' <<< off') = 0#32 →
      fieldGet (fieldSet w off mask v) off' mask' = fieldGet w off' mask'

/-- R71, R72, R74, R75 (D6, D10): what every address of the register space reads as, and which accesses are refused. -/
def Obligations.RegisterSpaceReads : Prop :=
  ∀ s : State, s.cfg.wf = true →
    (∀ i < s.cfg.npins, memRead (s.cfg.base + 4 * i) 4 s = .ok (s.x i))
    ∧ memRead (s.cfg.base + s.cfg.wakeSts0Off) 4 s = .ok s.wsts0
    ∧ memRead (s.cfg.base + s.cfg.wakeSts1Off) 4 s = .ok s.wsts1
    ∧ memRead (s.cfg.base + s.cfg.masterOff) 4 s = .ok s.master
    ∧ (∀ a n, n ≠ 4 ∨ a % 4 ≠ 0 → memRead a n s = .error .badAccess)
    ∧ ∀ a, a % 4 = 0 → (∀ i < s.cfg.npins, a ≠ s.cfg.base + 4 * i) → a ≠ s.cfg.base + s.cfg.wakeSts0Off →
        a ≠ s.cfg.base + s.cfg.wakeSts1Off → a ≠ s.cfg.base + s.cfg.masterOff →
          memRead a 4 s = .error .unmappedAddress

/-- R71, R73 to R76 (D4, D8, D9, D10): what a write does at every address of the register space: merged into a pin
register, ignored at a wake-status word, stored whole in `MASTER` with `EOI_WRITTEN` when the EOI bit is set, refused
elsewhere. -/
def Obligations.RegisterSpaceWrites : Prop :=
  ∀ (s : State) (v : Word), s.cfg.wf = true →
    (∀ i < s.cfg.npins, memWrite (s.cfg.base + 4 * i) 4 v s = .ok { s with
        pins := s.pins.set i ((s.x i &&& s.cfg.roMask) ||| (v &&& ~~~s.cfg.roMask)) })
    ∧ memWrite (s.cfg.base + s.cfg.wakeSts0Off) 4 v s = .ok s
    ∧ memWrite (s.cfg.base + s.cfg.wakeSts1Off) 4 v s = .ok s
    ∧ memWrite (s.cfg.base + s.cfg.masterOff) 4 v s = .ok { s with
        master := v
        trace := s.trace ++ if v &&& s.cfg.eoiBit ≠ 0#32 then [.eoiWritten] else [] }
    ∧ (∀ a n, n ≠ 4 ∨ a % 4 ≠ 0 → memWrite a n v s = .error .badAccess)
    ∧ ∀ a, a % 4 = 0 → (∀ i < s.cfg.npins, a ≠ s.cfg.base + 4 * i) → a ≠ s.cfg.base + s.cfg.wakeSts0Off →
        a ≠ s.cfg.base + s.cfg.wakeSts1Off → a ≠ s.cfg.base + s.cfg.masterOff →
          memWrite a 4 v s = .error .unmappedAddress

/-- R141: `READ_PIN` as a whole: its encoding, `NotFound` past the last pin before any access, and otherwise the whole
word of the pin, nothing else changed. -/
def Obligations.ReadPinAnswersTheWholeWord : Prop :=
  ∀ (s : State) (pin : Selector), s.cfg.wf = true →
    encode (.readPin pin) = packWord 0x01#8 0#8 pin 0#32
    ∧ (s.cfg.npins ≤ pin.toNat →
        exec (.readPin pin) s = .next { s with trace := s.trace ++ [.response .port .notFound 0] })
    ∧ (pin.toNat < s.cfg.npins → s.lock = .free →
        exec (.readPin pin) s = .next { s with
          trace := s.trace ++ [.response .port .ok ((s.x pin.toNat).setWidth 64)] })

/-- R142: `WRITE_PIN` as a whole: its encoding, `NotFound`, and otherwise the merge of the data into the one register. -/
def Obligations.WritePinMergesTheData : Prop :=
  ∀ (s : State) (pin : Selector) (data : Word), s.cfg.wf = true →
    encode (.writePin pin data) = packWord 0x02#8 0#8 pin data
    ∧ (s.cfg.npins ≤ pin.toNat →
        exec (.writePin pin data) s = .next { s with trace := s.trace ++ [.response .port .notFound 0] })
    ∧ (pin.toNat < s.cfg.npins → s.lock = .free →
        exec (.writePin pin data) s = .next { s with
          pins := s.pins.set pin.toNat ((s.x pin.toNat &&& s.cfg.roMask) ||| (data &&& ~~~s.cfg.roMask))
          trace := s.trace ++ [.response .port .ok 0] })

/-- R143, R103 (D7, D11): `READ_WAKE_STATUS` answers both words, not masked, and changes nothing. -/
def Obligations.ReadWakeStatusAnswersBothWords : Prop :=
  ∀ s : State, s.cfg.wf = true → s.lock = .free →
    encode .readWakeStatus = packWord 0x03#8 0#8 0#16 0#32
    ∧ exec .readWakeStatus s = .next { s with
        trace := s.trace ++ [.response .port .ok (BitVec.ofNat 64 (s.wsts1.toNat * 2 ^ 32 + s.wsts0.toNat))] }

/-- R144: `READ_MASTER` answers the master register and changes nothing. -/
def Obligations.ReadMasterAnswersTheWord : Prop :=
  ∀ s : State, s.cfg.wf = true → s.lock = .free →
    encode .readMaster = packWord 0x04#8 0#8 0#16 0#32
    ∧ exec .readMaster s = .next { s with trace := s.trace ++ [.response .port .ok (s.master.setWidth 64)] }

/-- R145: `WRITE_MASTER` stores every bit and emits `EOI_WRITTEN` exactly when the data has the EOI bit. -/
def Obligations.WriteMasterStoresEveryBit : Prop :=
  ∀ (s : State) (data : Word), s.cfg.wf = true → s.lock = .free →
    encode (.writeMaster data) = packWord 0x05#8 0#8 0#16 data
    ∧ exec (.writeMaster data) s = .next { s with
        master := data
        trace := s.trace ++ (if data &&& s.cfg.eoiBit ≠ 0#32 then [.eoiWritten] else []) ++ [.response .port .ok 0] }

/-! ## The codec (41_config_codec.md) -/

/-- R172 (D17): `GET_CONFIG(Debounce)` answers the raw count field in ticks, packed with its tag; R171 (D18): `NotFound`
first. -/
def Obligations.GetDebounceAnswersTheRawCount : Prop :=
  ∀ (s : State) (pin : Selector),
    (s.cfg.npins ≤ pin.toNat →
      exec (.getDebounce pin) s = .next { s with trace := s.trace ++ [.response .port .notFound 0] })
    ∧ (pin.toNat < s.cfg.npins → s.lock = .free →
      exec (.getDebounce pin) s = .next { s with trace := s.trace ++ [.response .port .ok
        (pack 0x01#8 ((s.x pin.toNat >>> s.cfg.dbCntOff) &&& s.cfg.dbCntMask))] })

/-- R171, R173 to R175, R109 (D11, D18): `GET_CONFIG` of the pulls and the drive strength: `NotFound` past the last pin,
otherwise the field packed with its tag, nothing else changed; a pull's value is 0 or 1, the drive strength's 0 to 7. -/
def Obligations.GetConfigAnswersThePackedField : Prop :=
  ∀ (s : State) (pin : Selector), s.cfg.wf = true →
    (s.cfg.npins ≤ pin.toNat → ∀ i ∈ [Instr.getPullDown pin, .getPullUp pin, .getDriveStrength pin],
      exec i s = .next { s with trace := s.trace ++ [.response .port .notFound 0] })
    ∧ (pin.toNat < s.cfg.npins → s.lock = .free →
      exec (.getPullDown pin) s = .next { s with trace := s.trace ++ [.response .port .ok
        (pack 0x02#8 ((s.x pin.toNat >>> s.cfg.pullDownOff) &&& 1#32))] }
      ∧ exec (.getPullUp pin) s = .next { s with trace := s.trace ++ [.response .port .ok
        (pack 0x03#8 ((s.x pin.toNat >>> s.cfg.pullUpOff) &&& 1#32))] }
      ∧ exec (.getDriveStrength pin) s = .next { s with trace := s.trace ++ [.response .port .ok
        (pack 0x04#8 ((s.x pin.toNat >>> s.cfg.drvOff) &&& s.cfg.drvMask))] })
    ∧ ((s.x pin.toNat >>> s.cfg.pullDownOff) &&& 1#32).toNat ≤ 1
    ∧ ((s.x pin.toNat >>> s.cfg.pullUpOff) &&& 1#32).toNat ≤ 1
    ∧ ((s.x pin.toNat >>> s.cfg.drvOff) &&& s.cfg.drvMask).toNat ≤ 7

/-- R182: `GET_CONFIG` of an unknown parameter answers `NotFound` past the last pin and `NotSupported` otherwise,
whatever the lock holds, and touches nothing. -/
def Obligations.UnknownGetParameterTouchesNothing : Prop :=
  ∀ (s : State) (pin : Selector) (param : ParamByte),
    ∀ i ∈ [Instr.getOther00 pin, .getOther05 pin, .getOther06to07 pin param, .getOther08to0F pin param,
        .getOther10to1F pin param, .getOther20to3F pin param, .getOther40to7F pin param, .getOther80toFF pin param],
      exec i s = .next { s with trace := s.trace ++
        [.response .port (if pin.toNat < s.cfg.npins then .notSupported else .notFound) 0] }

/-- R183: the same of `SET_CONFIG`: "do not touch hardware". -/
def Obligations.UnknownSetParameterTouchesNothing : Prop :=
  ∀ (s : State) (pin : Selector) (param : ParamByte) (value : Word),
    ∀ i ∈ [Instr.setOther00 pin value, .setOther05 pin value, .setOther06to07 pin param value,
        .setOther08to0F pin param value, .setOther10to1F pin param value, .setOther20to3F pin param value,
        .setOther40to7F pin param value, .setOther80toFF pin param value],
      exec i s = .next { s with trace := s.trace ++
        [.response .port (if pin.toNat < s.cfg.npins then .notSupported else .notFound) 0] }

/-- R171, R179, R180 (D18): `SET_CONFIG` of a pull: `NotFound` past the last pin, otherwise the one bit of the one
register is driven to 0 for the value 0 and to 1 for every other value; every other bit of the word, the read-only ones
included, stays. -/
def Obligations.SetPullDrivesTheOneBit : Prop :=
  ∀ (s : State) (pin : Selector) (value : Word), s.cfg.wf = true →
    (s.cfg.npins ≤ pin.toNat → ∀ i ∈ [Instr.setPullDown pin value, .setPullUp pin value],
      exec i s = .next { s with trace := s.trace ++ [.response .port .notFound 0] })
    ∧ (pin.toNat < s.cfg.npins → s.lock = .free →
      exec (.setPullDown pin value) s = .next { s with
        pins := s.pins.set pin.toNat (if value = 0#32 then s.x pin.toNat &&& ~~~s.cfg.pullDownBit
          else s.x pin.toNat ||| s.cfg.pullDownBit)
        trace := s.trace ++ [.response .port .ok 0] }
      ∧ exec (.setPullUp pin value) s = .next { s with
        pins := s.pins.set pin.toNat (if value = 0#32 then s.x pin.toNat &&& ~~~s.cfg.pullUpBit
          else s.x pin.toNat ||| s.cfg.pullUpBit)
        trace := s.trace ++ [.response .port .ok 0] })

/-- R171, R181 (D18): `SET_CONFIG(DriveStrength)`: `NotFound` past the last pin, otherwise the low 3 bits of the value
replace the field, every other bit stays, and the answer is `Ok`. -/
def Obligations.SetDriveStrengthWritesLowThreeBits : Prop :=
  ∀ (s : State) (pin : Selector) (value : Word), s.cfg.wf = true →
    (s.cfg.npins ≤ pin.toNat →
      exec (.setDriveStrength pin value) s = .next { s with trace := s.trace ++ [.response .port .notFound 0] })
    ∧ (pin.toNat < s.cfg.npins → s.lock = .free →
      exec (.setDriveStrength pin value) s = .next { s with
        pins := s.pins.set pin.toNat
          ((s.x pin.toNat &&& ~~~(0x7#32 <<< s.cfg.drvOff)) ||| ((value &&& 0x7#32) <<< s.cfg.drvOff))
        trace := s.trace ++ [.response .port .ok 0] })

/-- R176, R177 (D14, D15, D16): `SET_CONFIG(Debounce)` on an existing pin: zero first, then the override, then the range
of the path the pin's unit selector chooses; the whole count field is replaced and no other bit. -/
def Obligations.SetDebounceDecidesInOrder : Prop :=
  ∀ (s : State) (pin : Selector) (value : Word), s.cfg.wf = true →
    (s.cfg.npins ≤ pin.toNat →
      exec (.setDebounce pin value) s = .next { s with trace := s.trace ++ [.response .port .notFound 0] })
    ∧ (pin.toNat < s.cfg.npins → s.lock = .free →
      let w := s.x pin.toNat
      let coarse := w &&& s.cfg.dbUnitBit ≠ 0#32
      let count := value.toNat * 1000 / (if coarse then 31250 else 15625)
      let limit := if coarse then s.cfg.dbCoarseMax else 0xFF
      exec (.setDebounce pin value) s =
        if value = 0#32 then .next { s with
          pins := s.pins.set pin.toNat (w &&& ~~~s.cfg.dbCntField)
          trace := s.trace ++ [.response .port .ok 0] }
        else if s.master &&& s.cfg.dbOverrideBit ≠ 0#32 then .next { s with
          trace := s.trace ++ [.response .port .ok 0] }
        else if limit < count then .next { s with
          trace := s.trace ++ [.response .port .invalidArgument 0] }
        else .next { s with
          pins := s.pins.set pin.toNat ((w &&& ~~~s.cfg.dbCntField) ||| (BitVec.ofNat 32 count <<< s.cfg.dbCntOff))
          trace := s.trace ++ [.response .port .ok 0] })

/-- R178 (b) to (e), R190: where the two paths' counts meet 0 and their default limits, and that the coarse count is
half the fine one. -/
def Obligations.DebounceCountsAtTheirLimits : Prop :=
  (∀ value : Word, debounceCount false value = 0 ↔ value.toNat ≤ 15)
  ∧ (∀ value : Word, debounceCount true value = 0 ↔ value.toNat ≤ 31)
  ∧ (∀ value : Word, debounceCount false value ≤ 255 ↔ value.toNat ≤ 3999)
  ∧ (∀ value : Word, debounceCount true value ≤ 4095 ↔ value.toNat ≤ 127999)
  ∧ debounceCount false 0xFFFFFFFF#32 = 274877906 ∧ debounceCount true 0xFFFFFFFF#32 = 137438953
  ∧ ∀ value : Word, debounceCount true value = debounceCount false value / 2

/-- R184: after a `SET_CONFIG` that answered `Ok`, the `GET_CONFIG` of the same parameter answers the value cut to the
field, a pull exactly 0 or 1, a debounce the count of its path (not the duration). -/
def Obligations.GetConfigReadsBackWhatWasSet : Prop :=
  ∀ (s : State) (pin : Selector) (value : Word), s.cfg.wf = true → Memory.wf s = true → s.lock = .free →
    pin.toNat < s.cfg.npins →
      (∃ t u, exec (.setDriveStrength pin value) s = .next t ∧ exec (.getDriveStrength pin) t = .next u
        ∧ u.trace = t.trace ++ [.response .port .ok (pack 0x04#8 (value &&& 0x7#32))])
      ∧ (∃ t u, exec (.setPullDown pin value) s = .next t ∧ exec (.getPullDown pin) t = .next u
        ∧ u.trace = t.trace ++ [.response .port .ok (pack 0x02#8 (if value = 0#32 then 0#32 else 1#32))])
      ∧ (∃ t u, exec (.setPullUp pin value) s = .next t ∧ exec (.getPullUp pin) t = .next u
        ∧ u.trace = t.trace ++ [.response .port .ok (pack 0x03#8 (if value = 0#32 then 0#32 else 1#32))])
      ∧ ∀ t, exec (.setDebounce pin value) s = .next t → t.trace = s.trace ++ [.response .port .ok 0] →
        value ≠ 0#32 → s.master &&& s.cfg.dbOverrideBit = 0#32 →
          ∃ u, exec (.getDebounce pin) t = .next u ∧ u.trace = t.trace ++ [.response .port .ok (pack 0x01#8
            (BitVec.ofNat 32 (debounceCount (decide (s.x pin.toNat &&& s.cfg.dbUnitBit ≠ 0#32)) value)))]

/-- R286, first sentence: a single-pin command that answers anything but `Ok` writes nothing. -/
def Obligations.FailedSinglePinCommandWritesNothing : Prop :=
  ∀ (i : Instr) (s t : State) (st : Status) (r : Rdata), s.cfg.wf = true → singleStep i = true →
    exec i s = .next t → t.trace = s.trace ++ [.response .port st r] → st ≠ .ok →
      t = { s with trace := s.trace ++ [.response .port st 0] }

/-! ## Frames of the single-step commands -/

/-- R30, R40, R56, R140, R170: what a command answered in one step leaves unchanged: every byte of the register space
outside the four bytes its meaning stores to (all of it for a command that stores nothing), the snapshot, the three
sequencers, the flag with them, the wake-status words, the lock, the configuration. -/
def Obligations.SingleStepCommandFrame : Prop :=
  ∀ (i : Instr) (s t : State), s.cfg.wf = true → singleStep i = true → exec i s = .next t →
    (∀ a, (∀ b, storedAddress s.cfg i = some b → ¬ (b ≤ a ∧ a < b + 4)) → t.byteAt a = s.byteAt a)
    ∧ t.wsts0 = s.wsts0 ∧ t.wsts1 = s.wsts1 ∧ t.snap = s.snap ∧ t.lock = s.lock ∧ t.disp = s.disp ∧ t.grp = s.grp
    ∧ t.sm = s.sm ∧ t.cfg = s.cfg ∧ t.sched = s.sched
    ∧ ((∀ data, i ≠ .writeMaster data) → t.master = s.master)
    ∧ ∀ p, (∀ b, storedAddress s.cfg i = some b → b ≠ pinAddress s.cfg p) → t.x p = s.x p

/-- R188, R212, R251, R260: the acceptance of a multi-step command leaves every register, the snapshot, the lock and the
other two sequencers as they were. -/
def Obligations.AcceptanceFrame : Prop :=
  ∀ (i : Instr) (s t : State), singleStep i = false → exec i s = .next t →
    (∀ a, t.byteAt a = s.byteAt a) ∧ t.pins = s.pins ∧ t.master = s.master ∧ t.wsts0 = s.wsts0 ∧ t.wsts1 = s.wsts1
    ∧ t.snap = s.snap ∧ t.lock = s.lock ∧ t.cfg = s.cfg ∧ t.sched = s.sched
    ∧ ((∀ q, i ≠ .dispatchHw q ∧ i ≠ .dispatchQuery q) → t.disp = s.disp)
    ∧ ((∀ g p v, i ≠ .setConfigGroup g p v) → t.grp = s.grp)
    ∧ (i ≠ .enterSuspend → i ≠ .enterHibernate → i ≠ .restore → t.sm = s.sm)

/-- R83, R104 (D20, D21): a command that touches a register waits at the port while the lock is held, and a multi-step
command while its sequencer is busy; nothing else changes and nothing is answered. That it waits at the end of the list is
the model's choice (notes/assumptions/12.md), and the lock is held only in states no run reaches
(notes/assumptions/11.md). -/
def Obligations.BlockedCommandWaitsAtThePort : Prop :=
  ∀ (s : State) (pin group : Selector) (param : ParamByte) (v : Word),
    (s.lock = .held → pin.toNat < s.cfg.npins →
      ∀ i ∈ [Instr.readPin pin, .writePin pin v, .readWakeStatus, .readMaster, .writeMaster v, .getDebounce pin,
          .getPullDown pin, .getPullUp pin, .getDriveStrength pin, .setDebounce pin v, .setPullDown pin v,
          .setPullUp pin v, .setDriveStrength pin v],
        exec i s = .next { s with port := s.port ++ [encode i] })
    ∧ (s.disp.phase ≠ .idle → ∀ i ∈ [Instr.dispatchHw v, .dispatchQuery v],
        exec i s = .next { s with port := s.port ++ [encode i] })
    ∧ (s.grp.phase ≠ .idle → group.toNat < s.cfg.groups.length →
        exec (.setConfigGroup group param v) s =
          .next { s with port := s.port ++ [encode (.setConfigGroup group param v)] })
    ∧ (s.sm.phase ≠ .idle → ∀ i ∈ [Instr.enterSuspend, .enterHibernate, .restore],
        exec i s = .next { s with port := s.port ++ [encode i] })

/-- R300 (D21): while a callback is outstanding the port serves every Register Bank and codec command, `ENTER` and
`RESTORE` if the state manager is idle, and `SET_CONFIG_GROUP` if the group sequencer is: the command goes on, does not
wait, and leaves the pass alone. -/
def Obligations.CommandsServedDuringTheCallback : Prop :=
  ∀ (s : State) (i : Instr), inv s = true → s.disp.phase = .cbwait →
    (∀ q, i ≠ .dispatchHw q ∧ i ≠ .dispatchQuery q) →
    (i ∈ [Instr.enterSuspend, .enterHibernate, .restore] → s.sm.phase = .idle) →
    (∀ g p v, i = .setConfigGroup g p v → s.grp.phase = .idle) →
      ∃ t, exec i s = .next t ∧ t.port = s.port ∧ t.disp = s.disp

/-! ## The group sequencer -/

/-- R188, acceptance (D38): `NotFound` for a group past the last one, whatever the lock and the sequencer hold (R104;
notes/assumptions/7.md), and otherwise, while idle, the sequencer takes the group's list. -/
def Obligations.GroupCommandAccepted : Prop :=
  ∀ (s : State) (group : Selector) (param : ParamByte) (value : Word),
    (s.cfg.groups.length ≤ group.toNat → exec (.setConfigGroup group param value) s =
      .next { s with trace := s.trace ++ [.response .port .notFound 0] })
    ∧ ∀ list, s.cfg.groups[group.toNat]? = some list → s.grp.phase = .idle →
      exec (.setConfigGroup group param value) s =
        .next { s with grp := { phase := .run, list := list, j := 0, param := param, value := value } }

/-- R188, one step (D38): at the end of the list `Ok`; an unknown parameter or a pin that does not exist ends it with
that error; otherwise the body of the pin's `SET_CONFIG` runs, which changes that pin's register alone, an error of it
ends the command, and success moves to the next entry. That an index past the end ends the command as the end does is
the model's choice (notes/assumptions/19.md). That the idle sequencer keeps its other fields at the end, which R59 and
V12 leave any value, is the model's choice (notes/assumptions/5.md). -/
def Obligations.GroupStepAppliesOnePin : Prop :=
  ∀ s : State, s.cfg.wf = true → s.grp.phase = .run → s.lock = .free →
    (s.grp.list.length ≤ s.grp.j → drive .grp s = .next { s with
      grp := { s.grp with phase := .idle }, trace := s.trace ++ [.response .grp .ok 0] })
    ∧ ∀ p, s.grp.list[s.grp.j]? = some p →
      (s.cfg.npins ≤ p → drive .grp s = .next { s with
        grp := { s.grp with phase := .idle }, trace := s.trace ++ [.response .grp .notFound 0] })
      ∧ (p < s.cfg.npins → (s.grp.param = 0x00#8 ∨ 0x05#8 ≤ s.grp.param) → drive .grp s = .next { s with
        grp := { s.grp with phase := .idle }, trace := s.trace ++ [.response .grp .notSupported 0] })
      ∧ (p < s.cfg.npins → ∀ tag, s.grp.param = ParamTag.byte tag → ∀ st t, setBody tag p s.grp.value s = (st, t) →
        t = { s with pins := t.pins } ∧ (∀ q, q ≠ p → t.x q = s.x q)
        ∧ drive .grp s = if st = .ok then .next { t with grp := { s.grp with j := s.grp.j + 1 } }
          else .next { t with grp := { s.grp with phase := .idle }, trace := s.trace ++ [.response .grp st 0] })

/-- R187 to R189, R340 (D21, D38): the whole of `SET_CONFIG_GROUP`, its encoding, and its run with no other agent in
between: accepted, it ends within one step more than its list has pins, having applied the setting to the pins in list
order up to the first failure, whose error it answers, nothing undone; an empty list answers `Ok` even with an unknown
parameter. -/
def Obligations.GroupRunAppliesPinsInOrder : Prop :=
  ∀ (s : State) (group : Selector) (param : ParamByte) (value : Word) (list : List Nat), inv s = true →
    s.grp.phase = .idle → s.cfg.groups[group.toNat]? = some list →
      encode (.setConfigGroup group param value) = packWord 0x12#8 param group value
      ∧ ∃ s' t, exec (.setConfigGroup group param value) s = .next s'
        ∧ runGroup (list.length + 1) s' = .next t ∧ t.grp.phase = .idle
        ∧ { t with grp := s.grp } = groupWalk param value list s

/-! ## The dispatch engine (42_irq_dispatch.md) -/

/-- R211, R212, R50, R59 (D21, D25): an idle sequencer accepts `DISPATCH`: the context from the sign of `irq`, the flag
cleared, the phase `STATUS`; only the sign of `irq` is used. The other fields of the sequencer are written with values in
their ranges, which no rule gives: the model draws them (notes/assumptions/5.md). -/
def Obligations.DispatchAccepted : Prop :=
  ∀ s : State, s.disp.phase = .idle → ∀ ctx : Ctx, ∃ d : Disp,
    d.phase = .status ∧ d.ctx = ctx ∧ d.handled = false ∧ d.k ≤ 45 ∧ d.i ≤ 3
    ∧ (ctx = .hw → ∀ irq : Word, irq.msb = false → exec (.dispatchHw irq) s = .next { s with disp := d })
    ∧ (ctx = .query → ∀ irq : Word, irq.msb = true → exec (.dispatchQuery irq) s = .next { s with disp := d })

/-- R213: step `STATUS` samples the bitmap once, masked to its 46 meaningful bits. -/
def Obligations.StatusStepSamplesTheBitmap : Prop :=
  ∀ (s : State) (live : Bool), s.cfg.wf = true → s.disp.phase = .status → s.lock = .free →
    ∃ work : Bitmap, (∀ k < 32, work.getLsbD k = s.wsts0.getLsbD k)
      ∧ (∀ k, 32 ≤ k → k < 46 → work.getLsbD k = s.wsts1.getLsbD (k - 32))
      ∧ drive (.disp live) s = .next { s with disp := { s.disp with phase := .next, work := work } }

/-- R214, R224: step `NEXT` takes the lowest set bit of the working copy, or ends the scan: a query pass answers
`false`, a hardware-interrupt pass goes on to its EOI. No register is touched. That the idle sequencer keeps its other
fields at the end, which R59 and V12 leave any value, is the model's choice (notes/assumptions/5.md). -/
def Obligations.NextStepTakesTheLowestGroup : Prop :=
  ∀ (s : State) (live : Bool), s.cfg.wf = true → s.disp.phase = .next →
    (s.disp.work = 0#46 → s.disp.ctx = .query → drive (.disp live) s = .next { s with
      disp := { s.disp with phase := .idle }, trace := s.trace ++ [.response .disp .ok 0] })
    ∧ (s.disp.work = 0#46 → s.disp.ctx = .hw → drive (.disp live) s = .next { s with
      disp := { s.disp with phase := .eoi } })
    ∧ ∀ k < 46, s.disp.work.getLsbD k = true → (∀ j < k, s.disp.work.getLsbD j = false) →
      ∃ work : Bitmap, (∀ j < 46, work.getLsbD j = (s.disp.work.getLsbD j && decide (j ≠ k)))
        ∧ drive (.disp live) s = .next { s with
          disp := { s.disp with phase := .read, work := work, k := k, i := 0 } }

/-- R215 to R218, R223, R226 (D2, D23, D35, D36): step `READ` in `QUERY` context: a pin past the last is passed over;
otherwise its word is read, a pending bit is reported, and the wake-status bit alone decides between answering `true`
at once and going on. No register is written. That the idle sequencer keeps its other fields at the end, which R59 and
V12 leave any value, is the model's choice (notes/assumptions/5.md). -/
def Obligations.QueryReadTestsTheWakeStatusBit : Prop :=
  ∀ (s : State) (live : Bool), s.cfg.wf = true → s.disp.phase = .read → s.disp.ctx = .query → s.lock = .free →
    let w := s.x s.disp.pin
    let active := if w &&& s.cfg.pendingBit ≠ 0#32 then [PortEvent.diagActive s.disp.pin] else []
    let onward (d : Disp) : Disp := if d.i < 3 then { d with i := d.i + 1, phase := .read } else { d with phase := .next }
    (s.cfg.npins ≤ s.disp.pin → drive (.disp live) s = .next { s with disp := onward s.disp })
    ∧ (s.disp.pin < s.cfg.npins → w &&& s.cfg.wakeStsBit ≠ 0#32 → drive (.disp live) s = .next { s with
        disp := { s.disp with v := w, phase := .idle }, trace := s.trace ++ active ++ [.response .disp .ok 1] })
    ∧ (s.disp.pin < s.cfg.npins → w &&& s.cfg.wakeStsBit = 0#32 → drive (.disp live) s = .next { s with
        disp := onward { s.disp with v := w }, trace := s.trace ++ active })

/-- R215, R216, R217, R219, R220, R223, R226, R298, R299 (D2, D22, D23, D35, D36): step `READ` in `HW` context: a pin past
the last is passed over; a pin not both pending and unmasked is skipped and not written; otherwise the callback is called
with the pin index, no register is saved or changed, and the sequencer waits. -/
def Obligations.HwReadCallsPendingUnmaskedPins : Prop :=
  ∀ (s : State) (live : Bool), s.cfg.wf = true → s.disp.phase = .read → s.disp.ctx = .hw → s.lock = .free →
    let w := s.x s.disp.pin
    let active := if w &&& s.cfg.pendingBit ≠ 0#32 then [PortEvent.diagActive s.disp.pin] else []
    let onward (d : Disp) : Disp := if d.i < 3 then { d with i := d.i + 1, phase := .read } else { d with phase := .next }
    (s.cfg.npins ≤ s.disp.pin → drive (.disp live) s = .next { s with disp := onward s.disp })
    ∧ (s.disp.pin < s.cfg.npins → (w &&& s.cfg.pendingBit = 0#32 ∨ w &&& s.cfg.intMaskBit = 0#32) →
      drive (.disp live) s = .next { s with disp := onward { s.disp with v := w }, trace := s.trace ++ active })
    ∧ (s.disp.pin < s.cfg.npins → w &&& s.cfg.pendingBit ≠ 0#32 → w &&& s.cfg.intMaskBit ≠ 0#32 →
      drive (.disp live) s = .next { s with
        disp := { s.disp with v := w, phase := .cbwait }
        trace := s.trace ++ [.diagActive s.disp.pin, .cbCall s.disp.pin] })

/-- R221, R301, R302, R334, V9 (D21, D22, D33): the sequencer has no step of its own while a callback is outstanding;
the return moves it to `REREAD` and changes no other state of the block; a return that is not asked for is refused. That
a choice of the sequencer which has no step changes nothing is the model's form of having none
(notes/assumptions/10.md), and that the return, an input, is recorded among the events is the model's choice
(notes/assumptions/14.md). -/
def Obligations.CallbackReturnMovesToReread : Prop :=
  ∀ (s : State) (live : Bool), s.cfg.wf = true →
    (s.disp.phase = .cbwait → drive .cbRet s = .next { s with
      disp := { s.disp with phase := .reread }, trace := s.trace ++ [.cbRet] })
    ∧ (s.disp.phase = .cbwait → drive (.disp live) s = .next s)
    ∧ (s.disp.phase ≠ .cbwait → drive .cbRet s = .refused .callbackReturnUnasked)

/-- R222, R223, R331 (D36): step `REREAD` uses the register as it is now, not the word of step 2a: for a pin that is not
live its mask bit is cleared, otherwise its word is kept and the flag is set; then the scan goes on. -/
def Obligations.RereadStepUsesTheLiveRegister : Prop :=
  ∀ (s : State), s.cfg.wf = true → s.disp.phase = .reread → s.lock = .free →
    let onward (d : Disp) : Disp := if d.i < 3 then { d with i := d.i + 1, phase := .read } else { d with phase := .next }
    drive (.disp true) s = .next { s with disp := onward { s.disp with handled := true } }
    ∧ drive (.disp false) s = .next { s with
        disp := onward s.disp
        pins := s.pins.set s.disp.pin (s.x s.disp.pin &&& ~~~s.cfg.intMaskBit) }

/-- R225: step `EOI` sets the EOI bit, keeps every other bit of `MASTER`, emits `EOI_WRITTEN` and answers the flag.
That the idle sequencer keeps its other fields at the end, which R59 and V12 leave any value, is the model's choice
(notes/assumptions/5.md). -/
def Obligations.EoiStepAcknowledgesAndAnswers : Prop :=
  ∀ (s : State) (live : Bool), s.cfg.wf = true → s.disp.phase = .eoi → s.lock = .free →
    drive (.disp live) s = .next { s with
      master := s.master ||| s.cfg.eoiBit
      disp := { s.disp with phase := .idle }
      trace := s.trace ++ [.eoiWritten, .response .disp .ok (if s.disp.handled then 1 else 0)] }

/-- R224: a step of a query pass writes no register and no snapshot slot, calls no callback and writes no EOI. -/
def Obligations.QueryPassWritesNoRegister : Prop :=
  ∀ (s t : State) (live : Bool) (rest : List Act), inv s = true → s.sched = .disp live :: rest →
    s.disp.ctx = .query → step s = .next t →
      t.pins = s.pins ∧ t.master = s.master ∧ t.wsts0 = s.wsts0 ∧ t.wsts1 = s.wsts1 ∧ t.snap = s.snap
      ∧ ∃ es, t.trace = s.trace ++ es ∧ PortEvent.eoiWritten ∉ es ∧ ∀ p, PortEvent.cbCall p ∉ es

/-- R50: the flag, once set, is cleared only by the acceptance of a `DISPATCH` or by reset. -/
def Obligations.HandledClearedOnlyAtAcceptance : Prop :=
  ∀ s t : State, step s = .next t → s.disp.handled = true → t.disp.handled = false →
    (∃ d rest, s.sched = .reset d :: rest)
    ∨ (s.disp.phase = .idle ∧ t.disp.phase = .status
      ∧ ∃ n rest w irq, s.sched = .accept n :: rest ∧ s.port[n]? = some w
        ∧ (decode w = .ok (.dispatchHw irq) ∨ decode w = .ok (.dispatchQuery irq)))

/-- R227, R340: the whole of a hardware-interrupt pass, run with a callback that does nothing and no other agent in
between: accepted, it ends within 601 steps, and it leaves the state of the block, its events and its answer as the
algorithm of R227 does, visiting the pins of the flagged groups in ascending order. -/
def Obligations.HwPassFollowsTheAlgorithm : Prop :=
  ∀ (s : State) (irq : Word) (live : Nat → Bool), inv s = true → s.disp.phase = .idle → irq.msb = false →
    ∃ s' t, exec (.dispatchHw irq) s = .next s' ∧ runPass live 601 s' = .next t ∧ t.disp.phase = .idle
      ∧ { t with disp := s.disp } = { hwPass live s with disp := s.disp }

/-- R228, R340: the whole of a query pass, run alone: accepted, it ends within 601 steps with the answer and the events
of the algorithm of R228, and no register changed. -/
def Obligations.QueryPassFollowsTheAlgorithm : Prop :=
  ∀ (s : State) (irq : Word) (live : Nat → Bool), inv s = true → s.disp.phase = .idle → irq.msb = true →
    ∃ s' t, exec (.dispatchQuery irq) s = .next s' ∧ runPass live 601 s' = .next t ∧ t.disp.phase = .idle
      ∧ { t with disp := s.disp } = queryPass s

/-! ## The state manager (43_state_manager.md) -/

/-- R251, R260, R59 (D21, D27): an idle sequencer accepts `ENTER` in either mode, and `RESTORE`, from pin 0 on. `RESTORE`
writes the mode with a value that no rule gives: the model draws it (notes/assumptions/5.md). `RESTORE` is modelled as the
spec's decision D27 has it (notes/assumptions/15.md). -/
def Obligations.ManagerCommandsAccepted : Prop :=
  ∀ s : State, s.sm.phase = .idle →
    exec .enterSuspend s = .next { s with sm := { phase := .save, mode := .suspend, pin := 0 } }
    ∧ exec .enterHibernate s = .next { s with sm := { phase := .save, mode := .hibernate, pin := 0 } }
    ∧ ∃ mode, exec .restore s = .next { s with sm := { phase := .rest, mode := mode, pin := 0 } }

/-- R252 to R257, R309 (D19, D23, D26): one step of `ENTER`: an eligible pin's word without its pending bit is saved;
the mask bit goes if the pin is no wake source for the mode, the count if it was not zero, every other bit stays, the
read-only ones included; the two diagnostics; a pin not eligible is passed over; after the last pin the answer is
`Ok`. That the idle sequencer keeps its other fields at the end, which R59 and V12 leave any value, is the model's
choice (notes/assumptions/5.md). -/
def Obligations.EnterStepSavesAndMasksOnePin : Prop :=
  ∀ s : State, inv s = true → s.sm.phase = .save →
    (s.sm.pin < s.cfg.npins →
      drive (.sm false) s = .next { s with sm := { s.sm with pin := s.sm.pin + 1 } }
      ∧ drive (.sm true) s = .next { s with
        sm := { s.sm with pin := s.sm.pin + 1 }
        snap := s.snap.set s.sm.pin (some (s.x s.sm.pin &&& ~~~s.cfg.pendingBit))
        pins := s.pins.set s.sm.pin (savedLive s.cfg s.sm.mode (s.x s.sm.pin))
        trace := s.trace ++ savedEvents s.cfg s.sm.mode s.sm.pin (s.x s.sm.pin) })
    ∧ (s.sm.pin = s.cfg.npins → ∀ e, drive (.sm e) s = .next { s with
        sm := { s.sm with phase := .idle }, trace := s.trace ++ [.response .sm .ok 0] })

/-- R260, R261 (D27, D29; notes/assumptions/15.md): one step of `RESTORE`: an eligible pin with a saved word gets it
back in its writable bits; an empty slot or a pin not eligible now is passed over; the snapshot stays; after the last
pin the answer is `Ok`. That the idle sequencer keeps its other fields at the end, which R59 and V12 leave any value,
is the model's choice (notes/assumptions/5.md). -/
def Obligations.RestoreStepWritesBackOnePin : Prop :=
  ∀ s : State, inv s = true → s.sm.phase = .rest →
    (s.sm.pin < s.cfg.npins →
      drive (.sm false) s = .next { s with sm := { s.sm with pin := s.sm.pin + 1 } }
      ∧ (s.slot s.sm.pin = none → drive (.sm true) s = .next { s with sm := { s.sm with pin := s.sm.pin + 1 } })
      ∧ ∀ w, s.slot s.sm.pin = some w → drive (.sm true) s = .next { s with
        sm := { s.sm with pin := s.sm.pin + 1 }
        pins := s.pins.set s.sm.pin ((s.x s.sm.pin &&& s.cfg.roMask) ||| (w &&& ~~~s.cfg.roMask)) })
    ∧ (s.sm.pin = s.cfg.npins → ∀ e, drive (.sm e) s = .next { s with
        sm := { s.sm with phase := .idle }, trace := s.trace ++ [.response .sm .ok 0] })

/-- R252, R257, R258, R340 (D19, D26): the whole of `ENTER`, run with no other agent in between: accepted, it ends
within one step more than there are pins, every eligible pin saved, masked and its debounce cleared as R257 says, in
ascending order. -/
def Obligations.EnterRunFollowsTheAlgorithm : Prop :=
  ∀ (s : State) (eligible : Nat → Bool), inv s = true → s.sm.phase = .idle →
    ∀ im ∈ [(Instr.enterSuspend, Mode.suspend), (Instr.enterHibernate, Mode.hibernate)],
      ∃ s' t, exec im.1 s = .next s' ∧ runManager eligible (s.cfg.npins + 1) s' = .next t ∧ t.sm.phase = .idle
        ∧ { t with sm := s.sm } = enterPass im.2 eligible s

/-- R260, R261, R326, R340 (D27; notes/assumptions/15.md): the whole of `RESTORE`, run with no other agent in between:
accepted, it ends within one step more than there are pins, every eligible pin with a saved word given it back. -/
def Obligations.RestoreRunFollowsTheAlgorithm : Prop :=
  ∀ (s : State) (eligible : Nat → Bool), inv s = true → s.sm.phase = .idle →
    ∃ s' t, exec .restore s = .next s' ∧ runManager eligible (s.cfg.npins + 1) s' = .next t ∧ t.sm.phase = .idle
      ∧ { t with sm := s.sm } = restorePass eligible s

/-- R262 (D27): `ENTER` in either mode followed by `RESTORE`, with `eligible` answering the same both times and no other
agent writing in between, leaves every pin register as it was before `ENTER`. It rests on the spec's decision D27, which
the model follows for `RESTORE` (notes/assumptions/15.md). -/
def Obligations.EnterThenRestoreGivesBackThePins : Prop :=
  ∀ (s : State) (eligible : Nat → Bool), inv s = true → s.sm.phase = .idle →
    ∀ enter ∈ [Instr.enterSuspend, .enterHibernate],
      ∃ s1 t1 s2 t2, exec enter s = .next s1 ∧ runManager eligible (s.cfg.npins + 1) s1 = .next t1
        ∧ exec .restore t1 = .next s2 ∧ runManager eligible (s.cfg.npins + 1) s2 = .next t2
        ∧ t2.sm.phase = .idle ∧ t2.pins = s.pins ∧ t2.snap = t1.snap ∧ t2.master = s.master

/-! ## Rules of the whole machine -/

/-- R37, R38, R41, R56, R76 (D4, D9, D24): no command and no sequencer step changes a bit in `RO_MASK` of any pin
register, nor a wake-status word: only `ENV` and reset do. -/
def Obligations.ReadOnlyBitsChangeOnlyFromOutside : Prop :=
  ∀ (s t : State) (a : Act) (rest : List Act), s.sched = a :: rest → isOutside a = false → step s = .next t →
    (∀ p, t.x p &&& s.cfg.roMask = s.x p &&& s.cfg.roMask) ∧ t.wsts0 = s.wsts0 ∧ t.wsts1 = s.wsts1

/-- R56, R343 (D24): a step of `ENV` changes only bits in `RO_MASK` and the wake-status words, and sets those to any
value. That one step writes the bits of one pin, or the two wake-status words together, is the model's choice
(notes/assumptions/22.md). -/
def Obligations.EnvChangesOnlyTheBitsItOwns : Prop :=
  ∀ (s : State) (p : Nat) (v w0 w1 : Word), s.cfg.wf = true → s.lock = .free →
    (∃ t, drive (.envPin p v) s = .next t ∧ t = { s with pins := t.pins } ∧ t.pins.length = s.pins.length
      ∧ (∀ q, t.x q &&& ~~~s.cfg.roMask = s.x q &&& ~~~s.cfg.roMask) ∧ (∀ q, q ≠ p → t.x q = s.x q)
      ∧ (p < s.pins.length → t.x p &&& s.cfg.roMask = v &&& s.cfg.roMask))
    ∧ drive (.envWake w0 w1) s = .next { s with wsts0 := w0, wsts1 := w1 }

/-- R44, R56: outside reset the snapshot changes only in a step of `ENTER`, and there only in the slot of the pin it has
reached. -/
def Obligations.SnapshotChangesOnlyInEnter : Prop :=
  ∀ s t : State, step s = .next t → t.snap ≠ s.snap →
    (∃ d rest, s.sched = .reset d :: rest)
    ∨ (∃ rest, s.sched = .sm true :: rest ∧ s.sm.phase = .save ∧ ∀ p, p ≠ s.sm.pin → t.slot p = s.slot p)

/-- R43, R56: `MASTER` changes only by `WRITE_MASTER`, by the EOI step of a hardware-interrupt pass, which only sets the
EOI bit, and by reset. -/
def Obligations.MasterChangesOnlyByWriteOrEoi : Prop :=
  ∀ s t : State, step s = .next t → t.master ≠ s.master →
    (∃ d rest, s.sched = .reset d :: rest ∧ t.master = 0#32)
    ∨ (∃ live rest, s.sched = .disp live :: rest ∧ s.disp.phase = .eoi ∧ t.master = s.master ||| s.cfg.eoiBit)
    ∨ (∃ n rest w data, s.sched = .accept n :: rest ∧ s.port[n]? = some w ∧ decode w = .ok (.writeMaster data)
      ∧ t.master = data)

/-- R263: a step of the state manager leaves `MASTER`, the wake-status words and the other two sequencers alone, and
changes no pin register but the one it has reached. -/
def Obligations.ManagerStepTouchesOnlyItsPin : Prop :=
  ∀ (s t : State) (eligible : Bool) (rest : List Act), s.sched = .sm eligible :: rest → step s = .next t →
    t.master = s.master ∧ t.wsts0 = s.wsts0 ∧ t.wsts1 = s.wsts1 ∧ t.disp = s.disp ∧ t.grp = s.grp
    ∧ t.port = s.port ∧ ∀ p, p ≠ s.sm.pin → t.x p = s.x p
end

