-- ==== Sys2Proof/Laws/Bits.lean ====
section
/-! SUPPORT. The write merge and the bit fields, bit by bit (R76, R146, R147), and what a well-formed configuration gives about them. -/

namespace Sys2Proof.Machine

/-- Each bit of a merged word comes from the old word inside the mask and from the new one outside it (R76). -/
theorem getLsbD_hwMerge (m o n : Word) (j : Nat) :
    (hwMerge m o n).getLsbD j = if m.getLsbD j then o.getLsbD j else n.getLsbD j := by
  by_cases hj : j < 32
  · by_cases hm : m.getLsbD j <;> simp [-BitVec.getLsbD_eq_getElem, hwMerge, hm, hj]
  · have hm : m.getLsbD j = false := BitVec.getLsbD_of_ge _ _ (by omega)
    have hn : n.getLsbD j = false := BitVec.getLsbD_of_ge _ _ (by omega)
    simp [hwMerge, hm, hn]

/-- A software write keeps the read-only bits (R76). -/
theorem hwMerge_and_mask (m o n : Word) : hwMerge m o n &&& m = o &&& m := by
  apply BitVec.eq_of_getLsbD_eq
  intro j hj
  by_cases hm : m.getLsbD j <;> simp [getLsbD_hwMerge, hm]

/-- A word that agrees with the register inside the mask is stored whole. -/
theorem hwMerge_eq_of_agree {m o n : Word} (h : ∀ j < 32, m.getLsbD j = true → n.getLsbD j = o.getLsbD j) :
    hwMerge m o n = n := by
  apply BitVec.eq_of_getLsbD_eq
  intro j hj
  rw [getLsbD_hwMerge]
  split
  · exact (h j hj ‹_›).symm
  · rfl

@[simp] theorem hwMerge_self (m o : Word) : hwMerge m o o = o := hwMerge_eq_of_agree fun _ _ _ => rfl

/-- A bit of a field read (R146). -/
theorem getLsbD_fieldGet (w : Word) (off : Nat) (mask : Word) (j : Nat) :
    (fieldGet w off mask).getLsbD j = (w.getLsbD (off + j) && mask.getLsbD j) := by
  simp [fieldGet]

/-- A bit of a field write: inside the field the value's, outside it the word's (R147). -/
theorem getLsbD_fieldSet (w : Word) (off : Nat) (mask v : Word) (j : Nat) (hj : j < 32) :
    (fieldSet w off mask v).getLsbD j =
      if off ≤ j ∧ mask.getLsbD (j - off) = true then v.getLsbD (j - off) else w.getLsbD j := by
  by_cases ho : off ≤ j
  · have ho' : ¬ j < off := by omega
    by_cases hm : mask.getLsbD (j - off) <;> simp [-BitVec.getLsbD_eq_getElem, fieldSet, hj, ho, ho', hm]
  · have ho' : j < off := by omega
    simp [-BitVec.getLsbD_eq_getElem, fieldSet, hj, ho, ho']

/-- A bit of a shifted mask. -/
theorem getLsbD_shifted (mask : Word) (off j : Nat) (hj : j < 32) :
    (mask <<< off).getLsbD j = (decide (off ≤ j) && mask.getLsbD (j - off)) := by
  by_cases ho : off ≤ j
  · have ho' : ¬ j < off := by omega
    simp [-BitVec.getLsbD_eq_getElem, hj, ho, ho']
  · have ho' : j < off := by omega
    simp [-BitVec.getLsbD_eq_getElem, hj, ho, ho']

/-- Two words share no bit. -/
theorem and_eq_zero_iff (a b : Word) :
    a &&& b = 0#32 ↔ ∀ j < 32, a.getLsbD j = true → b.getLsbD j = false := by
  constructor
  · intro h j _ ha
    have := congrArg (fun w => BitVec.getLsbD w j) h
    simpa [ha] using this
  · intro h
    apply BitVec.eq_of_getLsbD_eq
    intro j hj
    by_cases ha : a.getLsbD j
    · simp [h j hj ha]
    · simp [ha]

/-- A field that lies inside the word has no mask bit above it. -/
theorem fieldFits_bit {off : Nat} {mask : Word} (h : fieldFits (off, mask) = true) {j : Nat}
    (hj : mask.getLsbD j = true) : off + j < 32 := by
  simp only [fieldFits, Bool.and_eq_true, decide_eq_true_eq] at h
  have hle : 2 ^ j ≤ mask.toNat := Nat.ge_two_pow_of_testBit (by simpa [BitVec.getLsbD] using hj)
  have hmul : 2 ^ j * 2 ^ off ≤ mask.toNat * 2 ^ off := Nat.mul_le_mul_right _ hle
  rw [← Nat.pow_add] at hmul
  have hlt : 2 ^ (j + off) < 2 ^ 32 := Nat.lt_of_le_of_lt hmul h.2
  have := (Nat.pow_lt_pow_iff_right (by decide : 1 < 2)).mp hlt
  omega

/-- First law of R147: a field reads back what was set, cut to the mask. -/
theorem fieldGet_fieldSet {off : Nat} {mask : Word} (h : fieldFits (off, mask) = true) (w v : Word) :
    fieldGet (fieldSet w off mask v) off mask = v &&& mask := by
  apply BitVec.eq_of_getLsbD_eq
  intro j hj
  rw [getLsbD_fieldGet]
  by_cases hm : mask.getLsbD j
  · have hlt := fieldFits_bit h hm
    simp [getLsbD_fieldSet _ _ _ _ _ hlt, hm]
  · simp [hm]

/-- A field write leaves alone every word that shares no bit with the field. -/
theorem fieldSet_and_other {off : Nat} {mask m : Word} (h : (mask <<< off) &&& m = 0#32) (w v : Word) :
    fieldSet w off mask v &&& m = w &&& m := by
  apply BitVec.eq_of_getLsbD_eq
  intro j hj
  by_cases hm : m.getLsbD j
  · have hn : ¬ (off ≤ j ∧ mask.getLsbD (j - off) = true) := by
      intro hc
      have := (and_eq_zero_iff _ _).mp h j hj (by simp [getLsbD_shifted _ _ _ hj, hc])
      simp [hm] at this
    simp [getLsbD_fieldSet _ _ _ _ _ hj, hn]
  · simp [hm]

/-- A field write outside the read-only bits is stored whole. -/
theorem hwMerge_fieldSet {off : Nat} {mask ro : Word} (h : (mask <<< off) &&& ro = 0#32) (w v : Word) :
    hwMerge ro w (fieldSet w off mask v) = fieldSet w off mask v := by
  apply hwMerge_eq_of_agree
  intro j hj hro
  have := congrArg (fun u => BitVec.getLsbD u j) (fieldSet_and_other h w v)
  simpa [hro] using this

/-- Clearing bits outside the read-only ones is stored whole. -/
theorem hwMerge_clear {m ro : Word} (h : m &&& ro = 0#32) (w : Word) :
    hwMerge ro w (w &&& ~~~m) = w &&& ~~~m := by
  apply hwMerge_eq_of_agree
  intro j hj hro
  by_cases hm : m.getLsbD j
  · have := (and_eq_zero_iff _ _).mp h j hj hm
    simp [hro] at this
  · simp [-BitVec.getLsbD_eq_getElem, hm, hj]

end Sys2Proof.Machine
end

