-- ==== Sys2Proof/Laws/Config.lean ====
section
/-! SUPPORT. What a well-formed configuration gives (R9, R11, R13, R14, R15), fact by fact. -/

namespace Sys2Proof

open Sys2Proof.Machine

/-- The four parts of `Config.wf` and the pin bound. -/
theorem Config.wf_parts {c : Config} (h : c.wf = true) :
    c.npins ≤ 184 ∧ c.fieldsWf = true ∧ c.roMaskWf = true ∧ c.addressesWf = true ∧ c.masterWf = true := by
  simpa [Config.wf, and_assoc] using h

/-- R14, as arithmetic. -/
theorem Config.wf_addresses {c : Config} (h : c.wf = true) :
    c.base % 4 = 0 ∧ c.wakeSts0Off % 4 = 0 ∧ c.wakeSts1Off % 4 = 0 ∧ c.masterOff % 4 = 0 ∧
    c.wakeSts0Off ≠ c.wakeSts1Off ∧ c.wakeSts0Off ≠ c.masterOff ∧ c.wakeSts1Off ≠ c.masterOff ∧
    4 * c.npins ≤ c.wakeSts0Off ∧ 4 * c.npins ≤ c.wakeSts1Off ∧ 4 * c.npins ≤ c.masterOff := by
  have := (Config.wf_parts h).2.2.2.1
  simpa [Config.addressesWf, and_assoc] using this

/-- R11, the limits and the shapes of the two masks. -/
theorem Config.wf_limits {c : Config} (h : c.wf = true) :
    c.dbFineMax = 0xFF ∧ 0xFF < c.dbCoarseMax ∧ c.dbCoarseMax ≤ c.dbCntMask.toNat ∧
    c.dbCntMask &&& (c.dbCntMask + 1#32) = 0#32 ∧ c.drvMask = 0x7#32 := by
  have := (Config.wf_parts h).2.1
  simp only [Config.fieldsWf, Bool.and_eq_true, decide_eq_true_eq, beq_iff_eq] at this
  exact ⟨this.1.1.1.1.2, this.1.1.1.2, this.1.1.2, this.1.2, this.2⟩

/-- R11, every field lies inside the word. -/
theorem Config.wf_fits {c : Config} (h : c.wf = true) : ∀ f ∈ c.fields, fieldFits f = true := by
  have := (Config.wf_parts h).2.1
  simp only [Config.fieldsWf, Bool.and_eq_true] at this
  exact List.all_eq_true.mp this.1.1.1.1.1.1

theorem Config.wf_fits_pullDown {c : Config} (h : c.wf = true) : fieldFits (c.pullDownOff, 1#32) = true :=
  Config.wf_fits h _ (by simp [Config.fields])

theorem Config.wf_fits_pullUp {c : Config} (h : c.wf = true) : fieldFits (c.pullUpOff, 1#32) = true :=
  Config.wf_fits h _ (by simp [Config.fields])

theorem Config.wf_fits_drv {c : Config} (h : c.wf = true) : fieldFits (c.drvOff, c.drvMask) = true :=
  Config.wf_fits h _ (by simp [Config.fields])

theorem Config.wf_fits_dbCnt {c : Config} (h : c.wf = true) : fieldFits (c.dbCntOff, c.dbCntMask) = true :=
  Config.wf_fits h _ (by simp [Config.fields])

/-- Pairwise disjointness, as a statement about two positions. -/
theorem pairwiseDisjoint_get {l : List Word} (h : pairwiseDisjoint l = true) {i j : Nat} (hij : i < j) {a b : Word}
    (ha : l[i]? = some a) (hb : l[j]? = some b) : a &&& b = 0#32 := by
  induction l generalizing i j with
  | nil => simp at ha
  | cons x rest ih =>
    simp only [pairwiseDisjoint, Bool.and_eq_true, List.all_eq_true, beq_iff_eq] at h
    obtain ⟨j, rfl⟩ : ∃ k, j = k + 1 := ⟨j - 1, by omega⟩
    rw [List.getElem?_cons_succ] at hb
    cases i with
    | zero =>
      obtain rfl : x = a := by simpa using ha
      exact h.1 b (List.mem_of_getElem? hb)
    | succ i => exact ih h.2 (Nat.lt_of_succ_lt_succ hij) (by simpa using ha) hb

/-- R11, no two fields overlap: the fields at two positions of R10's list. -/
theorem Config.wf_disjoint {c : Config} (h : c.wf = true) {i j : Nat} (hij : i < j) {a b : Word}
    (ha : (c.fields.map fun f => f.2 <<< f.1)[i]? = some a) (hb : (c.fields.map fun f => f.2 <<< f.1)[j]? = some b) :
    a &&& b = 0#32 := by
  have := (Config.wf_parts h).2.1
  simp only [Config.fieldsWf, Bool.and_eq_true] at this
  exact pairwiseDisjoint_get this.1.1.1.1.1.2 hij ha hb

/-- A word disjoint from the four bits `RO_MASK` may hold is disjoint from `RO_MASK` (R13). -/
theorem Config.disjoint_roMask {c : Config} (h : c.wf = true) {m : Word} (hp : m &&& c.pendingBit = 0#32)
    (hw : m &&& c.wakeStsBit = 0#32) (hs : m &&& c.wsSuspendBit = 0#32) (hh : m &&& c.wsHibernateBit = 0#32) :
    m &&& c.roMask = 0#32 := by
  have hro := (Config.wf_parts h).2.2.1
  simp only [Config.roMaskWf, Bool.and_eq_true, beq_iff_eq] at hro
  rw [and_eq_zero_iff] at *
  intro j hj hm
  by_contra hc
  have := (and_eq_zero_iff _ _).mp hro.2 j hj (by simpa using hc)
  simp [-BitVec.getLsbD_eq_getElem, hj, hp j hj hm, hw j hj hm, hs j hj hm, hh j hj hm] at this

/-- The pending bit is read-only (R13). -/
theorem Config.pending_in_roMask {c : Config} (h : c.wf = true) : c.pendingBit &&& ~~~c.roMask = 0#32 := by
  have hro := (Config.wf_parts h).2.2.1
  simp only [Config.roMaskWf, Bool.and_eq_true, beq_iff_eq] at hro
  exact hro.1.1

/-- The wake-status bit is read-only (R13). -/
theorem Config.wakeSts_in_roMask {c : Config} (h : c.wf = true) : c.wakeStsBit &&& ~~~c.roMask = 0#32 := by
  have hro := (Config.wf_parts h).2.2.1
  simp only [Config.roMaskWf, Bool.and_eq_true, beq_iff_eq] at hro
  exact hro.1.2

theorem Config.pullDown_disjoint_roMask {c : Config} (h : c.wf = true) : (1#32 <<< c.pullDownOff) &&& c.roMask = 0#32 :=
  Config.disjoint_roMask h
    (Config.wf_disjoint h (i := 4) (j := 11) (by decide) rfl rfl)
    (Config.wf_disjoint h (i := 4) (j := 12) (by decide) rfl rfl)
    (by rw [BitVec.and_comm]; exact Config.wf_disjoint h (i := 1) (j := 4) (by decide) rfl rfl)
    (by rw [BitVec.and_comm]; exact Config.wf_disjoint h (i := 2) (j := 4) (by decide) rfl rfl)

theorem Config.pullUp_disjoint_roMask {c : Config} (h : c.wf = true) : (1#32 <<< c.pullUpOff) &&& c.roMask = 0#32 :=
  Config.disjoint_roMask h
    (Config.wf_disjoint h (i := 5) (j := 11) (by decide) rfl rfl)
    (Config.wf_disjoint h (i := 5) (j := 12) (by decide) rfl rfl)
    (by rw [BitVec.and_comm]; exact Config.wf_disjoint h (i := 1) (j := 5) (by decide) rfl rfl)
    (by rw [BitVec.and_comm]; exact Config.wf_disjoint h (i := 2) (j := 5) (by decide) rfl rfl)

theorem Config.drv_disjoint_roMask {c : Config} (h : c.wf = true) : (c.drvMask <<< c.drvOff) &&& c.roMask = 0#32 :=
  Config.disjoint_roMask h
    (Config.wf_disjoint h (i := 6) (j := 11) (by decide) rfl rfl)
    (Config.wf_disjoint h (i := 6) (j := 12) (by decide) rfl rfl)
    (by rw [BitVec.and_comm]; exact Config.wf_disjoint h (i := 1) (j := 6) (by decide) rfl rfl)
    (by rw [BitVec.and_comm]; exact Config.wf_disjoint h (i := 2) (j := 6) (by decide) rfl rfl)

theorem Config.intMask_disjoint_roMask {c : Config} (h : c.wf = true) : c.intMaskBit &&& c.roMask = 0#32 :=
  Config.disjoint_roMask h
    (Config.wf_disjoint h (i := 8) (j := 11) (by decide) rfl rfl)
    (Config.wf_disjoint h (i := 8) (j := 12) (by decide) rfl rfl)
    (by rw [BitVec.and_comm]; exact Config.wf_disjoint h (i := 1) (j := 8) (by decide) rfl rfl)
    (by rw [BitVec.and_comm]; exact Config.wf_disjoint h (i := 2) (j := 8) (by decide) rfl rfl)

theorem Config.dbCnt_disjoint_roMask {c : Config} (h : c.wf = true) : (c.dbCntMask <<< c.dbCntOff) &&& c.roMask = 0#32 :=
  Config.disjoint_roMask h
    (Config.wf_disjoint h (i := 10) (j := 11) (by decide) rfl rfl)
    (Config.wf_disjoint h (i := 10) (j := 12) (by decide) rfl rfl)
    (by rw [BitVec.and_comm]; exact Config.wf_disjoint h (i := 1) (j := 10) (by decide) rfl rfl)
    (by rw [BitVec.and_comm]; exact Config.wf_disjoint h (i := 2) (j := 10) (by decide) rfl rfl)

/-- Below a mask that is a run of ones, every bit of a number is a bit of the mask. -/
theorem testBit_of_le_run {m n j : Nat} (hm : m &&& (m + 1) = 0) (h : n ≤ m) (hn : n.testBit j = true) :
    m.testBit j = true := by
  by_contra hc
  have hge : 2 ^ j ≤ n := Nat.ge_two_pow_of_testBit hn
  have hbit : m / 2 ^ j % 2 = 0 := by
    have : m.testBit j = false := by simpa using hc
    rw [Nat.testBit_eq_decide_div_mod_eq] at this
    simp at this; omega
  have hpos : 0 < 2 ^ j := Nat.two_pow_pos j
  have hdiv : (m + 1) / 2 ^ (j + 1) = m / 2 ^ (j + 1) := by
    rw [Nat.pow_succ, ← Nat.div_div_eq_div_mul, ← Nat.div_div_eq_div_mul]
    have := Nat.div_add_mod m (2 ^ j)
    have hlt := Nat.mod_lt m hpos
    rcases Nat.lt_or_ge (m % 2 ^ j + 1) (2 ^ j) with h1 | h1
    · have : (m + 1) / 2 ^ j = m / 2 ^ j := by
        apply Nat.div_eq_of_lt_le
        · rw [Nat.mul_comm]; omega
        · rw [Nat.mul_comm, Nat.mul_add]; omega
      omega
    · have : (m + 1) / 2 ^ j = m / 2 ^ j + 1 := by
        apply Nat.div_eq_of_lt_le
        · rw [Nat.mul_comm, Nat.mul_add]; omega
        · rw [Nat.mul_comm, Nat.mul_add, Nat.mul_add]; omega
      omega
  have hz : m / 2 ^ (j + 1) = 0 := by
    have this : (m &&& (m + 1)) >>> (j + 1) = 0 := by rw [hm]; simp
    rw [Nat.shiftRight_and_distrib, Nat.shiftRight_eq_div_pow, Nat.shiftRight_eq_div_pow, hdiv, Nat.and_self] at this
    simpa using this
  have : m < 2 ^ j := by
    rw [Nat.pow_succ, ← Nat.div_div_eq_div_mul] at hz
    have h0 : m / 2 ^ j = 0 := by omega
    exact (Nat.div_eq_zero_iff.mp h0).resolve_left (by omega)
  omega

/-- A count within a limit that the mask covers is stored whole (R11: the mask is a run of ones from bit 0). -/
theorem and_mask_of_le {mask : Word} (hm : mask &&& (mask + 1#32) = 0#32) {n : Nat} (h : n ≤ mask.toNat) :
    BitVec.ofNat 32 n &&& mask = BitVec.ofNat 32 n := by
  by_cases hw : mask.toNat + 1 = 2 ^ 32
  · have : mask = BitVec.allOnes 32 := by
      apply BitVec.eq_of_toNat_eq; simp; omega
    rw [this, BitVec.and_allOnes]
  · have hm' : mask.toNat &&& (mask.toNat + 1) = 0 := by
      have hlt := mask.isLt
      have := congrArg BitVec.toNat hm
      rwa [BitVec.toNat_and, BitVec.toNat_add, Nat.mod_eq_of_lt (by simp; omega)] at this
    apply BitVec.eq_of_getLsbD_eq
    intro j hj
    rw [BitVec.getLsbD_and]
    by_cases hn : (BitVec.ofNat 32 n).getLsbD j = true
    · have : mask.getLsbD j = true :=
        testBit_of_le_run hm' h (by simpa [-BitVec.getLsbD_eq_getElem, BitVec.getLsbD_ofNat, hj] using hn)
      simp [-BitVec.getLsbD_eq_getElem, hn, this]
    · simp [-BitVec.getLsbD_eq_getElem, hn]

end Sys2Proof
end

