-- ==== Sys2Proof/Laws/State.lean ====
section
/-! SUPPORT. One lemma per field per update of the state, true by rfl, so that no later proof unfolds a record update. -/

namespace Sys2Proof.Machine

@[simp] theorem State.emit_cfg (s : State) (e : PortEvent) : (s.emit e).cfg = s.cfg := rfl
@[simp] theorem State.emit_pins (s : State) (e : PortEvent) : (s.emit e).pins = s.pins := rfl
@[simp] theorem State.emit_wsts0 (s : State) (e : PortEvent) : (s.emit e).wsts0 = s.wsts0 := rfl
@[simp] theorem State.emit_wsts1 (s : State) (e : PortEvent) : (s.emit e).wsts1 = s.wsts1 := rfl
@[simp] theorem State.emit_master (s : State) (e : PortEvent) : (s.emit e).master = s.master := rfl
@[simp] theorem State.emit_snap (s : State) (e : PortEvent) : (s.emit e).snap = s.snap := rfl
@[simp] theorem State.emit_lock (s : State) (e : PortEvent) : (s.emit e).lock = s.lock := rfl
@[simp] theorem State.emit_disp (s : State) (e : PortEvent) : (s.emit e).disp = s.disp := rfl
@[simp] theorem State.emit_grp (s : State) (e : PortEvent) : (s.emit e).grp = s.grp := rfl
@[simp] theorem State.emit_sm (s : State) (e : PortEvent) : (s.emit e).sm = s.sm := rfl
@[simp] theorem State.emit_port (s : State) (e : PortEvent) : (s.emit e).port = s.port := rfl
@[simp] theorem State.emit_sched (s : State) (e : PortEvent) : (s.emit e).sched = s.sched := rfl
@[simp] theorem State.emit_draw (s : State) (e : PortEvent) : (s.emit e).draw = s.draw := rfl
@[simp] theorem State.emit_trace (s : State) (e : PortEvent) : (s.emit e).trace = s.trace ++ [e] := rfl

@[simp] theorem State.respond_cfg (s : State) (g : Engine) (st : Status) (r : Rdata) : (s.respond g st r).cfg = s.cfg := rfl
@[simp] theorem State.respond_pins (s : State) (g : Engine) (st : Status) (r : Rdata) : (s.respond g st r).pins = s.pins := rfl
@[simp] theorem State.respond_wsts0 (s : State) (g : Engine) (st : Status) (r : Rdata) : (s.respond g st r).wsts0 = s.wsts0 := rfl
@[simp] theorem State.respond_wsts1 (s : State) (g : Engine) (st : Status) (r : Rdata) : (s.respond g st r).wsts1 = s.wsts1 := rfl
@[simp] theorem State.respond_master (s : State) (g : Engine) (st : Status) (r : Rdata) : (s.respond g st r).master = s.master := rfl
@[simp] theorem State.respond_snap (s : State) (g : Engine) (st : Status) (r : Rdata) : (s.respond g st r).snap = s.snap := rfl
@[simp] theorem State.respond_lock (s : State) (g : Engine) (st : Status) (r : Rdata) : (s.respond g st r).lock = s.lock := rfl
@[simp] theorem State.respond_disp (s : State) (g : Engine) (st : Status) (r : Rdata) : (s.respond g st r).disp = s.disp := rfl
@[simp] theorem State.respond_grp (s : State) (g : Engine) (st : Status) (r : Rdata) : (s.respond g st r).grp = s.grp := rfl
@[simp] theorem State.respond_sm (s : State) (g : Engine) (st : Status) (r : Rdata) : (s.respond g st r).sm = s.sm := rfl
@[simp] theorem State.respond_port (s : State) (g : Engine) (st : Status) (r : Rdata) : (s.respond g st r).port = s.port := rfl
@[simp] theorem State.respond_sched (s : State) (g : Engine) (st : Status) (r : Rdata) : (s.respond g st r).sched = s.sched := rfl
@[simp] theorem State.respond_draw (s : State) (g : Engine) (st : Status) (r : Rdata) : (s.respond g st r).draw = s.draw := rfl
@[simp] theorem State.respond_trace (s : State) (g : Engine) (st : Status) (r : Rdata) : (s.respond g st r).trace = s.trace ++ [.response g st r] := rfl

@[simp] theorem State.raise_cfg (s : State) (g : Engine) (st : Status) : (s.raise g st).cfg = s.cfg := rfl
@[simp] theorem State.raise_pins (s : State) (g : Engine) (st : Status) : (s.raise g st).pins = s.pins := rfl
@[simp] theorem State.raise_wsts0 (s : State) (g : Engine) (st : Status) : (s.raise g st).wsts0 = s.wsts0 := rfl
@[simp] theorem State.raise_wsts1 (s : State) (g : Engine) (st : Status) : (s.raise g st).wsts1 = s.wsts1 := rfl
@[simp] theorem State.raise_master (s : State) (g : Engine) (st : Status) : (s.raise g st).master = s.master := rfl
@[simp] theorem State.raise_snap (s : State) (g : Engine) (st : Status) : (s.raise g st).snap = s.snap := rfl
@[simp] theorem State.raise_lock (s : State) (g : Engine) (st : Status) : (s.raise g st).lock = s.lock := rfl
@[simp] theorem State.raise_disp (s : State) (g : Engine) (st : Status) : (s.raise g st).disp = s.disp := rfl
@[simp] theorem State.raise_grp (s : State) (g : Engine) (st : Status) : (s.raise g st).grp = s.grp := rfl
@[simp] theorem State.raise_sm (s : State) (g : Engine) (st : Status) : (s.raise g st).sm = s.sm := rfl
@[simp] theorem State.raise_port (s : State) (g : Engine) (st : Status) : (s.raise g st).port = s.port := rfl
@[simp] theorem State.raise_sched (s : State) (g : Engine) (st : Status) : (s.raise g st).sched = s.sched := rfl
@[simp] theorem State.raise_draw (s : State) (g : Engine) (st : Status) : (s.raise g st).draw = s.draw := rfl
@[simp] theorem State.raise_trace (s : State) (g : Engine) (st : Status) : (s.raise g st).trace = s.trace ++ [.response g st 0] := rfl

@[simp] theorem State.storePin_cfg (s : State) (i : Nat) (v : Word) : (s.storePin i v).cfg = s.cfg := rfl
@[simp] theorem State.storePin_pins (s : State) (i : Nat) (v : Word) : (s.storePin i v).pins = s.pins.set i (hwMerge s.cfg.roMask (s.x i) v) := rfl
@[simp] theorem State.storePin_wsts0 (s : State) (i : Nat) (v : Word) : (s.storePin i v).wsts0 = s.wsts0 := rfl
@[simp] theorem State.storePin_wsts1 (s : State) (i : Nat) (v : Word) : (s.storePin i v).wsts1 = s.wsts1 := rfl
@[simp] theorem State.storePin_master (s : State) (i : Nat) (v : Word) : (s.storePin i v).master = s.master := rfl
@[simp] theorem State.storePin_snap (s : State) (i : Nat) (v : Word) : (s.storePin i v).snap = s.snap := rfl
@[simp] theorem State.storePin_lock (s : State) (i : Nat) (v : Word) : (s.storePin i v).lock = s.lock := rfl
@[simp] theorem State.storePin_disp (s : State) (i : Nat) (v : Word) : (s.storePin i v).disp = s.disp := rfl
@[simp] theorem State.storePin_grp (s : State) (i : Nat) (v : Word) : (s.storePin i v).grp = s.grp := rfl
@[simp] theorem State.storePin_sm (s : State) (i : Nat) (v : Word) : (s.storePin i v).sm = s.sm := rfl
@[simp] theorem State.storePin_port (s : State) (i : Nat) (v : Word) : (s.storePin i v).port = s.port := rfl
@[simp] theorem State.storePin_sched (s : State) (i : Nat) (v : Word) : (s.storePin i v).sched = s.sched := rfl
@[simp] theorem State.storePin_draw (s : State) (i : Nat) (v : Word) : (s.storePin i v).draw = s.draw := rfl
@[simp] theorem State.storePin_trace (s : State) (i : Nat) (v : Word) : (s.storePin i v).trace = s.trace := rfl

@[simp] theorem State.waitAtPort_cfg (s : State) (i : Instr) : (s.waitAtPort i).cfg = s.cfg := rfl
@[simp] theorem State.waitAtPort_pins (s : State) (i : Instr) : (s.waitAtPort i).pins = s.pins := rfl
@[simp] theorem State.waitAtPort_wsts0 (s : State) (i : Instr) : (s.waitAtPort i).wsts0 = s.wsts0 := rfl
@[simp] theorem State.waitAtPort_wsts1 (s : State) (i : Instr) : (s.waitAtPort i).wsts1 = s.wsts1 := rfl
@[simp] theorem State.waitAtPort_master (s : State) (i : Instr) : (s.waitAtPort i).master = s.master := rfl
@[simp] theorem State.waitAtPort_snap (s : State) (i : Instr) : (s.waitAtPort i).snap = s.snap := rfl
@[simp] theorem State.waitAtPort_lock (s : State) (i : Instr) : (s.waitAtPort i).lock = s.lock := rfl
@[simp] theorem State.waitAtPort_disp (s : State) (i : Instr) : (s.waitAtPort i).disp = s.disp := rfl
@[simp] theorem State.waitAtPort_grp (s : State) (i : Instr) : (s.waitAtPort i).grp = s.grp := rfl
@[simp] theorem State.waitAtPort_sm (s : State) (i : Instr) : (s.waitAtPort i).sm = s.sm := rfl
@[simp] theorem State.waitAtPort_port (s : State) (i : Instr) : (s.waitAtPort i).port = s.port ++ [encode i] := rfl
@[simp] theorem State.waitAtPort_sched (s : State) (i : Instr) : (s.waitAtPort i).sched = s.sched := rfl
@[simp] theorem State.waitAtPort_draw (s : State) (i : Instr) : (s.waitAtPort i).draw = s.draw := rfl
@[simp] theorem State.waitAtPort_trace (s : State) (i : Instr) : (s.waitAtPort i).trace = s.trace := rfl

@[simp] theorem State.storeMaster_cfg (s : State) (v : Word) : (s.storeMaster v).cfg = s.cfg := by
  unfold State.storeMaster; split <;> rfl
@[simp] theorem State.storeMaster_pins (s : State) (v : Word) : (s.storeMaster v).pins = s.pins := by
  unfold State.storeMaster; split <;> rfl
@[simp] theorem State.storeMaster_wsts0 (s : State) (v : Word) : (s.storeMaster v).wsts0 = s.wsts0 := by
  unfold State.storeMaster; split <;> rfl
@[simp] theorem State.storeMaster_wsts1 (s : State) (v : Word) : (s.storeMaster v).wsts1 = s.wsts1 := by
  unfold State.storeMaster; split <;> rfl
@[simp] theorem State.storeMaster_snap (s : State) (v : Word) : (s.storeMaster v).snap = s.snap := by
  unfold State.storeMaster; split <;> rfl
@[simp] theorem State.storeMaster_lock (s : State) (v : Word) : (s.storeMaster v).lock = s.lock := by
  unfold State.storeMaster; split <;> rfl
@[simp] theorem State.storeMaster_disp (s : State) (v : Word) : (s.storeMaster v).disp = s.disp := by
  unfold State.storeMaster; split <;> rfl
@[simp] theorem State.storeMaster_grp (s : State) (v : Word) : (s.storeMaster v).grp = s.grp := by
  unfold State.storeMaster; split <;> rfl
@[simp] theorem State.storeMaster_sm (s : State) (v : Word) : (s.storeMaster v).sm = s.sm := by
  unfold State.storeMaster; split <;> rfl
@[simp] theorem State.storeMaster_port (s : State) (v : Word) : (s.storeMaster v).port = s.port := by
  unfold State.storeMaster; split <;> rfl
@[simp] theorem State.storeMaster_sched (s : State) (v : Word) : (s.storeMaster v).sched = s.sched := by
  unfold State.storeMaster; split <;> rfl
@[simp] theorem State.storeMaster_draw (s : State) (v : Word) : (s.storeMaster v).draw = s.draw := by
  unfold State.storeMaster; split <;> rfl
@[simp] theorem State.storeMaster_master (s : State) (v : Word) : (s.storeMaster v).master = v := by
  unfold State.storeMaster; split <;> rfl
@[simp] theorem State.storeMaster_trace (s : State) (v : Word) :
    (s.storeMaster v).trace = s.trace ++ if anySet v s.cfg.eoiBit then [.eoiWritten] else [] := by
  unfold State.storeMaster; split <;> simp_all

/-- Writing a lock that is free as free changes nothing. -/
theorem State.with_lock_free {s : State} (h : s.lock = .free) : { s with lock := .free } = s := by
  cases s; simp_all

/-- `x[i]` depends on the pin registers alone. -/
theorem State.x_congr {s t : State} (h : t.pins = s.pins) (i : Nat) : t.x i = s.x i := by
  simp [State.x, h]

@[simp] theorem State.x_emit (s : State) (e : PortEvent) (i : Nat) : (s.emit e).x i = s.x i := rfl
@[simp] theorem State.x_respond (s : State) (g : Engine) (st : Status) (r : Rdata) (i : Nat) :
    (s.respond g st r).x i = s.x i := rfl
@[simp] theorem State.x_storeMaster (s : State) (v : Word) (i : Nat) : (s.storeMaster v).x i = s.x i :=
  State.x_congr (by simp) i

/-- The register a software write names takes the merged word. -/
theorem State.x_storePin_self {s : State} {i : Nat} (h : i < s.pins.length) (v : Word) :
    (s.storePin i v).x i = hwMerge s.cfg.roMask (s.x i) v := by
  simp [State.x, State.storePin, List.getD_eq_getElem?_getD, h]

/-- Every other register keeps its word. -/
theorem State.x_storePin_other {s : State} {i j : Nat} (h : j ≠ i) (v : Word) : (s.storePin i v).x j = s.x j := by
  simp [State.x, State.storePin, List.getD_eq_getElem?_getD, List.getElem?_set_ne (Ne.symm h)]

/-- Storing into a register what it holds changes nothing. -/
theorem State.set_pins_self (s : State) (i : Nat) : s.pins.set i (s.x i) = s.pins := by
  by_cases h : i < s.pins.length
  · simp [State.x, List.getD_eq_getElem?_getD, h]
  · simp [List.set_eq_of_length_le (Nat.le_of_not_lt h)]

end Sys2Proof.Machine
end

