-- ==== Sys2Proof/Laws/Ops.lean ====
section
/-! SUPPORT. One spec lemma per shared operation: the register space (R71 to R75), locked sections (R80), the callback's return (R221); and that every memory operation keeps the form of the register space. -/

namespace Sys2Proof.Machine

open Sys2Proof

/-! ## The register space -/

/-- R71: the address of a pin register holds it. -/
theorem registerAt_pin {c : Config} {i : Nat} (hi : i < c.npins) : registerAt c (pinAddress c i) = some (.pin i) := by
  have h1 : pinAddress c i - c.base = 4 * i := by simp [pinAddress]
  have h2 : c.base ≤ pinAddress c i := by simp [pinAddress]
  have h3 : 4 * i % 4 = 0 := by omega
  have h4 : 4 * i / 4 = i := by omega
  simp [registerAt, h1, h2, h3, h4, hi]

/-- An address past the pin area is none of the pin registers'. -/
theorem registerAt_above {c : Config} {off : Nat} (h : 4 * c.npins ≤ off) :
    ¬ (c.base ≤ c.base + off ∧ (c.base + off - c.base) % 4 = 0 ∧ (c.base + off - c.base) / 4 < c.npins) := by
  omega

theorem registerAt_wsts0 {c : Config} (h : c.wf = true) : registerAt c (wsts0Address c) = some .wsts0 := by
  have ha := Config.wf_addresses h
  unfold registerAt
  rw [if_neg (by unfold wsts0Address; exact registerAt_above ha.2.2.2.2.2.2.2.1), if_pos rfl]

theorem registerAt_wsts1 {c : Config} (h : c.wf = true) : registerAt c (wsts1Address c) = some .wsts1 := by
  have ha := Config.wf_addresses h
  unfold registerAt
  rw [if_neg (by unfold wsts1Address; exact registerAt_above ha.2.2.2.2.2.2.2.2.1),
    if_neg (by unfold wsts1Address wsts0Address; omega), if_pos rfl]

theorem registerAt_master {c : Config} (h : c.wf = true) : registerAt c (masterAddress c) = some .master := by
  have ha := Config.wf_addresses h
  unfold registerAt
  rw [if_neg (by unfold masterAddress; exact registerAt_above ha.2.2.2.2.2.2.2.2.2),
    if_neg (by unfold masterAddress wsts0Address; omega), if_neg (by unfold masterAddress wsts1Address; omega),
    if_pos rfl]

/-- Only a pin register's own address holds it. -/
theorem registerAt_eq_pin {c : Config} {a i : Nat} (h : registerAt c a = some (.pin i)) :
    a = pinAddress c i ∧ i < c.npins := by
  unfold registerAt at h
  split at h
  · next hc =>
    obtain rfl : (a - c.base) / 4 = i := by simpa using h
    unfold pinAddress
    omega
  · repeat (split at h; · simp at h)
    simp at h

/-- Only the address of `MASTER` holds it. -/
theorem registerAt_eq_master {c : Config} {a : Nat} (h : registerAt c a = some .master) : a = masterAddress c := by
  unfold registerAt at h
  split at h
  · simp at h
  · split at h
    · simp at h
    · split at h
      · simp at h
      · split at h
        · assumption
        · simp at h

/-- An aligned 4-byte access reaches what the map has. -/
theorem accessTarget_of_registerAt {c : Config} {a : Nat} {r : RegName} (ha : a % 4 = 0)
    (h : registerAt c a = some r) : accessTarget c a 4 = .ok r := by
  simp [accessTarget, ha, h]

theorem pinAddress_mod {c : Config} (h : c.wf = true) (i : Nat) : pinAddress c i % 4 = 0 := by
  have := (Config.wf_addresses h).1
  unfold pinAddress; omega

theorem wsts0Address_mod {c : Config} (h : c.wf = true) : wsts0Address c % 4 = 0 := by
  have := Config.wf_addresses h
  unfold wsts0Address; omega

theorem wsts1Address_mod {c : Config} (h : c.wf = true) : wsts1Address c % 4 = 0 := by
  have := Config.wf_addresses h
  unfold wsts1Address; omega

theorem masterAddress_mod {c : Config} (h : c.wf = true) : masterAddress c % 4 = 0 := by
  have := Config.wf_addresses h
  unfold masterAddress; omega

/-- R72 at a pin register. -/
theorem memRead_pin {s : State} (h : s.cfg.wf = true) {i : Nat} (hi : i < s.cfg.npins) :
    memRead (pinAddress s.cfg i) 4 s = .ok (s.x i) := by
  simp [memRead, accessTarget_of_registerAt (pinAddress_mod h i) (registerAt_pin hi), State.readRegister, Except.map]

theorem memRead_wsts0 {s : State} (h : s.cfg.wf = true) : memRead (wsts0Address s.cfg) 4 s = .ok s.wsts0 := by
  simp [memRead, accessTarget_of_registerAt (wsts0Address_mod h) (registerAt_wsts0 h), State.readRegister, Except.map]

theorem memRead_wsts1 {s : State} (h : s.cfg.wf = true) : memRead (wsts1Address s.cfg) 4 s = .ok s.wsts1 := by
  simp [memRead, accessTarget_of_registerAt (wsts1Address_mod h) (registerAt_wsts1 h), State.readRegister, Except.map]

theorem memRead_master {s : State} (h : s.cfg.wf = true) : memRead (masterAddress s.cfg) 4 s = .ok s.master := by
  simp [memRead, accessTarget_of_registerAt (masterAddress_mod h) (registerAt_master h), State.readRegister, Except.map]

/-- R73 at a pin register. -/
theorem memWrite_pin {s : State} (h : s.cfg.wf = true) {i : Nat} (hi : i < s.cfg.npins) (v : Word) :
    memWrite (pinAddress s.cfg i) 4 v s = .ok (s.storePin i v) := by
  simp [memWrite, accessTarget_of_registerAt (pinAddress_mod h i) (registerAt_pin hi), State.writeRegister, Except.map]

theorem memWrite_wsts0 {s : State} (h : s.cfg.wf = true) (v : Word) : memWrite (wsts0Address s.cfg) 4 v s = .ok s := by
  simp [memWrite, accessTarget_of_registerAt (wsts0Address_mod h) (registerAt_wsts0 h), State.writeRegister, Except.map]

theorem memWrite_wsts1 {s : State} (h : s.cfg.wf = true) (v : Word) : memWrite (wsts1Address s.cfg) 4 v s = .ok s := by
  simp [memWrite, accessTarget_of_registerAt (wsts1Address_mod h) (registerAt_wsts1 h), State.writeRegister, Except.map]

/-- R73 at `MASTER`. -/
theorem memWrite_master {s : State} (h : s.cfg.wf = true) (v : Word) :
    memWrite (masterAddress s.cfg) 4 v s = .ok (s.storeMaster v) := by
  simp [memWrite, accessTarget_of_registerAt (masterAddress_mod h) (registerAt_master h), State.writeRegister, Except.map]

/-! ## The form of the register space is kept -/

theorem Memory.wf_iff (s : State) : Memory.wf s = true ↔ s.pins.length = s.cfg.npins := by simp [Memory.wf]

/-- The form depends on the pin registers and the configuration alone. -/
theorem Memory.wf_congr {s t : State} (hp : t.pins.length = s.pins.length) (hc : t.cfg = s.cfg) :
    Memory.wf t = Memory.wf s := by simp [Memory.wf, hp, hc]

@[simp] theorem Memory.wf_storePin (s : State) (i : Nat) (v : Word) : Memory.wf (s.storePin i v) = Memory.wf s :=
  Memory.wf_congr (by simp) rfl

@[simp] theorem Memory.wf_storeMaster (s : State) (v : Word) : Memory.wf (s.storeMaster v) = Memory.wf s :=
  Memory.wf_congr (by simp) (by simp)

@[simp] theorem Memory.wf_writeRegister (s : State) (r : RegName) (v : Word) :
    Memory.wf (s.writeRegister r v) = Memory.wf s := by
  cases r <;> simp [State.writeRegister]

/-- Every write of the register space keeps its form. -/
theorem memWrite_keeps_wf {a n : Nat} {v : Word} {s t : State} (h : memWrite a n v s = .ok t) :
    Memory.wf t = Memory.wf s := by
  simp only [memWrite] at h
  cases hr : accessTarget s.cfg a n with
  | error e => simp [hr, Except.map] at h
  | ok r =>
    obtain rfl : s.writeRegister r v = t := by simpa [hr, Except.map] using h
    simp

/-- The reset state has it, in every configuration. -/
theorem Memory.wf_resetWith (c : Config) (d : ResetDraw) : Memory.wf (State.resetWith c d) = true := by
  simp [Memory.wf, State.resetWith]

/-! ## Locked sections -/

/-- A section whose lock is held is no step (R83). -/
theorem State.locked_held {s : State} (h : s.lock = .held) (body : State → State) : s.locked body = s := by
  simp [State.locked, h]

/-- A section whose lock is free runs its body and leaves the lock free (R80). -/
theorem State.locked_free {s : State} (h : s.lock = .free) (body : State → State) :
    s.locked body = { body { s with lock := .held } with lock := .free } := by
  simp [State.locked, h]

/-- A command whose lock is held waits at the port (R104). -/
theorem portSection_held {s : State} (h : s.lock = .held) (i : Instr) (body : State → Except Refusal State) :
    portSection i s body = .next (s.waitAtPort i) := by
  simp [portSection, h]

/-- A command whose lock is free answers what its body answers. -/
theorem portSection_ok {s t : State} (h : s.lock = .free) (i : Instr) {body : State → Except Refusal State}
    (hb : body { s with lock := .held } = .ok t) : portSection i s body = .next { t with lock := .free } := by
  simp [portSection, h, hb]

/-- Whatever a command of one section does, it waits, or runs its body with the lock free, or is refused by it. -/
theorem portSection_cases {s t : State} {i : Instr} {body : State → Except Refusal State}
    (h : portSection i s body = .next t) :
    (s.lock = .held ∧ t = s.waitAtPort i) ∨
    (s.lock = .free ∧ ∃ u, body { s with lock := .held } = .ok u ∧ t = { u with lock := .free }) := by
  unfold portSection at h
  split at h
  · next hl => exact .inl ⟨hl, by simpa using h.symm⟩
  · next hl =>
    split at h
    · next u hb => exact .inr ⟨hl, u, hb, by simpa using h.symm⟩
    · cases h

/-! ## The callback -/

/-- The return of an outstanding callback moves the sequencer (R221). -/
theorem callbackReturn_cbwait {s : State} (h : s.disp.phase = .cbwait) :
    callbackReturn s = .next { s with trace := s.trace ++ [.cbRet], disp := { s.disp with phase := .reread } } := by
  simp [callbackReturn, h, State.emit]

/-- Any other return is refused (R221, V9). -/
theorem callbackReturn_unasked {s : State} (h : s.disp.phase ≠ .cbwait) :
    callbackReturn s = .refused .callbackReturnUnasked := by
  simp [callbackReturn, h]

end Sys2Proof.Machine
end

