-- ==== Sys2Proof/Laws/Bank.lean ====
section
/-! SUPPORT. What the Register Bank commands do, one lemma each (R141 to R145), in a well-formed configuration. -/

namespace Sys2Proof.Machine

open Sys2Proof

/-- A section whose body only answers: it waits, or answers. -/
theorem portSection_answers {i : Instr} {s t : State} {body : State → Except Refusal State} {r : Rdata}
    (hb : body { s with lock := .held } = .ok (({ s with lock := .held } : State).respond .port .ok r))
    (h : portSection i s body = .next t) : (s.lock = .held ∧ t = s.waitAtPort i) ∨ t = s.respond .port .ok r := by
  rcases portSection_cases h with h1 | ⟨hl, u, hu, rfl⟩
  · exact .inl h1
  · rw [hb] at hu
    obtain rfl := Except.ok.inj hu
    right
    simp [State.respond, State.emit, ← hl]

theorem execReadPin_cases {pin : Selector} {s t : State} (hw : s.cfg.wf = true) (h : execReadPin pin s = .next t) :
    (s.lock = .held ∧ t = s.waitAtPort (.readPin pin)) ∨ t = s.raise .port .notFound ∨ ∃ r, t = s.respond .port .ok r := by
  unfold execReadPin at h
  split at h
  · exact .inr (.inl (by simpa using h.symm))
  · next hn =>
    have hr := memRead_pin (s := { s with lock := .held }) hw (i := pin.toNat) (by simpa using hn)
    rcases portSection_answers (r := (s.x pin.toNat).setWidth 64) (by
      simp only at hr
      simp [hr, bind, Except.bind, pure, Except.pure, State.x]) h with h1 | h1
    · exact .inl h1
    · exact .inr (.inr ⟨_, h1⟩)

theorem execWritePin_cases {pin : Selector} {data : Word} {s t : State} (hw : s.cfg.wf = true)
    (h : execWritePin pin data s = .next t) :
    (s.lock = .held ∧ t = s.waitAtPort (.writePin pin data)) ∨ t = s.raise .port .notFound ∨
      (pin.toNat < s.cfg.npins ∧ t = (s.storePin pin.toNat data).respond .port .ok 0) := by
  unfold execWritePin at h
  split at h
  · exact .inr (.inl (by simpa using h.symm))
  · next hn =>
    have hn' : pin.toNat < s.cfg.npins := by omega
    rcases portSection_cases h with h1 | ⟨hl, u, hu, rfl⟩
    · exact .inl h1
    · have hr := memWrite_pin (s := { s with lock := .held }) hw hn' data
      simp only at hr
      simp only [hr, bind, Except.bind, pure, Except.pure, Except.ok.injEq] at hu
      subst hu
      refine .inr (.inr ⟨hn', ?_⟩)
      simp [State.respond, State.emit, State.storePin, ← hl, State.x]

theorem execReadWakeStatus_cases {s t : State} (hw : s.cfg.wf = true) (h : execReadWakeStatus s = .next t) :
    (s.lock = .held ∧ t = s.waitAtPort .readWakeStatus) ∨ ∃ r, t = s.respond .port .ok r := by
  unfold execReadWakeStatus at h
  have h0 := memRead_wsts0 (s := { s with lock := .held }) hw
  have h1 := memRead_wsts1 (s := { s with lock := .held }) hw
  rcases portSection_answers (r := s.wsts1 ++ s.wsts0) (by
    simp only at h0 h1
    simp [h0, h1, bind, Except.bind, pure, Except.pure]) h with h1 | h1
  · exact .inl h1
  · exact .inr ⟨_, h1⟩

theorem execReadMaster_cases {s t : State} (hw : s.cfg.wf = true) (h : execReadMaster s = .next t) :
    (s.lock = .held ∧ t = s.waitAtPort .readMaster) ∨ ∃ r, t = s.respond .port .ok r := by
  unfold execReadMaster at h
  have h0 := memRead_master (s := { s with lock := .held }) hw
  rcases portSection_answers (r := s.master.setWidth 64) (by
    simp only at h0
    simp [h0, bind, Except.bind, pure, Except.pure]) h with h1 | h1
  · exact .inl h1
  · exact .inr ⟨_, h1⟩

theorem execWriteMaster_cases {data : Word} {s t : State} (hw : s.cfg.wf = true)
    (h : execWriteMaster data s = .next t) :
    (s.lock = .held ∧ t = s.waitAtPort (.writeMaster data)) ∨ t = (s.storeMaster data).respond .port .ok 0 := by
  unfold execWriteMaster at h
  rcases portSection_cases h with h1 | ⟨hl, u, hu, rfl⟩
  · exact .inl h1
  · have hr := memWrite_master (s := { s with lock := .held }) hw data
    simp only at hr
    simp only [hr, bind, Except.bind, pure, Except.pure, Except.ok.injEq] at hu
    subst hu
    right
    simp only [State.storeMaster, State.respond, State.emit]
    split <;> simp [← hl]

/-- No Register Bank command is refused or stops, in a well-formed configuration (R287). -/
theorem bank_answers {s : State} (hw : s.cfg.wf = true) (pin : Selector) (data : Word) :
    (∃ t, execReadPin pin s = .next t) ∧ (∃ t, execWritePin pin data s = .next t) ∧
    (∃ t, execReadWakeStatus s = .next t) ∧ (∃ t, execReadMaster s = .next t) ∧
    (∃ t, execWriteMaster data s = .next t) := by
  cases hl : s.lock with
  | held =>
    refine ⟨?_, ?_, ⟨_, portSection_held hl _ _⟩, ⟨_, portSection_held hl _ _⟩, ⟨_, portSection_held hl _ _⟩⟩
    · unfold execReadPin; split
      · exact ⟨_, rfl⟩
      · exact ⟨_, portSection_held hl _ _⟩
    · unfold execWritePin; split
      · exact ⟨_, rfl⟩
      · exact ⟨_, portSection_held hl _ _⟩
  | free =>
    have hr0 := memRead_wsts0 (s := { s with lock := .held }) hw
    have hr1 := memRead_wsts1 (s := { s with lock := .held }) hw
    have hm := memRead_master (s := { s with lock := .held }) hw
    have hwm := memWrite_master (s := { s with lock := .held }) hw data
    simp only at hr0 hr1 hm hwm
    refine ⟨?_, ?_, ?_, ?_, ?_⟩
    · unfold execReadPin; split
      · exact ⟨_, rfl⟩
      · next hn =>
        have hr := memRead_pin (s := { s with lock := .held }) hw (i := pin.toNat) (by simpa using hn)
        simp only at hr
        simp [portSection, hl, hr, bind, Except.bind, pure, Except.pure]
    · unfold execWritePin; split
      · exact ⟨_, rfl⟩
      · next hn =>
        have hr := memWrite_pin (s := { s with lock := .held }) hw (i := pin.toNat) (by simpa using hn) data
        simp only at hr
        simp [portSection, hl, hr, bind, Except.bind, pure, Except.pure]
    · simp [execReadWakeStatus, portSection, hl, hr0, hr1, bind, Except.bind, pure, Except.pure]
    · simp [execReadMaster, portSection, hl, hm, bind, Except.bind, pure, Except.pure]
    · simp [execWriteMaster, portSection, hl, hwm, bind, Except.bind, pure, Except.pure]

end Sys2Proof.Machine
end

