-- ==== Sys2Proof/Laws/Codec.lean ====
section
/-! SUPPORT. What the codec's bodies do: the stored words under a well-formed configuration, and one spec lemma each for `setBody`, `setConfig` and the two commands over them. -/

namespace Sys2Proof.Machine

open Sys2Proof

/-! ## Stored words -/

/-- In a well-formed configuration a field that shares no bit with `RO_MASK` is stored as `field_set` gives it. -/
theorem storePin_fieldSet {s : State} {off : Nat} {mask : Word} (h : (mask <<< off) &&& s.cfg.roMask = 0#32) (i : Nat)
    (v : Word) : s.storePin i (fieldSet (s.x i) off mask v) =
      { s with pins := s.pins.set i (fieldSet (s.x i) off mask v) } := by
  simp [State.storePin, hwMerge_fieldSet h]

/-- Driving a one-bit field. -/
theorem fieldSet_bit (w : Word) (off : Nat) (value : Word) :
    fieldSet w off 1#32 (onOff value) = if value = 0#32 then w &&& ~~~(bitAt off) else w ||| bitAt off := by
  by_cases hv : value = 0#32
  · simp [fieldSet, onOff, hv, bitAt]
  · simp only [fieldSet, onOff, hv, bitAt, ne_eq, not_false_eq_true, if_true, if_false, BitVec.and_self]
    apply BitVec.eq_of_getLsbD_eq
    intro j hj
    by_cases hb : (1#32 <<< off).getLsbD j <;> simp [-BitVec.getLsbD_eq_getElem, -BitVec.getLsbD_shiftLeft, hj, hb]

/-- Clearing the count. -/
theorem fieldSet_zero (w : Word) (off : Nat) (mask : Word) : fieldSet w off mask 0#32 = w &&& ~~~(mask <<< off) := by
  simp [fieldSet]

/-! ## The bodies -/

/-- No body touches anything but the pin register it names. -/
theorem setDebounceBody_eq (pin : Nat) (value : Word) (s : State) :
    (setDebounceBody pin value s).2 = { s with pins := (setDebounceBody pin value s).2.pins } := by
  unfold setDebounceBody storeCount
  split
  · rfl
  · split
    · rfl
    · dsimp only; split <;> rfl

theorem setBody_eq (tag : ParamTag) (pin : Nat) (value : Word) (s : State) :
    (setBody tag pin value s).2 = { s with pins := (setBody tag pin value s).2.pins } := by
  cases tag
  · exact setDebounceBody_eq pin value s
  all_goals rfl

@[simp] theorem setBody_cfg (tag : ParamTag) (pin : Nat) (value : Word) (s : State) :
    (setBody tag pin value s).2.cfg = s.cfg := by rw [setBody_eq]
@[simp] theorem setBody_wsts0 (tag : ParamTag) (pin : Nat) (value : Word) (s : State) :
    (setBody tag pin value s).2.wsts0 = s.wsts0 := by rw [setBody_eq]
@[simp] theorem setBody_wsts1 (tag : ParamTag) (pin : Nat) (value : Word) (s : State) :
    (setBody tag pin value s).2.wsts1 = s.wsts1 := by rw [setBody_eq]
@[simp] theorem setBody_master (tag : ParamTag) (pin : Nat) (value : Word) (s : State) :
    (setBody tag pin value s).2.master = s.master := by rw [setBody_eq]
@[simp] theorem setBody_snap (tag : ParamTag) (pin : Nat) (value : Word) (s : State) :
    (setBody tag pin value s).2.snap = s.snap := by rw [setBody_eq]
@[simp] theorem setBody_keeps_lock (tag : ParamTag) (pin : Nat) (value : Word) (s : State) :
    (setBody tag pin value s).2.lock = s.lock := by rw [setBody_eq]
@[simp] theorem setBody_disp (tag : ParamTag) (pin : Nat) (value : Word) (s : State) :
    (setBody tag pin value s).2.disp = s.disp := by rw [setBody_eq]
@[simp] theorem setBody_grp (tag : ParamTag) (pin : Nat) (value : Word) (s : State) :
    (setBody tag pin value s).2.grp = s.grp := by rw [setBody_eq]
@[simp] theorem setBody_sm (tag : ParamTag) (pin : Nat) (value : Word) (s : State) :
    (setBody tag pin value s).2.sm = s.sm := by rw [setBody_eq]
@[simp] theorem setBody_port (tag : ParamTag) (pin : Nat) (value : Word) (s : State) :
    (setBody tag pin value s).2.port = s.port := by rw [setBody_eq]
@[simp] theorem setBody_sched (tag : ParamTag) (pin : Nat) (value : Word) (s : State) :
    (setBody tag pin value s).2.sched = s.sched := by rw [setBody_eq]
@[simp] theorem setBody_draw (tag : ParamTag) (pin : Nat) (value : Word) (s : State) :
    (setBody tag pin value s).2.draw = s.draw := by rw [setBody_eq]
@[simp] theorem setBody_trace (tag : ParamTag) (pin : Nat) (value : Word) (s : State) :
    (setBody tag pin value s).2.trace = s.trace := by rw [setBody_eq]

/-- The zero test comes first (R178 a). -/
theorem setDebounceBody_zero (pin : Nat) (s : State) : setDebounceBody pin 0#32 s = (.ok, storeCount pin 0#32 s) := by
  simp [setDebounceBody]

/-- The override makes every other request a no-op (R185). -/
theorem setDebounceBody_override {value : Word} {s : State} (hv : value ≠ 0#32)
    (ho : anySet s.master s.cfg.dbOverrideBit = true) (pin : Nat) : setDebounceBody pin value s = (.ok, s) := by
  simp [setDebounceBody, hv, ho]

/-- A count above the limit of its path writes nothing (R282). -/
theorem setDebounceBody_tooLong {pin : Nat} {value : Word} {s : State} (hv : value ≠ 0#32)
    (ho : anySet s.master s.cfg.dbOverrideBit = false)
    (hc : debounceLimit s.cfg (coarseUnit s.cfg (s.x pin)) < debounceCount (coarseUnit s.cfg (s.x pin)) value) :
    setDebounceBody pin value s = (.invalidArgument, s) := by
  simp [setDebounceBody, hv, ho, hc]

/-- A count within the limit of its path replaces the count field (R177). -/
theorem setDebounceBody_store {pin : Nat} {value : Word} {s : State} (hv : value ≠ 0#32)
    (ho : anySet s.master s.cfg.dbOverrideBit = false)
    (hc : debounceCount (coarseUnit s.cfg (s.x pin)) value ≤ debounceLimit s.cfg (coarseUnit s.cfg (s.x pin))) :
    setDebounceBody pin value s =
      (.ok, storeCount pin (BitVec.ofNat 32 (debounceCount (coarseUnit s.cfg (s.x pin)) value)) s) := by
  simp [setDebounceBody, hv, ho, Nat.not_lt.mpr hc]

/-- A body writes its pin register by one software write, or writes nothing. -/
theorem setBody_write (tag : ParamTag) (pin : Nat) (value : Word) (s : State) :
    (setBody tag pin value s).2 = s ∨ ∃ v, (setBody tag pin value s).2 = s.storePin pin v := by
  cases tag
  · unfold setBody setDebounceBody storeCount
    dsimp only
    split
    · exact .inr ⟨_, rfl⟩
    · split
      · exact .inl rfl
      · split
        · exact .inl rfl
        · exact .inr ⟨_, rfl⟩
  all_goals exact .inr ⟨_, rfl⟩

/-- A body that fails writes nothing (R286). -/
theorem setBody_failed {tag : ParamTag} {pin : Nat} {value : Word} {s : State}
    (h : (setBody tag pin value s).1 ≠ .ok) : (setBody tag pin value s).2 = s := by
  cases tag
  · revert h
    unfold setBody setDebounceBody storeCount
    dsimp only
    split
    · simp
    · split
      · simp
      · split
        · simp
        · simp
  all_goals exact absurd rfl h

/-- A body does not depend on the lock, and leaves it as it is. -/
theorem setBody_lock (tag : ParamTag) (pin : Nat) (value : Word) (s : State) (l : Lock) :
    setBody tag pin value { s with lock := l } =
      ((setBody tag pin value s).1, { (setBody tag pin value s).2 with lock := l }) := by
  cases tag
  · unfold setBody setDebounceBody storeCount
    dsimp only
    split
    · rfl
    · split
      · rfl
      · have hx : ({ s with lock := l } : State).x pin = s.x pin := rfl
        rw [hx]
        split <;> rfl
  all_goals rfl

/-! ## `SET_CONFIG` as a whole -/

/-- R284 before everything else. -/
theorem setConfig_notFound {pin : Nat} {s : State} (h : s.cfg.npins ≤ pin) (param : ParamByte) (value : Word) :
    setConfig pin param value s = some (.notFound, s) := by
  simp [setConfig, h]

/-- R283 next. -/
theorem setConfig_notSupported {pin : Nat} {s : State} {param : ParamByte} (h : pin < s.cfg.npins)
    (hp : paramTagOf param = none) (value : Word) : setConfig pin param value s = some (.notSupported, s) := by
  simp [setConfig, Nat.not_le.mpr h, hp]

/-- With the lock held there is no step. -/
theorem setConfig_held {pin : Nat} {s : State} {param : ParamByte} {tag : ParamTag} (h : pin < s.cfg.npins)
    (hp : paramTagOf param = some tag) (hl : s.lock = .held) (value : Word) : setConfig pin param value s = none := by
  simp [setConfig, Nat.not_le.mpr h, hp, hl]

/-- With the lock free the body runs, as one section. -/
theorem setConfig_free {pin : Nat} {s : State} {param : ParamByte} {tag : ParamTag} (h : pin < s.cfg.npins)
    (hp : paramTagOf param = some tag) (hl : s.lock = .free) (value : Word) :
    setConfig pin param value s = some (setBody tag pin value s) := by
  have hs : ({ (setBody tag pin value s).2 with lock := Lock.free } : State) = (setBody tag pin value s).2 := by
    rw [setBody_eq]; simp [← hl]
  simp only [setConfig, Nat.not_le.mpr h, hp, hl, if_false, setBody_lock, hs]

@[simp] theorem paramTagOf_byte (tag : ParamTag) : paramTagOf tag.byte = some tag := by cases tag <;> rfl

/-- A tag is unknown exactly outside `0x01` to `0x04` (R106). -/
theorem paramTagOf_none_iff (param : ParamByte) : paramTagOf param = none ↔ param = 0x00#8 ∨ 0x05#8 ≤ param := by
  revert param; decide

/-- Whatever `SET_CONFIG` does, it changes nothing but the one pin register, by at most one software write. -/
theorem setConfig_cases {pin : Nat} {param : ParamByte} {value : Word} {s t : State} {st : Status}
    (h : setConfig pin param value s = some (st, t)) :
    t = s ∨ (st = .ok ∧ pin < s.cfg.npins ∧ s.lock = .free ∧ ∃ v, t = s.storePin pin v) := by
  by_cases hn : s.cfg.npins ≤ pin
  · rw [setConfig_notFound hn] at h
    simp at h; exact .inl h.2.symm
  · have hn' : pin < s.cfg.npins := by omega
    cases hp : paramTagOf param with
    | none =>
      rw [setConfig_notSupported hn' hp] at h
      simp at h; exact .inl h.2.symm
    | some tag =>
      cases hl : s.lock with
      | held => rw [setConfig_held hn' hp hl] at h; simp at h
      | free =>
        rw [setConfig_free hn' hp hl] at h
        simp only [Option.some.injEq] at h
        have h1 : (setBody tag pin value s).1 = st := by rw [h]
        have h2 : (setBody tag pin value s).2 = t := by rw [h]
        by_cases hok : (setBody tag pin value s).1 = .ok
        · rcases setBody_write tag pin value s with hw | ⟨v, hw⟩
          · exact .inl (by rw [← h2, hw])
          · exact .inr ⟨by rw [← h1, hok], hn', hl.symm ▸ rfl, v, by rw [← h2, hw]⟩
        · exact .inl (by rw [← h2, setBody_failed hok])

/-- A `SET_CONFIG` that fails changes nothing (R286). -/
theorem setConfig_failed {pin : Nat} {param : ParamByte} {value : Word} {s t : State} {st : Status}
    (h : setConfig pin param value s = some (st, t)) (hst : st ≠ .ok) : t = s := by
  rcases setConfig_cases h with h1 | ⟨h1, _⟩
  · exact h1
  · exact absurd h1 hst

/-! ## The commands -/

/-- A `GET_CONFIG` of a supported parameter on an existing pin answers the field and changes nothing else. -/
theorem codecGet_free {i : Instr} {tag : ParamTag} {pin : Selector} {s : State} (h : pin.toNat < s.cfg.npins)
    (hl : s.lock = .free) : codecGet i tag pin s =
      .next (s.respond .port .ok (pack tag.byte (configField s.cfg tag (s.x pin.toNat)))) := by
  have hn : ¬ s.cfg.npins ≤ pin.toNat := by omega
  simp only [codecGet, hn, if_false, portSection, hl, State.respond, State.emit]
  rw [← hl]
  rfl

theorem codecGet_notFound {i : Instr} {tag : ParamTag} {pin : Selector} {s : State} (h : s.cfg.npins ≤ pin.toNat) :
    codecGet i tag pin s = .next (s.raise .port .notFound) := by
  rw [codecGet, if_pos h]

/-- A `SET_CONFIG` of a supported parameter on an existing pin runs its body and answers its status. -/
theorem codecSet_free {i : Instr} {tag : ParamTag} {pin : Selector} {value : Word} {s : State}
    (h : pin.toNat < s.cfg.npins) (hl : s.lock = .free) : codecSet i tag pin value s =
      .next ((setBody tag pin.toNat value s).2.respond .port (setBody tag pin.toNat value s).1 0) := by
  rw [codecSet, setConfig_free h (paramTagOf_byte tag) hl]

theorem codecSet_notFound {i : Instr} {tag : ParamTag} {pin : Selector} {value : Word} {s : State}
    (h : s.cfg.npins ≤ pin.toNat) : codecSet i tag pin value s = .next (s.raise .port .notFound) := by
  rw [codecSet, setConfig_notFound h]; rfl

theorem codecSet_held {i : Instr} {tag : ParamTag} {pin : Selector} {value : Word} {s : State}
    (h : pin.toNat < s.cfg.npins) (hl : s.lock = .held) : codecSet i tag pin value s = .next (s.waitAtPort i) := by
  rw [codecSet, setConfig_held h (paramTagOf_byte tag) hl]

/-- Whatever a `SET_CONFIG` command does, it waits, or answers after at most one software write of its pin, the write
only with `Ok`. -/
theorem codecSet_cases {i : Instr} {tag : ParamTag} {pin : Selector} {value : Word} {s t : State}
    (h : codecSet i tag pin value s = .next t) :
    (s.lock = .held ∧ t = s.waitAtPort i) ∨ (∃ st, t = s.respond .port st 0) ∨
    (pin.toNat < s.cfg.npins ∧ ∃ v, t = (s.storePin pin.toNat v).respond .port .ok 0) := by
  unfold codecSet at h
  cases hc : setConfig pin.toNat tag.byte value s with
  | none =>
    left
    refine ⟨?_, by simpa [hc] using h.symm⟩
    by_contra hl
    have hl' : s.lock = .free := by cases hh : s.lock <;> simp_all
    by_cases hn : s.cfg.npins ≤ pin.toNat
    · rw [setConfig_notFound hn] at hc; simp at hc
    · rw [setConfig_free (by omega) (paramTagOf_byte tag) hl'] at hc; simp at hc
  | some r =>
    obtain ⟨st, u⟩ := r
    right
    obtain rfl : u.respond .port st 0 = t := by simpa [hc] using h
    rcases setConfig_cases hc with rfl | ⟨rfl, hn, _, v, rfl⟩
    · exact .inl ⟨st, rfl⟩
    · exact .inr ⟨hn, v, rfl⟩

/-- Whatever a `GET_CONFIG` command does, it waits or answers. -/
theorem codecGet_cases {i : Instr} {tag : ParamTag} {pin : Selector} {s t : State}
    (h : codecGet i tag pin s = .next t) : t = s.waitAtPort i ∨ ∃ st r, t = s.respond .port st r := by
  unfold codecGet at h
  split at h
  · exact .inr ⟨.notFound, 0, by simpa [State.raise] using h.symm⟩
  · rcases portSection_cases h with ⟨_, rfl⟩ | ⟨hl, u, hu, rfl⟩
    · exact .inl rfl
    · right
      refine ⟨.ok, pack tag.byte (configField s.cfg tag (s.x pin.toNat)), ?_⟩
      simp only [Except.ok.injEq] at hu
      subst hu
      simp [State.respond, State.emit, ← hl, State.x]

/-- An unknown parameter is answered without looking at the lock (R182, R183). -/
theorem unknownParam_eq (pin : Selector) (s : State) : unknownParam pin s =
    .next (s.raise .port (if pin.toNat < s.cfg.npins then .notSupported else .notFound)) := by
  unfold unknownParam
  by_cases h : s.cfg.npins ≤ pin.toNat
  · rw [if_pos h, if_neg (by omega)]
  · rw [if_neg h, if_pos (by omega)]

end Sys2Proof.Machine
end

