-- ==== Sys2Proof/Laws/Decode.lean ====
section
/-! SUPPORT. The fields of a packed word, and the decoder on a packed word. -/

namespace Sys2Proof

theorem packWord_toNat (o : BitVec 8) (p : ParamByte) (s : Selector) (d : Word) :
    (packWord o p s d).toNat = o.toNat * 2 ^ 56 + p.toNat * 2 ^ 48 + s.toNat * 2 ^ 32 + d.toNat := by
  have h1 := o.isLt; have h2 := p.isLt; have h3 := s.isLt; have h4 := d.isLt
  simp only [packWord, BitVec.toNat_append]
  rw [← Nat.shiftLeft_add_eq_or_of_lt (by simpa using h4), ← Nat.shiftLeft_add_eq_or_of_lt (by simpa using h3),
    ← Nat.shiftLeft_add_eq_or_of_lt (by simpa using h2)]
  simp only [Nat.shiftLeft_eq]
  omega

@[simp] theorem opcField_packWord (o : BitVec 8) (p : ParamByte) (s : Selector) (d : Word) :
    opcField (packWord o p s d) = o := by
  apply BitVec.eq_of_toNat_eq
  have h1 := o.isLt; have h2 := p.isLt; have h3 := s.isLt; have h4 := d.isLt
  simp only [opcField, BitVec.extractLsb'_toNat, packWord_toNat, Nat.shiftRight_eq_div_pow]
  omega

@[simp] theorem paramField_packWord (o : BitVec 8) (p : ParamByte) (s : Selector) (d : Word) :
    paramField (packWord o p s d) = p := by
  apply BitVec.eq_of_toNat_eq
  have h1 := o.isLt; have h2 := p.isLt; have h3 := s.isLt; have h4 := d.isLt
  simp only [paramField, BitVec.extractLsb'_toNat, packWord_toNat, Nat.shiftRight_eq_div_pow]
  omega

@[simp] theorem selField_packWord (o : BitVec 8) (p : ParamByte) (s : Selector) (d : Word) :
    selField (packWord o p s d) = s := by
  apply BitVec.eq_of_toNat_eq
  have h1 := o.isLt; have h2 := p.isLt; have h3 := s.isLt; have h4 := d.isLt
  simp only [selField, BitVec.extractLsb'_toNat, packWord_toNat, Nat.shiftRight_eq_div_pow]
  omega

@[simp] theorem dataField_packWord (o : BitVec 8) (p : ParamByte) (s : Selector) (d : Word) :
    dataField (packWord o p s d) = d := by
  apply BitVec.eq_of_toNat_eq
  have h1 := o.isLt; have h2 := p.isLt; have h3 := s.isLt; have h4 := d.isLt
  simp only [dataField, BitVec.extractLsb'_toNat, packWord_toNat, Nat.shiftRight_eq_div_pow]
  omega

/-- The decoder reads a word through its four fields alone. -/
@[simp] theorem decode_packWord (o : BitVec 8) (p : ParamByte) (s : Selector) (d : Word) :
    decode (packWord o p s d) = decodeFields o p s d := by
  simp [decode]

/-- A word is its four fields (R101). -/
theorem packWord_fields (w : Command) : packWord (opcField w) (paramField w) (selField w) (dataField w) = w := by
  apply BitVec.eq_of_toNat_eq
  have h := w.isLt
  rw [packWord_toNat]
  simp only [opcField, paramField, selField, dataField, BitVec.extractLsb'_toNat, Nat.shiftRight_eq_div_pow]
  omega

end Sys2Proof
end

