-- ==== Sys2Proof/Laws/DispatchEngine.lean ====
section
/-! SUPPORT. What the steps of the dispatch sequencer do: what none of them touches, and one equation for each step with the lock free. -/

namespace Sys2Proof.Machine

open Sys2Proof

/-! ## What no step of the sequencer touches -/

@[simp] theorem advance_cfg (s : State) : (advance s).cfg = s.cfg := by
  unfold advance; split <;> rfl
@[simp] theorem advance_wsts0 (s : State) : (advance s).wsts0 = s.wsts0 := by
  unfold advance; split <;> rfl
@[simp] theorem advance_wsts1 (s : State) : (advance s).wsts1 = s.wsts1 := by
  unfold advance; split <;> rfl
@[simp] theorem advance_snap (s : State) : (advance s).snap = s.snap := by
  unfold advance; split <;> rfl
@[simp] theorem advance_grp (s : State) : (advance s).grp = s.grp := by
  unfold advance; split <;> rfl
@[simp] theorem advance_sm (s : State) : (advance s).sm = s.sm := by
  unfold advance; split <;> rfl
@[simp] theorem advance_port (s : State) : (advance s).port = s.port := by
  unfold advance; split <;> rfl
@[simp] theorem advance_sched (s : State) : (advance s).sched = s.sched := by
  unfold advance; split <;> rfl
@[simp] theorem advance_draw (s : State) : (advance s).draw = s.draw := by
  unfold advance; split <;> rfl
@[simp] theorem advance_keeps_lock (s : State) : (advance s).lock = s.lock := by
  unfold advance; split <;> rfl
@[simp] theorem advance_pins (s : State) : (advance s).pins = s.pins := by
  unfold advance; split <;> rfl
@[simp] theorem advance_master (s : State) : (advance s).master = s.master := by
  unfold advance; split <;> rfl
@[simp] theorem advance_trace (s : State) : (advance s).trace = s.trace := by
  unfold advance; split <;> rfl

theorem State.locked_of_free {s : State} {body : State → State} (hl : s.lock = .free)
    {t : State} (h : body { s with lock := .held } = { t with lock := .held }) (ht : t.lock = .free) :
    s.locked body = t := by
  rw [State.locked_free hl, h]
  simp [← ht]

/-- The read of a pin, as one section. -/
theorem readSection_free {s : State} (hl : s.lock = .free) :
    (s.locked fun s => { s with disp := { s.disp with v := s.x s.disp.pin } }) =
      { s with disp := { s.disp with v := s.x s.disp.pin } } :=
  State.locked_of_free hl rfl hl

theorem statusStep_free {s : State} (hl : s.lock = .free) : statusStep s =
    { s with disp := { s.disp with
        work := (s.wakeBitmap &&& 0x00003FFFFFFFFFFF#64).setWidth 46
        phase := .next } } :=
  State.locked_of_free hl rfl hl

/-- The three outcomes of the read step (R215 to R220). -/
theorem readStep_past {s : State} (h : s.cfg.npins ≤ s.disp.pin) : readStep s = advance s := by
  simp [readStep, h]

theorem readStep_free {s : State} (h : s.disp.pin < s.cfg.npins) (hl : s.lock = .free) : readStep s =
    readDecision (diagActive { s with disp := { s.disp with v := s.x s.disp.pin } }) := by
  have hr := readSection_free hl
  simp only [readStep, Nat.not_le.mpr h, if_false, hl] at hr ⊢
  rw [hr]

theorem rereadStep_free {s : State} (hl : s.lock = .free) (live : Bool) :
    rereadStep live s = advance (rereadBody live s) := by
  simp only [rereadStep, hl]
  congr 1
  exact State.locked_of_free hl (by unfold rereadBody; cases live <;> rfl) (by unfold rereadBody; cases live <;> exact hl)

theorem eoiStep_free {s : State} (hl : s.lock = .free) : eoiStep s =
    endPass s.disp.result (s.storeMaster (s.master ||| s.cfg.eoiBit)) := by
  have h : (s.locked fun s => s.storeMaster (s.master ||| s.cfg.eoiBit)) = s.storeMaster (s.master ||| s.cfg.eoiBit) := by
    apply State.locked_of_free hl
    · simp only [State.storeMaster, State.emit]; split <;> rfl
    · simpa using hl
  simp only [eoiStep, hl, h]
  simp

/-- What a step of the sequencer leaves as it was, whatever the step and the lock. -/
theorem dispStep_frame (live : Bool) (s : State) :
    (dispStep live s).cfg = s.cfg ∧ (dispStep live s).wsts0 = s.wsts0 ∧ (dispStep live s).wsts1 = s.wsts1
    ∧ (dispStep live s).snap = s.snap ∧ (dispStep live s).grp = s.grp ∧ (dispStep live s).sm = s.sm
    ∧ (dispStep live s).port = s.port ∧ (dispStep live s).sched = s.sched ∧ (dispStep live s).draw = s.draw ∧ (dispStep live s).lock = s.lock := by
  cases hl : s.lock with
  | held =>
    unfold dispStep statusStep nextStep readStep rereadStep eoiStep endPass advance State.locked
    cases s.disp.phase <;> simp only [hl] <;> repeat' split
    all_goals simp [hl]
  | free =>
    unfold dispStep
    cases s.disp.phase
    · simp [hl]
    · simp only [statusStep_free hl]; simp [hl]
    · simp only [nextStep, endPass]; repeat' split
      all_goals simp [hl]
    · simp only
      rcases Nat.lt_or_ge s.disp.pin s.cfg.npins with h | h
      · rw [readStep_free h hl]
        unfold readDecision diagActive endPass callbackEntry
        repeat' split
        all_goals simp [hl]
      · rw [readStep_past h]; simp [hl]
    · simp [hl]
    · simp only [rereadStep_free hl]
      cases live <;> simp [rereadBody, hl]
    · simp only [eoiStep_free hl, endPass]
      simp [hl]

/-- Only the re-read step writes a pin register, and only the one it stands at (R56). -/
theorem dispStep_pins (live : Bool) (s : State) : (dispStep live s).pins = s.pins
    ∨ (s.disp.phase = .reread ∧ s.lock = .free ∧ ∃ v, (dispStep live s).pins = (s.storePin s.disp.pin v).pins) := by
  cases hl : s.lock with
  | held =>
    left
    unfold dispStep statusStep nextStep readStep rereadStep eoiStep endPass advance State.locked
    cases s.disp.phase <;> simp only [hl] <;> repeat' split
    all_goals simp
  | free =>
    unfold dispStep
    cases s.disp.phase
    · simp
    · simp only [statusStep_free hl]; simp
    · left; simp only [nextStep, endPass]; repeat' split
      all_goals simp
    · left; simp only
      rcases Nat.lt_or_ge s.disp.pin s.cfg.npins with h | h
      · rw [readStep_free h hl]
        unfold readDecision diagActive endPass callbackEntry
        repeat' split
        all_goals simp
      · rw [readStep_past h]; simp
    · simp
    · right
      simp only [rereadStep_free hl]
      refine ⟨trivial, trivial, ?_⟩
      cases live
      · exact ⟨s.x s.disp.pin &&& ~~~s.cfg.intMaskBit, by simp [rereadBody]⟩
      · exact ⟨s.x s.disp.pin, by simp [rereadBody, State.x]⟩
    · left; simp only [eoiStep_free hl, endPass]
      simp

/-- Only the end-of-interrupt step writes `MASTER`, and only its one bit (R225). -/
theorem dispStep_master (live : Bool) (s : State) : (dispStep live s).master = s.master
    ∨ (s.disp.phase = .eoi ∧ (dispStep live s).master = s.master ||| s.cfg.eoiBit) := by
  cases hl : s.lock with
  | held =>
    left
    unfold dispStep statusStep nextStep readStep rereadStep eoiStep endPass advance State.locked
    cases s.disp.phase <;> simp only [hl] <;> repeat' split
    all_goals simp
  | free =>
    unfold dispStep
    cases s.disp.phase
    · simp
    · simp only [statusStep_free hl]; simp
    · left; simp only [nextStep, endPass]; repeat' split
      all_goals simp
    · left; simp only
      rcases Nat.lt_or_ge s.disp.pin s.cfg.npins with h | h
      · rw [readStep_free h hl]
        unfold readDecision diagActive endPass callbackEntry
        repeat' split
        all_goals simp
      · rw [readStep_past h]; simp
    · simp
    · left
      simp only [rereadStep_free hl]
      cases live <;> simp [rereadBody]
    · right; simp only [eoiStep_free hl, endPass]
      simp

/-! ## The lowest set bit (R214) -/

theorem lowestSet_none {w : Bitmap} : lowestSet w = none ↔ w = 0#46 := by
  unfold lowestSet
  rw [List.find?_eq_none]
  constructor
  · intro h
    apply BitVec.eq_of_getLsbD_eq
    intro j hj
    have := h j (by simpa using hj)
    simpa using this
  · rintro rfl j _; simp

theorem lowestSet_some {w : Bitmap} {k : Nat} (hk : k < 46) (h : w.getLsbD k = true)
    (hlt : ∀ j < k, w.getLsbD j = false) : lowestSet w = some k := by
  unfold lowestSet
  rw [List.find?_eq_some_iff_getElem]
  refine ⟨h, k, by simpa using hk, by simp, ?_⟩
  intro j hj
  simp [-BitVec.getLsbD_eq_getElem, hlt j hj]

/-- `advance`, as a change of the sequencer (R223). -/
theorem advance_eq (s : State) : advance s = { s with disp :=
    if s.disp.i < 3 then { s.disp with i := s.disp.i + 1, phase := .read } else { s.disp with phase := .next } } := by
  unfold advance; split <;> rfl

/-- Nothing clears the flag during a pass (R50). -/
theorem dispStep_handled (live : Bool) (s : State) (h : s.disp.handled = true) :
    (dispStep live s).disp.handled = true := by
  have ha : ∀ u : State, u.disp.handled = true → (advance u).disp.handled = true := by
    intro u hu; unfold advance; split <;> exact hu
  have hdg : ∀ u : State, (diagActive u).disp = u.disp := by
    intro u; unfold diagActive; split <;> rfl
  have hloc : ∀ (u : State) (b : State → State), (∀ v, v.disp.handled = true → (b v).disp.handled = true) →
      u.disp.handled = true → (u.locked b).disp.handled = true := by
    intro u b hb hu; unfold State.locked; split
    · exact hu
    · exact hb _ hu
  unfold dispStep
  cases s.disp.phase
  · exact h
  · exact hloc _ _ (fun _ hv => hv) h
  · simp only [nextStep, endPass]
    repeat' split
    all_goals exact h
  · simp only [readStep]
    split
    · exact ha _ h
    · split
      · exact h
      · have := hloc s (fun s => { s with disp := { s.disp with v := s.x s.disp.pin } }) (fun _ hv => hv) h
        rw [← hdg] at this
        unfold readDecision
        split
        · split
          · exact this
          · exact ha _ this
        · split
          · exact ha _ this
          · exact this
  · exact h
  · simp only [rereadStep]
    split
    · exact h
    · apply ha
      apply hloc _ _ _ h
      intro v hv
      cases live
      · exact hv
      · rfl
  · simp only [eoiStep]
    split
    · exact h
    · simp only [endPass]
      have := hloc s (fun s => s.storeMaster (s.master ||| s.cfg.eoiBit)) (by intro v hv; simpa using hv) h
      simpa using this

end Sys2Proof.Machine
end

