-- ==== Sys2Proof/Laws/Pins.lean ====
section
/-! SUPPORT. How software writes change the pin registers: only the register they name, and never a read-only bit (R40, R76). -/

namespace Sys2Proof.Machine

open Sys2Proof

/-- The pin registers of the two states agree but for the writable bits of pin `p`. -/
def OnlyPin (p : Nat) (s t : State) : Prop :=
  t.cfg = s.cfg ∧ t.pins.length = s.pins.length ∧
    ∀ q, t.x q &&& s.cfg.roMask = s.x q &&& s.cfg.roMask ∧ (q ≠ p → t.x q = s.x q)

/-- Nothing written. -/
theorem OnlyPin.of_same {p : Nat} {s t : State} (hc : t.cfg = s.cfg) (hp : t.pins = s.pins) : OnlyPin p s t :=
  ⟨hc, by rw [hp], fun q => by rw [State.x_congr hp q]; exact ⟨rfl, fun _ => rfl⟩⟩

/-- One after the other. -/
theorem OnlyPin.trans {p : Nat} {s t u : State} (h : OnlyPin p s t) (h' : OnlyPin p t u) : OnlyPin p s u := by
  obtain ⟨hc, hl, hx⟩ := h
  obtain ⟨hc', hl', hx'⟩ := h'
  rw [hc] at hx'
  exact ⟨hc'.trans hc, hl'.trans hl, fun q =>
    ⟨(hx' q).1.trans (hx q).1, fun hq => ((hx' q).2 hq).trans ((hx q).2 hq)⟩⟩

/-- One software write. -/
theorem OnlyPin.storePin (s : State) (p : Nat) (v : Word) : OnlyPin p s (s.storePin p v) := by
  refine ⟨rfl, by simp, fun q => ?_⟩
  by_cases hq : q = p
  · subst hq
    refine ⟨?_, fun h => absurd rfl h⟩
    by_cases hl : q < s.pins.length
    · rw [State.x_storePin_self hl, hwMerge_and_mask]
    · rw [State.x_congr (s := s) (List.set_eq_of_length_le (by omega)) q]
  · rw [State.x_storePin_other hq]
    exact ⟨rfl, fun _ => rfl⟩

/-- It depends on the two register files and configurations alone. -/
theorem OnlyPin.congr {p : Nat} {s t t' : State} (h : OnlyPin p s t) (hc : t'.cfg = t.cfg) (hp : t'.pins = t.pins) :
    OnlyPin p s t' := h.trans (OnlyPin.of_same hc hp)

end Sys2Proof.Machine
end

