-- ==== Sys2Proof/Laws/Group.lean ====
section
/-! SUPPORT. What the steps of the group sequencer do (R188). -/

namespace Sys2Proof.Machine

open Sys2Proof

/-- At the end of the list the answer is `Ok`. -/
theorem grpStep_end {s : State} (hr : s.grp.phase = .run) (h : s.grp.list.length ≤ s.grp.j) :
    grpStep s = { s with grp := { s.grp with phase := .idle } }.respond .grp .ok 0 := by
  simp [grpStep, hr, List.getElem?_eq_none h]

/-- One pin: what its `SET_CONFIG` answered decides. -/
theorem grpStep_pin {s t : State} (hr : s.grp.phase = .run) {p : Nat} (h : s.grp.list[s.grp.j]? = some p)
    {st : Status} (hc : setConfig p s.grp.param s.grp.value s = some (st, t)) : grpStep s =
      if st = .ok then { t with grp := { t.grp with j := t.grp.j + 1 } }
      else { t with grp := { t.grp with phase := .idle } }.respond .grp st 0 := by
  simp [grpStep, hr, h, hc]

/-- What a step of the group sequencer leaves as it was, and that it writes at most one pin. -/
theorem grpStep_frame (s : State) :
    (∃ p, OnlyPin p s (grpStep s)) ∧ (grpStep s).wsts0 = s.wsts0 ∧ (grpStep s).wsts1 = s.wsts1
    ∧ (grpStep s).master = s.master ∧ (grpStep s).snap = s.snap ∧ (grpStep s).disp = s.disp
    ∧ (grpStep s).sm = s.sm ∧ (grpStep s).port = s.port ∧ (grpStep s).sched = s.sched
    ∧ (grpStep s).draw = s.draw
    ∧ (grpStep s).lock = s.lock := by
  cases hr : s.grp.phase with
  | idle =>
    have : grpStep s = s := by simp [grpStep, hr]
    rw [this]; exact ⟨⟨0, .of_same rfl rfl⟩, by simp⟩
  | run =>
    rcases Nat.lt_or_ge s.grp.j s.grp.list.length with h | h
    · have hp : s.grp.list[s.grp.j]? = some s.grp.list[s.grp.j] := List.getElem?_eq_getElem h
      cases hc : setConfig s.grp.list[s.grp.j] s.grp.param s.grp.value s with
      | none =>
        have : grpStep s = s := by simp only [grpStep, hr, hp, hc]
        rw [this]; exact ⟨⟨0, .of_same rfl rfl⟩, by simp⟩
      | some r =>
        obtain ⟨st, t⟩ := r
        rw [grpStep_pin hr hp hc]
        have ht : OnlyPin s.grp.list[s.grp.j] s t ∧ t.wsts0 = s.wsts0 ∧ t.wsts1 = s.wsts1 ∧ t.master = s.master
            ∧ t.snap = s.snap ∧ t.disp = s.disp ∧ t.sm = s.sm ∧ t.port = s.port ∧ t.sched = s.sched ∧ t.draw = s.draw
            ∧ t.lock = s.lock := by
          rcases setConfig_cases hc with rfl | ⟨_, _, _, v, rfl⟩
          · exact ⟨.of_same rfl rfl, by simp⟩
          · exact ⟨.storePin s _ v, by simp⟩
        split
        · exact ⟨⟨_, ht.1.congr rfl rfl⟩, ht.2⟩
        · exact ⟨⟨_, ht.1.congr rfl rfl⟩, ht.2⟩
    · rw [grpStep_end hr h]
      exact ⟨⟨0, .of_same rfl rfl⟩, by simp⟩

/-- The index of the group sequencer stays within its list. -/
theorem grpStep_index {s : State} (h : s.grp.phase = .run → s.grp.j ≤ s.grp.list.length) :
    (grpStep s).grp.phase = .run → (grpStep s).grp.j ≤ (grpStep s).grp.list.length := by
  cases hr : s.grp.phase with
  | idle => simp [grpStep, hr]
  | run =>
    rcases Nat.lt_or_ge s.grp.j s.grp.list.length with hj | hj
    · have hp : s.grp.list[s.grp.j]? = some s.grp.list[s.grp.j] := List.getElem?_eq_getElem hj
      cases hc : setConfig s.grp.list[s.grp.j] s.grp.param s.grp.value s with
      | none =>
        have : grpStep s = s := by simp only [grpStep, hr, hp, hc]
        rw [this]; exact h
      | some r =>
        obtain ⟨st, t⟩ := r
        rw [grpStep_pin hr hp hc]
        have ht : t.grp = s.grp := by
          rcases setConfig_cases hc with rfl | ⟨_, _, _, v, rfl⟩ <;> rfl
        split
        · intro _; simp [ht]; omega
        · simp
    · rw [grpStep_end hr hj]; simp

end Sys2Proof.Machine
end

