-- ==== Sys2Proof/Laws/StateManager.lean ====
section
/-! SUPPORT. What the steps of the state-manager sequencer do (R252, R257, R260): what none of them touches, and one equation for each with the lock free. -/

namespace Sys2Proof.Machine

open Sys2Proof Sys2Proof.Safety

/-! ## The section of `ENTER` -/

/-- Source step 3 touches the pin registers and emits. -/
theorem maskNonwake_eq (mode : Mode) (p : Nat) (w : Word) (s : State) : maskNonwake mode p w s =
    { s with pins := (maskNonwake mode p w s).pins, trace := (maskNonwake mode p w s).trace } := by
  unfold maskNonwake; split <;> rfl

/-- Source step 4 touches the pin registers and emits. -/
theorem clearDebounce_eq (p : Nat) (w : Word) (s : State) : clearDebounce p w s =
    { s with pins := (clearDebounce p w s).pins, trace := (clearDebounce p w s).trace } := by
  unfold clearDebounce; split
  · rw [setDebounceBody_zero]; rfl
  · rfl

theorem saveBody_eq (mode : Mode) (p : Nat) (s : State) : saveBody mode p s =
    { s with
      snap := s.snap.set p (some (s.x p &&& ~~~s.cfg.pendingBit))
      pins := (saveBody mode p s).pins
      trace := (saveBody mode p s).trace } := by
  simp only [saveBody]
  rw [clearDebounce_eq, maskNonwake_eq]

theorem maskNonwake_onlyPin (mode : Mode) (p : Nat) (w : Word) (s : State) :
    OnlyPin p s (maskNonwake mode p w s) := by
  unfold maskNonwake; split
  · exact .of_same rfl rfl
  · exact (OnlyPin.storePin s p _).congr rfl rfl

theorem clearDebounce_onlyPin (p : Nat) (w : Word) (s : State) : OnlyPin p s (clearDebounce p w s) := by
  unfold clearDebounce; split
  · rw [setDebounceBody_zero]
    exact (OnlyPin.storePin s p _).congr rfl rfl
  · exact .of_same rfl rfl

theorem saveBody_onlyPin (mode : Mode) (p : Nat) (s : State) : OnlyPin p s (saveBody mode p s) :=
  ((OnlyPin.of_same (t := { s with snap := s.snap.set p (some (s.x p &&& ~~~s.cfg.pendingBit)) }) rfl rfl).trans
    (maskNonwake_onlyPin mode p _ _)).trans (clearDebounce_onlyPin p _ _)

/-- A merge whose new word differs from the old one only in read-only bits and in bits cleared outside them. -/
theorem hwMerge_clear_pending {m ro pend : Word} (hp : pend &&& ~~~ro = 0#32) (hm : m &&& ro = 0#32) (w : Word) :
    hwMerge ro w ((w &&& ~~~pend) &&& ~~~m) = w &&& ~~~m := by
  apply BitVec.eq_of_getLsbD_eq
  intro j hj
  rw [getLsbD_hwMerge]
  by_cases hr : ro.getLsbD j
  · have hmj : m.getLsbD j = false := by
      by_contra hc
      have := (and_eq_zero_iff _ _).mp hm j hj (by simpa using hc)
      simp [hr] at this
    simp [-BitVec.getLsbD_eq_getElem, hr, hmj, hj]
  · have hpj : pend.getLsbD j = false := by
      by_contra hc
      have := (and_eq_zero_iff _ _).mp hp j hj (by simpa using hc)
      simp [-BitVec.getLsbD_eq_getElem, hr, hj] at this
    simp [-BitVec.getLsbD_eq_getElem, hr, hpj, hj]

/-- Source step 3 on a pin that is no wake source for the mode (R254, R255). -/
theorem maskNonwake_write {s : State} (hw : s.cfg.wf = true) {mode : Mode} {p : Nat}
    (h : anySet (s.x p &&& ~~~s.cfg.pendingBit) (wakeMask s.cfg mode) = false) :
    maskNonwake mode p (s.x p &&& ~~~s.cfg.pendingBit) s = { s with
      pins := s.pins.set p (s.x p &&& ~~~s.cfg.intMaskBit)
      trace := s.trace ++ [.diagNonwakeMasked p mode] } := by
  have hv := hwMerge_clear_pending (Config.pending_in_roMask hw) (Config.intMask_disjoint_roMask hw) (s.x p)
  simp only [maskNonwake, h, Bool.false_eq_true, if_false, State.storePin, hv]
  rfl

/-- Source step 4 on a pin whose count was not zero (R256). -/
theorem clearDebounce_write {s : State} (hw : s.cfg.wf = true) {p : Nat} {w : Word}
    (h : anySet w s.cfg.dbCntField = true) : clearDebounce p w s = { s with
      pins := s.pins.set p (s.x p &&& ~~~s.cfg.dbCntField)
      trace := s.trace ++ [.diagDebounceCleared p] } := by
  simp only [clearDebounce, h, if_true, setDebounceBody_zero, storeCount,
    storePin_fieldSet (Config.dbCnt_disjoint_roMask hw)]
  rw [fieldSet_zero]
  rfl

/-- R257: the whole section of `ENTER` for one eligible pin. -/
theorem saveBody_value {s : State} (hw : s.cfg.wf = true) {p : Nat} (hp : p < s.pins.length) (mode : Mode) :
    saveBody mode p s = { s with
      snap := s.snap.set p (some (s.x p &&& ~~~s.cfg.pendingBit))
      pins := s.pins.set p (savedLive s.cfg mode (s.x p))
      trace := s.trace ++ savedEvents s.cfg mode p (s.x p) } := by
  have hself := State.set_pins_self s p
  have hcl : ∀ u : State, u.cfg = s.cfg → anySet (s.x p &&& ~~~s.cfg.pendingBit) s.cfg.dbCntField = true →
      clearDebounce p (s.x p &&& ~~~s.cfg.pendingBit) u = { u with
        pins := u.pins.set p (u.x p &&& ~~~s.cfg.dbCntField)
        trace := u.trace ++ [.diagDebounceCleared p] } := fun u hu h2 => by
    rw [clearDebounce_write (by rw [hu]; exact hw) (by rw [hu]; exact h2), hu]
  unfold saveBody savedLive savedEvents
  cases h1 : anySet (s.x p &&& ~~~s.cfg.pendingBit) (wakeMask s.cfg mode) <;>
  cases h2 : anySet (s.x p &&& ~~~s.cfg.pendingBit) s.cfg.dbCntField
  · have hm := maskNonwake_write (s := { s with snap := s.snap.set p (some (s.x p &&& ~~~s.cfg.pendingBit)) }) hw h1
    have hx : ({ s with snap := s.snap.set p (some (s.x p &&& ~~~s.cfg.pendingBit)) } : State).x p = s.x p := rfl
    rw [hx] at hm
    simp only [hm]
    simp [clearDebounce, h1, h2]
  · have hm := maskNonwake_write (s := { s with snap := s.snap.set p (some (s.x p &&& ~~~s.cfg.pendingBit)) }) hw h1
    have hx : ({ s with snap := s.snap.set p (some (s.x p &&& ~~~s.cfg.pendingBit)) } : State).x p = s.x p := rfl
    rw [hx] at hm
    simp only [hm]
    refine (hcl _ ?_ h2).trans ?_
    · rfl
    simp [State.x, hp] at h1 h2 ⊢
    simp [h1, h2]
  · simp [maskNonwake, h1, clearDebounce, h2, hself]
  · have hm : maskNonwake mode p (s.x p &&& ~~~s.cfg.pendingBit)
        { s with snap := s.snap.set p (some (s.x p &&& ~~~s.cfg.pendingBit)) } =
        { s with snap := s.snap.set p (some (s.x p &&& ~~~s.cfg.pendingBit)) } := by simp [maskNonwake, h1]
    simp only [hm]
    refine (hcl _ ?_ h2).trans ?_
    · rfl
    simp [State.x] at h1 h2 ⊢
    simp [h1, h2]

/-! ## The steps -/

theorem saveStep_end {s : State} (h : s.cfg.npins ≤ s.sm.pin) (e : Bool) : saveStep e s = endManager s := by
  simp [saveStep, h]

theorem saveStep_skip {s : State} (h : s.sm.pin < s.cfg.npins) : saveStep false s = nextPin s := by
  simp [saveStep, Nat.not_le.mpr h]

theorem saveStep_free {s : State} (h : s.sm.pin < s.cfg.npins) (hl : s.lock = .free) :
    saveStep true s = nextPin (s.locked (saveBody s.sm.mode s.sm.pin)) := by
  simp [saveStep, Nat.not_le.mpr h, hl]

theorem restStep_end {s : State} (h : s.cfg.npins ≤ s.sm.pin) (e : Bool) : restStep e s = endManager s := by
  simp [restStep, h]

theorem restStep_skip {s : State} (h : s.sm.pin < s.cfg.npins) : restStep false s = nextPin s := by
  simp [restStep, Nat.not_le.mpr h]

theorem restStep_none {s : State} (h : s.sm.pin < s.cfg.npins) (hn : s.slot s.sm.pin = none) (e : Bool) :
    restStep e s = nextPin s := by
  cases e <;> simp [restStep, Nat.not_le.mpr h, hn]

theorem restStep_free {s : State} (h : s.sm.pin < s.cfg.npins) {w : Word} (hn : s.slot s.sm.pin = some w)
    (hl : s.lock = .free) : restStep true s = nextPin (s.storePin s.sm.pin w) := by
  simp only [restStep, Nat.not_le.mpr h, hn, hl, if_false, if_true]
  congr 1
  simp [State.locked, hl, restoreBody, State.storePin, State.x]

theorem maskNonwake_lock (mode : Mode) (p : Nat) (w : Word) (s : State) (l : Lock) :
    maskNonwake mode p w { s with lock := l } = { maskNonwake mode p w s with lock := l } := by
  cases h : anySet w (wakeMask s.cfg mode)
  · simp only [maskNonwake, h, Bool.false_eq_true, if_false]; rfl
  · simp only [maskNonwake, h, if_true]

theorem clearDebounce_lock (p : Nat) (w : Word) (s : State) (l : Lock) :
    clearDebounce p w { s with lock := l } = { clearDebounce p w s with lock := l } := by
  cases h : anySet w s.cfg.dbCntField
  · simp only [clearDebounce, h, Bool.false_eq_true, if_false]
  · simp only [clearDebounce, h, if_true, setDebounceBody_zero]; rfl

/-- The section of `ENTER` keeps the lock free. -/
theorem locked_saveBody {s : State} (hl : s.lock = .free) (mode : Mode) (p : Nat) :
    s.locked (saveBody mode p) = saveBody mode p s := by
  have h : saveBody mode p { s with lock := .held } = { saveBody mode p s with lock := .held } := by
    have hx : ({ s with lock := .held } : State).x p = s.x p := rfl
    simp only [saveBody, hx]
    rw [← clearDebounce_lock, ← maskNonwake_lock]
  rw [State.locked_free hl, h, saveBody_eq]
  simp [← hl]

/-- One step of `ENTER` on an eligible pin (R252, R257). -/
theorem saveStep_value {s : State} (hw : s.cfg.wf = true) (hm : s.pins.length = s.cfg.npins)
    (hl : s.lock = .free) (hp : s.sm.pin < s.cfg.npins)
    : saveStep true s = { s with
        sm := { s.sm with pin := s.sm.pin + 1 }
        snap := s.snap.set s.sm.pin (some (s.x s.sm.pin &&& ~~~s.cfg.pendingBit))
        pins := s.pins.set s.sm.pin (savedLive s.cfg s.sm.mode (s.x s.sm.pin))
        trace := s.trace ++ savedEvents s.cfg s.sm.mode s.sm.pin (s.x s.sm.pin) } := by
  rw [saveStep_free hp hl, locked_saveBody hl, saveBody_value hw (by omega)]; rfl

/-- What a step of the state manager leaves as it was (R263), and that it writes only the pin it stands at. -/
theorem smStep_frame (e : Bool) (s : State) :
    OnlyPin s.sm.pin s (smStep e s) ∧ (smStep e s).wsts0 = s.wsts0 ∧ (smStep e s).wsts1 = s.wsts1
    ∧ (smStep e s).master = s.master ∧ (smStep e s).disp = s.disp ∧ (smStep e s).grp = s.grp
    ∧ (smStep e s).port = s.port ∧ (smStep e s).sched = s.sched ∧ (smStep e s).draw = s.draw ∧ (smStep e s).lock = s.lock
    ∧ ((smStep e s).snap = s.snap ∨ (e = true ∧ s.sm.phase = .save ∧ s.sm.pin < s.cfg.npins ∧
        (smStep e s).snap = s.snap.set s.sm.pin (some (s.x s.sm.pin &&& ~~~s.cfg.pendingBit)))) := by
  have hsame : OnlyPin s.sm.pin s s := .of_same rfl rfl
  have hnext : OnlyPin s.sm.pin s (nextPin s) := .of_same rfl rfl
  have hend : OnlyPin s.sm.pin s (endManager s) := .of_same rfl rfl
  unfold smStep
  cases hph : s.sm.phase
  · exact ⟨hsame, by simp⟩
  · simp only
    rcases Nat.lt_or_ge s.sm.pin s.cfg.npins with h | h
    · cases e
      · rw [saveStep_skip h]; exact ⟨hnext, by simp [nextPin]⟩
      · cases hl : s.lock with
        | held =>
          have : saveStep true s = s := by simp [saveStep, Nat.not_le.mpr h, hl]
          rw [this]; exact ⟨hsame, by simp [hl]⟩
        | free =>
          rw [saveStep_free h hl, locked_saveBody hl]
          refine ⟨(saveBody_onlyPin s.sm.mode s.sm.pin s).congr rfl rfl, ?_⟩
          rw [saveBody_eq]; simp [nextPin, hl, h]
    · rw [saveStep_end h]; exact ⟨hend, by simp [endManager]⟩
  · simp only
    rcases Nat.lt_or_ge s.sm.pin s.cfg.npins with h | h
    · cases e
      · rw [restStep_skip h]; exact ⟨hnext, by simp [nextPin]⟩
      · cases hs : s.slot s.sm.pin with
        | none => rw [restStep_none h hs]; exact ⟨hnext, by simp [nextPin]⟩
        | some w =>
          cases hl : s.lock with
          | held =>
            have : restStep true s = s := by simp [restStep, Nat.not_le.mpr h, hs, hl]
            rw [this]; exact ⟨hsame, by simp [hl]⟩
          | free =>
            rw [restStep_free h hs hl]
            exact ⟨(OnlyPin.storePin s s.sm.pin w).congr rfl rfl, by simp [nextPin, hl]⟩
    · rw [restStep_end h]; exact ⟨hend, by simp [endManager]⟩

end Sys2Proof.Machine
end

