-- ==== Sys2Proof/Laws/Step.lean ====
section
/-! SUPPORT. What one step can do, said once: the cases of a command's meaning and of a choice of the schedule. -/

namespace Sys2Proof.Machine

open Sys2Proof Sys2Proof.Safety

/-! ## Commands -/

/-- Whatever a single-step command does: it waits, or only answers (an error with `RDATA = 0`), or writes the one pin
register its meaning names, or it is `WRITE_MASTER`. -/
theorem exec_singleStep_cases {i : Instr} {s t : State} (hw : s.cfg.wf = true) (hi : singleStep i = true)
    (h : exec i s = .next t) :
    (s.lock = .held ∧ t = s.waitAtPort i)
    ∨ (∃ st r, (st ≠ .ok → r = 0) ∧ t = s.respond .port st r)
    ∨ (∃ pin v, storedAddress s.cfg i = some (pinAddress s.cfg pin) ∧ pin < s.cfg.npins
        ∧ t = (s.storePin pin v).respond .port .ok 0)
    ∨ (∃ data, i = .writeMaster data ∧ t = (s.storeMaster data).respond .port .ok 0) := by
  have hget : ∀ {tag : ParamTag} {pin : Selector}, codecGet i tag pin s = .next t →
      (s.lock = .held ∧ t = s.waitAtPort i) ∨ ∃ st r, (st ≠ Status.ok → r = 0) ∧ t = s.respond .port st r := by
    intro tag pin h
    by_cases hn : s.cfg.npins ≤ pin.toNat
    · rw [codecGet_notFound hn] at h
      exact .inr ⟨.notFound, 0, by simp, by simpa [State.raise] using h.symm⟩
    · cases hl : s.lock with
      | held =>
        left
        rw [codecGet, if_neg hn, portSection_held hl] at h
        exact ⟨rfl, by simpa using h.symm⟩
      | free =>
        rw [codecGet_free (by omega) hl] at h
        exact .inr ⟨.ok, _, by simp, by simpa using h.symm⟩
  have hset : ∀ {tag : ParamTag} {pin : Selector} {v : Word}, codecSet i tag pin v s = .next t →
      storedAddress s.cfg i = some (pinAddress s.cfg pin.toNat) →
      (s.lock = .held ∧ t = s.waitAtPort i) ∨ (∃ st r, (st ≠ Status.ok → r = 0) ∧ t = s.respond .port st r)
      ∨ ∃ pin v, storedAddress s.cfg i = some (pinAddress s.cfg pin) ∧ pin < s.cfg.npins
        ∧ t = (s.storePin pin v).respond .port .ok 0 := by
    intro tag pin v h ha
    rcases codecSet_cases h with h1 | ⟨st, h1⟩ | ⟨hp, v', h1⟩
    · exact .inl h1
    · exact .inr (.inl ⟨st, 0, by simp, h1⟩)
    · exact .inr (.inr ⟨pin.toNat, v', ha, hp, h1⟩)
  have hunk : ∀ {pin : Selector}, unknownParam pin s = .next t →
      ∃ st r, (st ≠ Status.ok → r = 0) ∧ t = s.respond .port st r := by
    intro pin h
    rw [unknownParam_eq] at h
    exact ⟨_, 0, by simp, by simpa [State.raise] using h.symm⟩
  cases i <;> simp only [singleStep, Bool.false_eq_true] at hi <;> simp only [exec] at h
  case readPin pin =>
    rcases execReadPin_cases hw h with h1 | h1 | ⟨r, h1⟩
    · exact .inl h1
    · exact .inr (.inl ⟨.notFound, 0, by simp, h1⟩)
    · exact .inr (.inl ⟨.ok, r, by simp, h1⟩)
  case writePin pin data =>
    rcases execWritePin_cases hw h with h1 | h1 | ⟨hp, h1⟩
    · exact .inl h1
    · exact .inr (.inl ⟨.notFound, 0, by simp, h1⟩)
    · exact .inr (.inr (.inl ⟨pin.toNat, data, rfl, hp, h1⟩))
  case readWakeStatus =>
    rcases execReadWakeStatus_cases hw h with h1 | ⟨r, h1⟩
    · exact .inl h1
    · exact .inr (.inl ⟨.ok, r, by simp, h1⟩)
  case readMaster =>
    rcases execReadMaster_cases hw h with h1 | ⟨r, h1⟩
    · exact .inl h1
    · exact .inr (.inl ⟨.ok, r, by simp, h1⟩)
  case writeMaster data =>
    rcases execWriteMaster_cases hw h with h1 | h1
    · exact .inl h1
    · exact .inr (.inr (.inr ⟨data, rfl, h1⟩))
  case getDebounce | getPullDown | getPullUp | getDriveStrength =>
    rcases hget h with h1 | h1
    · exact .inl h1
    · exact .inr (.inl h1)
  case setDebounce | setPullDown | setPullUp | setDriveStrength =>
    rcases hset h rfl with h1 | h1 | h1
    · exact .inl h1
    · exact .inr (.inl h1)
    · exact .inr (.inr (.inl h1))
  all_goals exact .inr (.inl (hunk h))

/-- Whatever the acceptance of a multi-step command does: it waits, or is answered with an error, or its own sequencer
starts; and it always goes on. -/
theorem exec_multiStep_cases {i : Instr} {s : State} (hi : singleStep i = false) :
    ∃ t, exec i s = .next t ∧ (t = s.waitAtPort i ∨ t = s.raise .port .notFound
      ∨ (s.grp.phase = .idle ∧ ∃ g p v l, i = .setConfigGroup g p v
          ∧ t = { s with grp := { phase := .run, list := l, j := 0, param := p, value := v } })
      ∨ (s.disp.phase = .idle ∧ ∃ irq, (i = .dispatchHw irq ∨ i = .dispatchQuery irq)
          ∧ t = { s with disp := startedDisp (ctxOf irq) s.draw })
      ∨ (s.sm.phase = .idle ∧ (i = .enterSuspend ∨ i = .enterHibernate ∨ i = .restore)
          ∧ ∃ m ph, ph ≠ .idle ∧ t = { s with sm := { phase := ph, mode := m, pin := 0 } })) := by
  cases i <;> simp only [singleStep, Bool.true_eq_false] at hi
  case setConfigGroup g p v =>
    simp only [exec, execSetConfigGroup]
    split
    · exact ⟨_, rfl, .inr (.inl rfl)⟩
    · next l _ =>
      split
      · exact ⟨_, rfl, .inl rfl⟩
      · next hph => exact ⟨_, rfl, .inr (.inr (.inl ⟨hph, g, p, v, l, rfl, rfl⟩))⟩
  case dispatchHw irq =>
    simp only [exec, execDispatchHw, acceptDispatch]
    split
    · next hph => exact ⟨_, rfl, .inr (.inr (.inr (.inl ⟨hph, irq, .inl rfl, rfl⟩)))⟩
    · exact ⟨_, rfl, .inl rfl⟩
  case dispatchQuery irq =>
    simp only [exec, execDispatchQuery, acceptDispatch]
    split
    · next hph => exact ⟨_, rfl, .inr (.inr (.inr (.inl ⟨hph, irq, .inr rfl, rfl⟩)))⟩
    · exact ⟨_, rfl, .inl rfl⟩
  case enterSuspend =>
    simp only [exec, execEnterSuspend, acceptEnter]
    split
    · next hph => exact ⟨_, rfl, .inr (.inr (.inr (.inr ⟨hph, by simp, .suspend, .save, by simp, rfl⟩)))⟩
    · exact ⟨_, rfl, .inl rfl⟩
  case enterHibernate =>
    simp only [exec, execEnterHibernate, acceptEnter]
    split
    · next hph => exact ⟨_, rfl, .inr (.inr (.inr (.inr ⟨hph, by simp, .hibernate, .save, by simp, rfl⟩)))⟩
    · exact ⟨_, rfl, .inl rfl⟩
  case restore =>
    simp only [exec, execRestore]
    split
    · next hph => exact ⟨_, rfl, .inr (.inr (.inr (.inr ⟨hph, by simp, s.draw.mode, .rest, by simp, rfl⟩)))⟩
    · exact ⟨_, rfl, .inl rfl⟩

/-- In a well-formed configuration every command goes on (R287). -/
theorem exec_goes_on {s : State} (hw : s.cfg.wf = true) (i : Instr) : ∃ t, exec i s = .next t := by
  by_cases hm : singleStep i = false
  · obtain ⟨t, ht, _⟩ := exec_multiStep_cases hm
    exact ⟨t, ht⟩
  · have hget : ∀ {tag : ParamTag} {pin : Selector}, ∃ t, codecGet i tag pin s = .next t := by
      intro tag pin
      by_cases hn : s.cfg.npins ≤ pin.toNat
      · exact ⟨_, codecGet_notFound hn⟩
      · cases hl : s.lock with
        | held => exact ⟨_, by rw [codecGet, if_neg hn]; exact portSection_held hl _ _⟩
        | free => exact ⟨_, codecGet_free (by omega) hl⟩
    have hset : ∀ {tag : ParamTag} {pin : Selector} {v : Word}, ∃ t, codecSet i tag pin v s = .next t := by
      intro tag pin v
      unfold codecSet; split <;> exact ⟨_, rfl⟩
    cases i <;> simp only [singleStep, not_true_eq_false, Bool.true_eq_false, not_false_eq_true] at hm
    case readPin pin => exact (bank_answers hw pin 0).1
    case writePin pin data => exact (bank_answers hw pin data).2.1
    case readWakeStatus => exact (bank_answers hw 0 0).2.2.1
    case readMaster => exact (bank_answers hw 0 0).2.2.2.1
    case writeMaster data => exact (bank_answers hw 0 data).2.2.2.2
    case getDebounce | getPullDown | getPullUp | getDriveStrength => exact hget
    case setDebounce | setPullDown | setPullUp | setDriveStrength => exact hset
    all_goals exact ⟨_, unknownParam_eq _ s⟩

/-! ## The step -/

/-- A step that goes on: the configuration is well formed, and either no choice is left or the next one was carried
out. -/
theorem step_cases {s t : State} (h : step s = .next t) : s.cfg.wf = true ∧
    ((s.sched = [] ∧ t = s) ∨ ∃ a rest, s.sched = a :: rest ∧ runAct a { s with sched := rest } = .next t) := by
  unfold step at h
  split at h
  · next hw =>
    refine ⟨hw, ?_⟩
    unfold runSchedule at h
    split at h
    · next hs => exact .inl ⟨hs, by simpa using h.symm⟩
    · next a rest hs => exact .inr ⟨a, rest, hs, h⟩
  · simp at h

/-- A choice carried out now. -/
theorem drive_eq {s : State} (hw : s.cfg.wf = true) (a : Act) : drive a s = runAct a s := by
  simp [drive, step, hw, runSchedule]

/-- What taking up a command can change of the snapshot, `MASTER` and the dispatch sequencer (R43, R44, R50, R56). -/
theorem acceptNth_cases {s t : State} {n : Nat} (hw : s.cfg.wf = true) (h : acceptNth n s = .next t) :
    t.snap = s.snap
    ∧ (t.master = s.master
      ∨ ∃ w data, s.port[n]? = some w ∧ decode w = .ok (.writeMaster data) ∧ t.master = data)
    ∧ (t.disp = s.disp
      ∨ (s.disp.phase = .idle ∧ t.disp.phase = .status ∧ ∃ w irq, s.port[n]? = some w
        ∧ (decode w = .ok (.dispatchHw irq) ∨ decode w = .ok (.dispatchQuery irq)))) := by
  simp only [acceptNth] at h
  split at h
  · obtain rfl := by simpa using h
    exact ⟨rfl, .inl rfl, .inl rfl⟩
  · next w hwp =>
    simp only [takeCommand] at h
    split at h
    · next i hdec =>
      by_cases hm : singleStep i = true
      · rcases exec_singleStep_cases (by exact hw) hm h with
          ⟨_, rfl⟩ | ⟨st, r, _, rfl⟩ | ⟨p, x, _, _, rfl⟩ | ⟨data, rfl, rfl⟩
        · exact ⟨rfl, .inl rfl, .inl rfl⟩
        · exact ⟨rfl, .inl rfl, .inl rfl⟩
        · exact ⟨rfl, .inl rfl, .inl rfl⟩
        · exact ⟨by simp, .inr ⟨w, data, hwp, hdec, by simp⟩, .inl (by simp)⟩
      · obtain ⟨t', ht', hc⟩ := exec_multiStep_cases (s := { s with port := s.port.eraseIdx n }) (i := i)
          (by simpa using hm)
        rw [ht'] at h
        obtain rfl := by simpa using h
        rcases hc with rfl | rfl | ⟨_, g, p, x, l, rfl, rfl⟩ | ⟨hp, irq, hd, rfl⟩ | ⟨_, _, m, ph, _, rfl⟩
        · exact ⟨rfl, .inl rfl, .inl rfl⟩
        · exact ⟨rfl, .inl rfl, .inl rfl⟩
        · exact ⟨rfl, .inl rfl, .inl rfl⟩
        · refine ⟨rfl, .inl rfl, .inr ⟨hp, rfl, w, irq, hwp, ?_⟩⟩
          rcases hd with rfl | rfl
          · exact .inl hdec
          · exact .inr hdec
        · exact ⟨rfl, .inl rfl, .inl rfl⟩
    · obtain rfl := by simpa using h
      exact ⟨rfl, .inl rfl, .inl rfl⟩

/-! ## Runs of one engine -/

/-- One step of a run while the engine is busy. -/
theorem runWhile_succ {busy : State → Bool} {choose : State → Act} {n : Nat} {s t : State} (hb : busy s = true)
    (hd : drive (choose s) s = .next t) : runWhile busy choose (n + 1) s = runWhile busy choose n t := by
  simp [runWhile, hb, hd]

/-- A run ends when the engine is idle. -/
theorem runWhile_done {busy : State → Bool} {choose : State → Act} {n : Nat} {s : State} (hb : busy s = false) :
    runWhile busy choose n s = .next s := by
  cases n <;> simp [runWhile, hb]

end Sys2Proof.Machine
end

