-- ==== Sys2Proof/Laws/Invariant.lean ====
section
/-! SUPPORT. The parts of the invariant, and that the sequencers' steps keep each of them (R44, R46 to R48). -/

namespace Sys2Proof.Machine

open Sys2Proof Sys2Proof.Safety

/-- The invariant, part by part. -/
theorem inv_iff (s : State) : inv s = true ↔ s.cfg.wf = true ∧ s.pins.length = s.cfg.npins
    ∧ s.snap.length = s.cfg.npins ∧ s.lock = .free ∧ snapshotClean s = true ∧ dispInRange s = true ∧ grpInRange s = true ∧ smInRange s = true := by
  simp [inv, Memory.wf, snapshotShaped, and_assoc]

theorem advance_range {s : State} (hk : s.disp.k ≤ 45) (hi : s.disp.i ≤ 3) : dispInRange (advance s) = true := by
  unfold advance
  split
  · simp [dispInRange]; omega
  · simp [dispInRange, hk, hi]

/-- A busy dispatch sequencer has its group and its pin in range (R46). -/
theorem dispInRange_busy {s : State} (hp : s.disp.phase ≠ .idle) (h : dispInRange s = true) :
    s.disp.k ≤ 45 ∧ s.disp.i ≤ 3 := by
  cases hd : s.disp.phase <;> simp_all [dispInRange]

/-- An accepted dispatch sequencer is in range, whatever the free values are. -/
theorem startedDisp_range (ctx : Ctx) (d : AcceptDraw) : (startedDisp ctx d).k ≤ 45 ∧ (startedDisp ctx d).i ≤ 3 := by
  have hk := d.k.isLt; have hi := d.i.isLt
  simp only [startedDisp]; omega

theorem dispStep_range {s : State} (live : Bool) (hl : s.lock = .free) (h : dispInRange s = true) :
    dispInRange (dispStep live s) = true := by
  unfold dispStep
  cases hp : s.disp.phase
  · exact h
  · have hr := dispInRange_busy (by simp [hp]) h
    simp [statusStep_free hl, dispInRange, hr]
  · simp only [nextStep]
    split
    · split
      · simp [endPass, dispInRange]
      · next hc => simp [dispInRange, hc, dispInRange_busy (by simp [hp]) h]
    · next k hk =>
      have : k < 46 := by
        have := List.mem_of_find?_eq_some hk
        simpa using this
      simp [dispInRange]; omega
  · simp only [dispInRange, hp, Bool.and_eq_true, decide_eq_true_eq] at h
    simp only
    rcases Nat.lt_or_ge s.disp.pin s.cfg.npins with hn | hn
    · rw [readStep_free hn hl]
      unfold readDecision
      have hd : ∀ u : State, (diagActive u).disp = u.disp ∧ (diagActive u).cfg = u.cfg := by
        intro u; unfold diagActive; split <;> exact ⟨rfl, rfl⟩
      split
      · split
        · simp [endPass, dispInRange]
        · exact advance_range (by rw [(hd _).1]; exact h.1) (by rw [(hd _).1]; exact h.2)
      · next hc =>
        split
        · exact advance_range (by rw [(hd _).1]; exact h.1) (by rw [(hd _).1]; exact h.2)
        · simp only [callbackEntry, dispInRange, State.emit, (hd _).1, (hd _).2] at hc ⊢
          simp [h.1, h.2, hc]
          exact hn
    · rw [readStep_past hn]
      exact advance_range h.1 h.2
  · exact h
  · simp only [dispInRange, hp, Bool.and_eq_true, decide_eq_true_eq] at h
    simp only [rereadStep_free hl]
    apply advance_range <;> (cases live <;> simp [rereadBody, Disp.markHandled, h])
  · simp [eoiStep_free hl, endPass, dispInRange]

/-- A slot written without the pending bit keeps the snapshot clean (R335). -/
theorem snapClean_set {s t : State} (hc : t.cfg = s.cfg) (h : snapshotClean s = true)
    (ht : t.snap = s.snap ∨ ∃ p w, t.snap = s.snap.set p (some (w &&& ~~~s.cfg.pendingBit))) :
    snapshotClean t = true := by
  rcases ht with ht | ⟨p, w, ht⟩
  · simpa [snapshotClean, ht, hc] using h
  · simp only [snapshotClean, ht, hc, List.all_eq_true] at h ⊢
    intro o ho
    rcases List.mem_or_eq_of_mem_set ho with h1 | rfl
    · exact h o h1
    · simp only [beq_iff_eq]
      rw [BitVec.and_assoc, BitVec.and_comm (~~~_), BitVec.and_not_self]; simp

theorem smStep_range {s : State} (e : Bool) (hl : s.lock = .free) (h : smInRange s = true) :
    smInRange (smStep e s) = true := by
  have hni : ∀ v : State, v.cfg = s.cfg → v.sm.pin < s.cfg.npins → smInRange (nextPin v) = true := by
    intro v hc hv
    unfold smInRange nextPin
    split
    · rfl
    · simp [hc]; omega
    · simp [hc]; omega
  have hen : smInRange (endManager s) = true := by simp [endManager, smInRange]
  unfold smStep
  cases hp : s.sm.phase
  · exact h
  · simp only
    rcases Nat.lt_or_ge s.sm.pin s.cfg.npins with hn | hn
    · cases e
      · rw [saveStep_skip hn]; exact hni _ rfl hn
      · rw [saveStep_free hn hl, locked_saveBody hl]
        apply hni
        · rw [saveBody_eq]
        · rw [saveBody_eq]; exact hn
    · rw [saveStep_end hn]; exact hen
  · simp only
    rcases Nat.lt_or_ge s.sm.pin s.cfg.npins with hn | hn
    · cases e
      · rw [restStep_skip hn]; exact hni _ rfl hn
      · cases hs : s.slot s.sm.pin with
        | none => rw [restStep_none hn hs]; exact hni _ rfl hn
        | some w => rw [restStep_free hn hs hl]; exact hni _ rfl hn
    · rw [restStep_end hn]; exact hen

end Sys2Proof.Machine
end

