-- ==== Sys2Proof/Laws/PerInstr.lean ====
section
/-! SUPPORT. Statements made per instruction: the round trip through the encoding, and the instruction's own row of the opcode table. -/

namespace Sys2Proof.Laws

open Sys2Proof

/-- A tag above the supported ones is none of the six tags with a row of their own. -/
theorem param_ne_of_range {lo hi : Nat} {p : ParamByte} (h : paramIn lo hi p = true) (hlo : 6 ≤ lo) :
    p ≠ 0x00#8 ∧ p ≠ 0x01#8 ∧ p ≠ 0x02#8 ∧ p ≠ 0x03#8 ∧ p ≠ 0x04#8 ∧ p ≠ 0x05#8 ∧ lo ≤ p.toNat ∧ p.toNat ≤ hi := by
  have hr : lo ≤ p.toNat ∧ p.toNat ≤ hi := by simpa [paramIn] using h
  refine ⟨?_, ?_, ?_, ?_, ?_, ?_, hr.1, hr.2⟩ <;> (rintro rfl; simp at hr; omega)

/-! ## The round trip -/

/-- R101, R102, R106, R110: the word of a well-formed instruction decodes to it. -/
def RoundTrip.Statement (i : Instr) : Prop := i.wellFormed = true → decode (encode i) = .ok i

theorem RoundTrip.readPin (pin : Selector) : RoundTrip.Statement (.readPin pin) := by
  intro _
  simp [encode, decodeFields, mustBeZero]

theorem RoundTrip.writePin (pin : Selector) (data : Word) : RoundTrip.Statement (.writePin pin data) := by
  intro _
  simp [encode, decodeFields, mustBeZero]

theorem RoundTrip.readWakeStatus : RoundTrip.Statement .readWakeStatus := by
  intro _
  simp [encode, decodeFields, mustBeZero]

theorem RoundTrip.readMaster : RoundTrip.Statement .readMaster := by
  intro _
  simp [encode, decodeFields, mustBeZero]

theorem RoundTrip.writeMaster (data : Word) : RoundTrip.Statement (.writeMaster data) := by
  intro _
  simp [encode, decodeFields, mustBeZero]

theorem RoundTrip.getDebounce (pin : Selector) : RoundTrip.Statement (.getDebounce pin) := by
  intro _
  simp [encode, decodeFields, mustBeZero, getVariant]

theorem RoundTrip.getPullDown (pin : Selector) : RoundTrip.Statement (.getPullDown pin) := by
  intro _
  simp [encode, decodeFields, mustBeZero, getVariant]

theorem RoundTrip.getPullUp (pin : Selector) : RoundTrip.Statement (.getPullUp pin) := by
  intro _
  simp [encode, decodeFields, mustBeZero, getVariant]

theorem RoundTrip.getDriveStrength (pin : Selector) : RoundTrip.Statement (.getDriveStrength pin) := by
  intro _
  simp [encode, decodeFields, mustBeZero, getVariant]

theorem RoundTrip.getOther00 (pin : Selector) : RoundTrip.Statement (.getOther00 pin) := by
  intro _
  simp [encode, decodeFields, mustBeZero, getVariant]

theorem RoundTrip.getOther05 (pin : Selector) : RoundTrip.Statement (.getOther05 pin) := by
  intro _
  simp [encode, decodeFields, mustBeZero, getVariant]

theorem RoundTrip.getOther06to07 (pin : Selector) (param : ParamByte) : RoundTrip.Statement (.getOther06to07 pin param) := by
  intro h
  obtain ⟨h0, h1, h2, h3, h4, h5, hlo, hhi⟩ := param_ne_of_range h (by decide)
  have hr0 : param.toNat ≤ 0x07 := by omega
  simp [encode, decodeFields, mustBeZero, getVariant, h0, h1, h2, h3, h4, h5, hr0]

theorem RoundTrip.getOther08to0F (pin : Selector) (param : ParamByte) : RoundTrip.Statement (.getOther08to0F pin param) := by
  intro h
  obtain ⟨h0, h1, h2, h3, h4, h5, hlo, hhi⟩ := param_ne_of_range h (by decide)
  have hr0 : ¬ param.toNat ≤ 0x07 := by omega
  have hr1 : param.toNat ≤ 0x0F := by omega
  simp [encode, decodeFields, mustBeZero, getVariant, h0, h1, h2, h3, h4, h5, hr0, hr1]

theorem RoundTrip.getOther10to1F (pin : Selector) (param : ParamByte) : RoundTrip.Statement (.getOther10to1F pin param) := by
  intro h
  obtain ⟨h0, h1, h2, h3, h4, h5, hlo, hhi⟩ := param_ne_of_range h (by decide)
  have hr0 : ¬ param.toNat ≤ 0x07 := by omega
  have hr1 : ¬ param.toNat ≤ 0x0F := by omega
  have hr2 : param.toNat ≤ 0x1F := by omega
  simp [encode, decodeFields, mustBeZero, getVariant, h0, h1, h2, h3, h4, h5, hr0, hr1, hr2]

theorem RoundTrip.getOther20to3F (pin : Selector) (param : ParamByte) : RoundTrip.Statement (.getOther20to3F pin param) := by
  intro h
  obtain ⟨h0, h1, h2, h3, h4, h5, hlo, hhi⟩ := param_ne_of_range h (by decide)
  have hr0 : ¬ param.toNat ≤ 0x07 := by omega
  have hr1 : ¬ param.toNat ≤ 0x0F := by omega
  have hr2 : ¬ param.toNat ≤ 0x1F := by omega
  have hr3 : param.toNat ≤ 0x3F := by omega
  simp [encode, decodeFields, mustBeZero, getVariant, h0, h1, h2, h3, h4, h5, hr0, hr1, hr2, hr3]

theorem RoundTrip.getOther40to7F (pin : Selector) (param : ParamByte) : RoundTrip.Statement (.getOther40to7F pin param) := by
  intro h
  obtain ⟨h0, h1, h2, h3, h4, h5, hlo, hhi⟩ := param_ne_of_range h (by decide)
  have hr0 : ¬ param.toNat ≤ 0x07 := by omega
  have hr1 : ¬ param.toNat ≤ 0x0F := by omega
  have hr2 : ¬ param.toNat ≤ 0x1F := by omega
  have hr3 : ¬ param.toNat ≤ 0x3F := by omega
  have hr4 : param.toNat ≤ 0x7F := by omega
  simp [encode, decodeFields, mustBeZero, getVariant, h0, h1, h2, h3, h4, h5, hr0, hr1, hr2, hr3, hr4]

theorem RoundTrip.getOther80toFF (pin : Selector) (param : ParamByte) : RoundTrip.Statement (.getOther80toFF pin param) := by
  intro h
  obtain ⟨h0, h1, h2, h3, h4, h5, hlo, hhi⟩ := param_ne_of_range h (by decide)
  have hr0 : ¬ param.toNat ≤ 0x07 := by omega
  have hr1 : ¬ param.toNat ≤ 0x0F := by omega
  have hr2 : ¬ param.toNat ≤ 0x1F := by omega
  have hr3 : ¬ param.toNat ≤ 0x3F := by omega
  have hr4 : ¬ param.toNat ≤ 0x7F := by omega
  simp [encode, decodeFields, mustBeZero, getVariant, h0, h1, h2, h3, h4, h5, hr0, hr1, hr2, hr3, hr4]

theorem RoundTrip.setDebounce (pin : Selector) (value : Word) : RoundTrip.Statement (.setDebounce pin value) := by
  intro _
  simp [encode, decodeFields, setVariant]

theorem RoundTrip.setPullDown (pin : Selector) (value : Word) : RoundTrip.Statement (.setPullDown pin value) := by
  intro _
  simp [encode, decodeFields, setVariant]

theorem RoundTrip.setPullUp (pin : Selector) (value : Word) : RoundTrip.Statement (.setPullUp pin value) := by
  intro _
  simp [encode, decodeFields, setVariant]

theorem RoundTrip.setDriveStrength (pin : Selector) (value : Word) : RoundTrip.Statement (.setDriveStrength pin value) := by
  intro _
  simp [encode, decodeFields, setVariant]

theorem RoundTrip.setOther00 (pin : Selector) (value : Word) : RoundTrip.Statement (.setOther00 pin value) := by
  intro _
  simp [encode, decodeFields, setVariant]

theorem RoundTrip.setOther05 (pin : Selector) (value : Word) : RoundTrip.Statement (.setOther05 pin value) := by
  intro _
  simp [encode, decodeFields, setVariant]

theorem RoundTrip.setOther06to07 (pin : Selector) (param : ParamByte) (value : Word) : RoundTrip.Statement (.setOther06to07 pin param value) := by
  intro h
  obtain ⟨h0, h1, h2, h3, h4, h5, hlo, hhi⟩ := param_ne_of_range h (by decide)
  have hr0 : param.toNat ≤ 0x07 := by omega
  simp [encode, decodeFields, setVariant, h0, h1, h2, h3, h4, h5, hr0]

theorem RoundTrip.setOther08to0F (pin : Selector) (param : ParamByte) (value : Word) : RoundTrip.Statement (.setOther08to0F pin param value) := by
  intro h
  obtain ⟨h0, h1, h2, h3, h4, h5, hlo, hhi⟩ := param_ne_of_range h (by decide)
  have hr0 : ¬ param.toNat ≤ 0x07 := by omega
  have hr1 : param.toNat ≤ 0x0F := by omega
  simp [encode, decodeFields, setVariant, h0, h1, h2, h3, h4, h5, hr0, hr1]

theorem RoundTrip.setOther10to1F (pin : Selector) (param : ParamByte) (value : Word) : RoundTrip.Statement (.setOther10to1F pin param value) := by
  intro h
  obtain ⟨h0, h1, h2, h3, h4, h5, hlo, hhi⟩ := param_ne_of_range h (by decide)
  have hr0 : ¬ param.toNat ≤ 0x07 := by omega
  have hr1 : ¬ param.toNat ≤ 0x0F := by omega
  have hr2 : param.toNat ≤ 0x1F := by omega
  simp [encode, decodeFields, setVariant, h0, h1, h2, h3, h4, h5, hr0, hr1, hr2]

theorem RoundTrip.setOther20to3F (pin : Selector) (param : ParamByte) (value : Word) : RoundTrip.Statement (.setOther20to3F pin param value) := by
  intro h
  obtain ⟨h0, h1, h2, h3, h4, h5, hlo, hhi⟩ := param_ne_of_range h (by decide)
  have hr0 : ¬ param.toNat ≤ 0x07 := by omega
  have hr1 : ¬ param.toNat ≤ 0x0F := by omega
  have hr2 : ¬ param.toNat ≤ 0x1F := by omega
  have hr3 : param.toNat ≤ 0x3F := by omega
  simp [encode, decodeFields, setVariant, h0, h1, h2, h3, h4, h5, hr0, hr1, hr2, hr3]

theorem RoundTrip.setOther40to7F (pin : Selector) (param : ParamByte) (value : Word) : RoundTrip.Statement (.setOther40to7F pin param value) := by
  intro h
  obtain ⟨h0, h1, h2, h3, h4, h5, hlo, hhi⟩ := param_ne_of_range h (by decide)
  have hr0 : ¬ param.toNat ≤ 0x07 := by omega
  have hr1 : ¬ param.toNat ≤ 0x0F := by omega
  have hr2 : ¬ param.toNat ≤ 0x1F := by omega
  have hr3 : ¬ param.toNat ≤ 0x3F := by omega
  have hr4 : param.toNat ≤ 0x7F := by omega
  simp [encode, decodeFields, setVariant, h0, h1, h2, h3, h4, h5, hr0, hr1, hr2, hr3, hr4]

theorem RoundTrip.setOther80toFF (pin : Selector) (param : ParamByte) (value : Word) : RoundTrip.Statement (.setOther80toFF pin param value) := by
  intro h
  obtain ⟨h0, h1, h2, h3, h4, h5, hlo, hhi⟩ := param_ne_of_range h (by decide)
  have hr0 : ¬ param.toNat ≤ 0x07 := by omega
  have hr1 : ¬ param.toNat ≤ 0x0F := by omega
  have hr2 : ¬ param.toNat ≤ 0x1F := by omega
  have hr3 : ¬ param.toNat ≤ 0x3F := by omega
  have hr4 : ¬ param.toNat ≤ 0x7F := by omega
  simp [encode, decodeFields, setVariant, h0, h1, h2, h3, h4, h5, hr0, hr1, hr2, hr3, hr4]

theorem RoundTrip.setConfigGroup (group : Selector) (param : ParamByte) (value : Word) : RoundTrip.Statement (.setConfigGroup group param value) := by
  intro _
  simp [encode, decodeFields]

theorem RoundTrip.dispatchHw (irq : Word) : RoundTrip.Statement (.dispatchHw irq) := by
  intro h
  have hm : irq.msb = false := by simpa [Instr.wellFormed] using h
  simp [encode, decodeFields, mustBeZero, hm]

theorem RoundTrip.dispatchQuery (irq : Word) : RoundTrip.Statement (.dispatchQuery irq) := by
  intro h
  have hm : irq.msb = true := by simpa [Instr.wellFormed] using h
  simp [encode, decodeFields, mustBeZero, hm]

theorem RoundTrip.enterSuspend : RoundTrip.Statement .enterSuspend := by
  intro _
  simp [encode, decodeFields, mustBeZero]

theorem RoundTrip.enterHibernate : RoundTrip.Statement .enterHibernate := by
  intro _
  simp [encode, decodeFields, mustBeZero]

theorem RoundTrip.restore : RoundTrip.Statement .restore := by
  intro _
  simp [encode, decodeFields, mustBeZero]

end Sys2Proof.Laws
end

