-- ==== Sys2Proof/Machine/Text.lean ====
section
/-! DEFINITION. The textual form of commands and the pseudo-commands (R115, R116): a name and its operands, the form of an instruction, the instruction of a form, and the written line. The machine does not use it. -/

namespace Sys2Proof.Machine

/-! ## Commands as text -/

/-- An operand as written: a number, decimal or hexadecimal, or the name of a parameter or a mode (R115). -/
inductive TextOperand where
  | number (n : Int)
  | name (s : String)
  deriving DecidableEq, Repr

/-- A command as written: the contract's name and its operands (R115). -/
structure CommandText where
  name : String
  operands : List TextOperand
  deriving DecidableEq, Repr

/-- The number a bit vector stands for in a text. -/
def numberOf {w : Nat} (v : BitVec w) : TextOperand := .number v.toNat

/-- The bit vector a number stands for, if it fits. -/
def fits (w : Nat) (n : Int) : Option (BitVec w) :=
  if 0 ≤ n ∧ n < 2 ^ w then some (BitVec.ofNat w n.toNat) else none

/-- `irq` may be negative (R115); it is the signed value of `DATA` (R105). -/
def irqOf (n : Int) : Option Word := if -(2 ^ 31) ≤ n ∧ n < 2 ^ 31 then some (BitVec.ofInt 32 n) else none

/-! ## Parameter and mode names (R106, R107) -/

/-- A tag as written: its name, or the number of an unknown parameter. -/
def paramText (param : ParamByte) : TextOperand :=
  match paramTagOf param with
  | some .debounce => .name "Debounce"
  | some .pullDown => .name "PullDown"
  | some .pullUp => .name "PullUp"
  | some .driveStrength => .name "DriveStrength"
  | none => numberOf param

/-- The tag of a written parameter. -/
def paramOf : TextOperand → Option ParamByte
  | .name s =>
    if s = "Debounce" then some 0x01#8
    else if s = "PullDown" then some 0x02#8
    else if s = "PullUp" then some 0x03#8
    else if s = "DriveStrength" then some 0x04#8
    else none
  | .number n => fits 8 n

/-- A mode as written. -/
def Mode.text : Mode → String
  | .suspend => "Suspend"
  | .hibernate => "Hibernate"

/-! ## The form of an instruction (R115) -/

/-- `get_config pin, param`. -/
def getText (pin : Selector) (param : ParamByte) : CommandText := ⟨"get_config", [numberOf pin, paramText param]⟩

/-- `set_config pin, param, value`. -/
def setText (pin : Selector) (param : ParamByte) (value : Word) : CommandText :=
  ⟨"set_config", [numberOf pin, paramText param, numberOf value]⟩

/-- The textual form of an instruction. -/
def instrText : Instr → CommandText
  | .readPin pin => ⟨"read_pin", [numberOf pin]⟩
  | .writePin pin data => ⟨"write_pin", [numberOf pin, numberOf data]⟩
  | .readWakeStatus => ⟨"read_wake_status", []⟩
  | .readMaster => ⟨"read_master", []⟩
  | .writeMaster data => ⟨"write_master", [numberOf data]⟩
  | .getDebounce pin => getText pin 0x01#8
  | .getPullDown pin => getText pin 0x02#8
  | .getPullUp pin => getText pin 0x03#8
  | .getDriveStrength pin => getText pin 0x04#8
  | .getOther00 pin => getText pin 0x00#8
  | .getOther05 pin => getText pin 0x05#8
  | .getOther06to07 pin param | .getOther08to0F pin param | .getOther10to1F pin param
  | .getOther20to3F pin param | .getOther40to7F pin param | .getOther80toFF pin param => getText pin param
  | .setDebounce pin value => setText pin 0x01#8 value
  | .setPullDown pin value => setText pin 0x02#8 value
  | .setPullUp pin value => setText pin 0x03#8 value
  | .setDriveStrength pin value => setText pin 0x04#8 value
  | .setOther00 pin value => setText pin 0x00#8 value
  | .setOther05 pin value => setText pin 0x05#8 value
  | .setOther06to07 pin param value | .setOther08to0F pin param value | .setOther10to1F pin param value
  | .setOther20to3F pin param value | .setOther40to7F pin param value | .setOther80toFF pin param value =>
    setText pin param value
  | .setConfigGroup group param value =>
    ⟨"set_config_group", [numberOf group, paramText param, numberOf value]⟩
  | .dispatchHw irq | .dispatchQuery irq => ⟨"dispatch", [.number irq.toInt]⟩
  | .enterSuspend => ⟨"enter", [.name Mode.suspend.text]⟩
  | .enterHibernate => ⟨"enter", [.name Mode.hibernate.text]⟩
  | .restore => ⟨"restore", []⟩

/-! ## The instruction of a form -/

/-- A pseudo-command written out; every other form as it is (R116). -/
def expandPseudo (t : CommandText) : CommandText :=
  match t.operands with
  | [] =>
    if t.name = "irq_pass" then ⟨"dispatch", [.number 0]⟩
    else if t.name = "wake_check" then ⟨"dispatch", [.number (-1)]⟩
    else if t.name = "suspend" then ⟨"enter", [.name Mode.suspend.text]⟩
    else if t.name = "hibernate" then ⟨"enter", [.name Mode.hibernate.text]⟩
    else t
  | [pin] => if t.name = "debounce_off" then ⟨"set_config", [pin, .name "Debounce", .number 0]⟩ else t
  | [pin, v] =>
    if t.name = "pull_down" then ⟨"set_config", [pin, .name "PullDown", v]⟩
    else if t.name = "pull_up" then ⟨"set_config", [pin, .name "PullUp", v]⟩
    else if t.name = "drive" then ⟨"set_config", [pin, .name "DriveStrength", v]⟩
    else t
  | _ => t

/-- The instruction of a written command that is no pseudo-command; `none` for any other line. -/
def assembleCore (t : CommandText) : Option Instr :=
  match t.operands with
  | [] =>
    if t.name = "read_wake_status" then some .readWakeStatus
    else if t.name = "read_master" then some .readMaster
    else if t.name = "restore" then some .restore
    else none
  | [.number n] =>
    if t.name = "read_pin" then (fits 16 n).map .readPin
    else if t.name = "write_master" then (fits 32 n).map .writeMaster
    else if t.name = "dispatch" then (irqOf n).map fun irq => if irq.msb then .dispatchQuery irq else .dispatchHw irq
    else none
  | [.name m] =>
    if t.name = "enter" then
      if m = Mode.suspend.text then some .enterSuspend
      else if m = Mode.hibernate.text then some .enterHibernate
      else none
    else none
  | [.number pin, o] =>
    if t.name = "get_config" then (fits 16 pin).bind fun p => (paramOf o).map fun q => getVariant p q
    else if t.name = "write_pin" then
      match o with
      | .number data => (fits 16 pin).bind fun p => (fits 32 data).map fun d => .writePin p d
      | .name _ => none
    else none
  | [.number sel, o, .number value] =>
    if t.name = "set_config" then
      (fits 16 sel).bind fun p => (paramOf o).bind fun q => (fits 32 value).map fun v => setVariant p q v
    else if t.name = "set_config_group" then
      (fits 16 sel).bind fun g => (paramOf o).bind fun q => (fits 32 value).map fun v => .setConfigGroup g q v
    else none
  | _ => none

/-- The instruction of a written command (R115, R116). -/
def assemble (t : CommandText) : Option Instr := assembleCore (expandPseudo t)

/-! ## The written line -/

/-- An operand, numbers in decimal. -/
def TextOperand.render : TextOperand → String
  | .number n => toString n
  | .name s => s

/-- The line: the name, then the operands separated by commas (R115). -/
def CommandText.render (t : CommandText) : String :=
  match t.operands with
  | [] => t.name
  | o :: rest => rest.foldl (fun line o => line ++ ", " ++ o.render) (t.name ++ " " ++ o.render)

/-- The name of a status (R108). -/
def Status.text : Status → String
  | .ok => "Ok"
  | .invalidArgument => "InvalidArgument"
  | .notSupported => "NotSupported"
  | .notFound => "NotFound"
  | .badCommand => "BadCommand"

/-- A command with its result, which is written after `->` (R115): the status, with `RDATA` where it is `Ok`. -/
def renderWithResult (t : CommandText) (status : Status) (rdata : Rdata) : String :=
  t.render ++ " -> " ++ status.text ++ if status = .ok then ", " ++ toString rdata.toNat else ""

end Sys2Proof.Machine
end

