-- ==== Sys2Proof/Laws/Text.lean ====
section
/-! SUPPORT. The textual form of every well-formed instruction assembles to that instruction (R115). -/

namespace Sys2Proof.Machine

open Sys2Proof Sys2Proof.Laws

/-- A bit vector's number fits it. -/
theorem fits_toNat {w : Nat} (v : BitVec w) : fits w (v.toNat : Int) = some v := by
  have h : (v.toNat : Int) < 2 ^ w := by exact_mod_cast v.isLt
  unfold fits
  rw [if_pos ⟨by omega, h⟩]
  simp

/-- A signed value is in range. -/
theorem irqOf_toInt (v : Word) : irqOf v.toInt = some v := by
  have h1 := BitVec.le_two_mul_toInt (x := v)
  have h2 := BitVec.two_mul_toInt_lt (x := v)
  unfold irqOf
  rw [if_pos ⟨by omega, by omega⟩]
  simp

/-- A written tag is read back. -/
theorem paramOf_paramText (param : ParamByte) : paramOf (paramText param) = some param := by
  unfold paramText paramTagOf
  split_ifs <;> simp_all [paramOf, numberOf, fits_toNat]

/-- `get_config` is read back as the variant of its tag. -/
theorem assemble_getText (pin : Selector) (param : ParamByte) : assemble (getText pin param) = some (getVariant pin param) := by
  simp only [assemble, getText, expandPseudo, numberOf]
  simp [assembleCore, fits_toNat, paramOf_paramText]

/-- `set_config` is read back as the variant of its tag. -/
theorem assemble_setText (pin : Selector) (param : ParamByte) (value : Word) :
    assemble (setText pin param value) = some (setVariant pin param value) := by
  simp only [assemble, setText, expandPseudo, numberOf]
  simp [assembleCore, fits_toNat, paramOf_paramText]

/-- R115: what is written for a well-formed instruction stands for it. -/
theorem assemble_instrText (i : Instr) (h : i.wellFormed = true) : assemble (instrText i) = some i := by
  cases i with
  | getOther06to07 pin param | getOther08to0F pin param | getOther10to1F pin param | getOther20to3F pin param
  | getOther40to7F pin param | getOther80toFF pin param =>
    obtain ⟨h0, h1, h2, h3, h4, h5, hlo, hhi⟩ := param_ne_of_range h (by decide)
    simp only [instrText, assemble_getText, getVariant, h0, h1, h2, h3, h4, h5, if_false]
    repeat' first | rw [if_pos (by omega)] | rw [if_neg (by omega)]
  | setOther06to07 pin param value | setOther08to0F pin param value | setOther10to1F pin param value
  | setOther20to3F pin param value | setOther40to7F pin param value | setOther80toFF pin param value =>
    obtain ⟨h0, h1, h2, h3, h4, h5, hlo, hhi⟩ := param_ne_of_range h (by decide)
    simp only [instrText, assemble_setText, setVariant, h0, h1, h2, h3, h4, h5, if_false]
    repeat' first | rw [if_pos (by omega)] | rw [if_neg (by omega)]
  | getDebounce pin | getPullDown pin | getPullUp pin | getDriveStrength pin | getOther00 pin | getOther05 pin =>
    simp [instrText, assemble_getText, getVariant]
  | setDebounce pin value | setPullDown pin value | setPullUp pin value | setDriveStrength pin value
  | setOther00 pin value | setOther05 pin value => simp [instrText, assemble_setText, setVariant]
  | setConfigGroup group param value =>
    simp only [instrText, assemble, expandPseudo, numberOf]
    simp [assembleCore, fits_toNat, paramOf_paramText]
  | dispatchHw irq =>
    have hm : irq.msb = false := by simpa [Instr.wellFormed] using h
    simp [instrText, assemble, expandPseudo, assembleCore, irqOf_toInt, hm]
  | dispatchQuery irq =>
    have hm : irq.msb = true := by simpa [Instr.wellFormed] using h
    simp [instrText, assemble, expandPseudo, assembleCore, irqOf_toInt, hm]
  | readPin _ | writePin _ _ | readWakeStatus | readMaster | writeMaster _ | enterSuspend | enterHibernate | restore =>
    simp [instrText, assemble, expandPseudo, assembleCore, numberOf, fits_toNat, Mode.text]

end Sys2Proof.Machine
end

