-- ==== Sys2Proof/Tests/Slice0.lean ====
section
/-! SUPPORT. The model's own tests, with the expected values of the spec's rules and of 95_test_vectors.md; and for every obligation with hypotheses a state and operands that meet them. -/

namespace Sys2Proof.Tests

open Sys2Proof.Machine Sys2Proof.Safety

/-! ## Helpers -/

/-- The next state, if there is one. -/
def after (o : Host.Outcome State Fault Refusal) : Option State :=
  match o with
  | .next t => some t
  | _ => none

/-- The refusal, if there is one. -/
def refusalOf (o : Host.Outcome State Fault Refusal) : Option Refusal :=
  match o with
  | .refused r => some r
  | _ => none

/-- `ZERO(n)` (R60). -/
def zero (n : Nat) : State := State.resetWith { Config.default with npins := n } ResetDraw.zero

/-- The whole word of a pin is set, as "start `x[p] = v`" in 95_test_vectors.md. -/
def setPin (s : State) (p : Nat) (v : Word) : State := { s with pins := s.pins.set p v }

/-- `ZERO(8)` with one pin set. -/
def start (p : Nat) (v : Word) : State := setPin (zero 8) p v

/-- The word of pin `p` and the events after an outcome. -/
def pinAndEvents (p : Nat) (o : Host.Outcome State Fault Refusal) : Option (Word × List PortEvent) :=
  (after o).map fun t => (t.x p, t.trace)

/-- `MASTER` and the events after an outcome. -/
def masterAndEvents (o : Host.Outcome State Fault Refusal) : Option (Word × List PortEvent) :=
  (after o).map fun t => (t.master, t.trace)

/-- The answer of the port. -/
def answer (st : Status) (r : Rdata) : List PortEvent := [.response .port st r]

/-- `s` with the dispatch sequencer in `ph`, at pin `4 * k + i`. -/
def dispAt (ph : DispPhase) (ctx : Ctx) (work : Bitmap) (k i : Nat) (s : State) : State :=
  { s with disp := { phase := ph, ctx := ctx, work := work, k := k, i := i, handled := false, v := 0 } }

/-- `s` with the group sequencer running. -/
def grpAt (list : List Nat) (j : Nat) (param : ParamByte) (value : Word) (s : State) : State :=
  { s with grp := { phase := .run, list := list, j := j, param := param, value := value } }

/-- `s` with the state-manager sequencer at a pin. -/
def smAt (ph : SmPhase) (mode : Mode) (pin : Nat) (s : State) : State :=
  { s with sm := { phase := ph, mode := mode, pin := pin } }

/-- `s` with the given choice next in its schedule. -/
def next (a : Act) (s : State) : State := { s with sched := [a] }

/-! ## Well-formedness: each check refuses an ill-formed term -/

theorem test_wellFormed_getOther06 : (Instr.getOther06to07 5 0x08).wellFormed = false := by decide
theorem test_wellFormed_getOther08 : (Instr.getOther08to0F 5 0x07).wellFormed = false := by decide
theorem test_wellFormed_getOther10 : (Instr.getOther10to1F 5 0x20).wellFormed = false := by decide
theorem test_wellFormed_getOther20 : (Instr.getOther20to3F 5 0x1F).wellFormed = false := by decide
theorem test_wellFormed_getOther40 : (Instr.getOther40to7F 5 0x80).wellFormed = false := by decide
theorem test_wellFormed_getOther80 : (Instr.getOther80toFF 5 0x7F).wellFormed = false := by decide
theorem test_wellFormed_setOther06 : (Instr.setOther06to07 5 0x05 1).wellFormed = false := by decide
theorem test_wellFormed_setOther08 : (Instr.setOther08to0F 5 0x10 1).wellFormed = false := by decide
theorem test_wellFormed_setOther10 : (Instr.setOther10to1F 5 0x0F 1).wellFormed = false := by decide
theorem test_wellFormed_setOther20 : (Instr.setOther20to3F 5 0x40 1).wellFormed = false := by decide
theorem test_wellFormed_setOther40 : (Instr.setOther40to7F 5 0x3F 1).wellFormed = false := by decide
theorem test_wellFormed_setOther80 : (Instr.setOther80toFF 5 0x01 1).wellFormed = false := by decide
theorem test_wellFormed_dispatchHw : (Instr.dispatchHw 0x80000000).wellFormed = false := by decide
theorem test_wellFormed_dispatchQuery : (Instr.dispatchQuery 0x7FFFFFFF).wellFormed = false := by decide

/-- Every range is met at both ends. -/
theorem test_wellFormed_ranges :
    [Instr.getOther06to07 5 0x06, .getOther06to07 5 0x07, .getOther08to0F 5 0x08, .getOther08to0F 5 0x0F,
      .getOther10to1F 5 0x10, .getOther10to1F 5 0x1F, .getOther20to3F 5 0x20, .getOther20to3F 5 0x3F,
      .getOther40to7F 5 0x40, .getOther40to7F 5 0x7F, .getOther80toFF 5 0x80, .getOther80toFF 5 0xFF,
      .dispatchHw 0x7FFFFFFF, .dispatchQuery 0x80000000].all Instr.wellFormed = true := by decide

/-! ## Decoding: one word for every row, `OPC << 56 | PARAM << 48 | SEL << 32 | DATA` (R101, R118) -/

theorem test_decode_bank :
    decode 0x0100000500000000 = .ok (.readPin 5)
    ∧ decode 0x0200000520000401 = .ok (.writePin 5 0x20000401)
    ∧ decode 0x0300000000000000 = .ok .readWakeStatus
    ∧ decode 0x0400000000000000 = .ok .readMaster
    ∧ decode 0x05000000FFFFFFFF = .ok (.writeMaster 0xFFFFFFFF) := by decide

theorem test_decode_get :
    decode 0x1001000500000000 = .ok (.getDebounce 5)
    ∧ decode 0x1002000500000000 = .ok (.getPullDown 5)
    ∧ decode 0x1003000500000000 = .ok (.getPullUp 5)
    ∧ decode 0x1004000500000000 = .ok (.getDriveStrength 5)
    ∧ decode 0x1000000500000000 = .ok (.getOther00 5)
    ∧ decode 0x1005000500000000 = .ok (.getOther05 5)
    ∧ decode 0x1007000500000000 = .ok (.getOther06to07 5 0x07)
    ∧ decode 0x1009000800000000 = .ok (.getOther08to0F 8 0x09)
    ∧ decode 0x1010000500000000 = .ok (.getOther10to1F 5 0x10)
    ∧ decode 0x103F000500000000 = .ok (.getOther20to3F 5 0x3F)
    ∧ decode 0x1040000500000000 = .ok (.getOther40to7F 5 0x40)
    ∧ decode 0x10FF000500000000 = .ok (.getOther80toFF 5 0xFF) := by decide

theorem test_decode_set :
    decode 0x11010005000003E8 = .ok (.setDebounce 5 1000)
    ∧ decode 0x1102000580000000 = .ok (.setPullDown 5 0x80000000)
    ∧ decode 0x1103000500000001 = .ok (.setPullUp 5 1)
    ∧ decode 0x110400050000000D = .ok (.setDriveStrength 5 13)
    ∧ decode 0x1100000500000001 = .ok (.setOther00 5 1)
    ∧ decode 0x1105000500000001 = .ok (.setOther05 5 1)
    ∧ decode 0x1106FFFF00000001 = .ok (.setOther06to07 0xFFFF 0x06 1)
    ∧ decode 0x110900C800000001 = .ok (.setOther08to0F 200 0x09 1)
    ∧ decode 0x111F000500000001 = .ok (.setOther10to1F 5 0x1F 1)
    ∧ decode 0x1120000500000001 = .ok (.setOther20to3F 5 0x20 1)
    ∧ decode 0x117F000500000001 = .ok (.setOther40to7F 5 0x7F 1)
    ∧ decode 0x1180000500000001 = .ok (.setOther80toFF 5 0x80 1)
    ∧ decode 0x1203000200000001 = .ok (.setConfigGroup 2 0x03 1) := by decide

theorem test_decode_engines :
    decode 0x200000007FFFFFFF = .ok (.dispatchHw 0x7FFFFFFF)
    ∧ decode 0x2000000080000000 = .ok (.dispatchQuery 0x80000000)
    ∧ decode 0x3000000000000000 = .ok .enterSuspend
    ∧ decode 0x3001000000000000 = .ok .enterHibernate
    ∧ decode 0x3100000000000000 = .ok .restore := by decide

/-- 95_test_vectors.md section 7: the illegal words by their opcode (R111). -/
theorem test_decode_reserved :
    [0x0000000000000000, 0x0600000000000000, 0x1300000000000000, 0x2100000000000000, 0x3200000000000000,
      0xFFFFFFFFFFFFFFFF].all (fun w => (decode w).toOption == none) = true := by decide

/-- 95_test_vectors.md section 7: the illegal words by a field that must be zero (R112). -/
theorem test_decode_mustBeZero :
    decode 0x0301000000000000 = .error .paramNotZero
    ∧ decode 0x0100FFFF00000001 = .error .dataNotZero
    ∧ decode 0x0201000500000400 = .error .paramNotZero
    ∧ decode 0x0500000100000002 = .error .selNotZero
    ∧ decode 0x2000000100000000 = .error .selNotZero
    ∧ decode 0x1001000500000001 = .error .dataNotZero
    ∧ decode 0x3002000000000000 = .error .paramNotZero
    ∧ decode 0x3001000000000001 = .error .dataNotZero
    ∧ decode 0x3100000000000001 = .error .dataNotZero := by decide

theorem test_decodeTableWord : decodeTableWord 64 0x0100000500000000 = some (.readPin 5) := by decide

/-! ## Pure functions: the values of R146, R147, R76, R109 and 95_test_vectors.md section 3 -/

theorem test_fieldGet :
    fieldGet 0xFFFFFFFF 12 0xFFF = 0xFFF ∧ fieldGet 0x80000000 31 0x1 = 1 ∧ fieldGet 0x00040140 6 0x7 = 5 := by decide

theorem test_fieldSet :
    fieldSet 0xFFFFFFFF 6 0x7 0 = 0xFFFFFE3F ∧ fieldSet 0 12 0xFFF 0x1234 = 0x00234000
    ∧ fieldSet 0 6 0x7 0xFFFFFFFF = 0x000001C0 ∧ fieldSet 0x12345678 12 0xFFF 0xABC = 0x12ABC678 := by decide

theorem test_hwMerge : hwMerge 0x30000006 0x10000002 0x20000401 = 0x10000403 := by decide

theorem test_shorthands :
    Config.default.drvField = 0x000001C0 ∧ Config.default.dbCntField = 0x00FFF000
    ∧ Config.default.pendingBit = 0x10000000 ∧ Config.default.wakeStsBit = 0x20000000
    ∧ Config.default.intMaskBit = 0x00000400 ∧ Config.default.dbOverrideBit = 0x00000002 := by decide

theorem test_pack : pack 0x01 0x40 = 0x4001 ∧ unpackValue 0x4001 = 0x40 ∧ unpackParam 0x4001 = 0x01 := by decide

theorem test_codes :
    [Status.ok, .invalidArgument, .notSupported, .notFound, .badCommand].map Status.code = [0x00, 0x01, 0x02, 0x03, 0xFF]
    ∧ [Mode.suspend, .hibernate].map Mode.code = [0x00, 0x01] := by decide

/-- R178 (c) to (e): the limits, and the product is exact. -/
theorem test_debounceCount :
    debounceCount false 3999 = 255 ∧ debounceCount false 4000 = 256 ∧ debounceCount true 127999 = 4095
    ∧ debounceCount true 128000 = 4096 ∧ debounceCount false 0xFFFFFFFF = 274877906 := by decide

/-! ## Register Bank (vectors B1 to B13) -/

theorem test_readPin_B2 :
    pinAndEvents 5 (exec (.readPin 5) (start 5 0x10000403)) = some (0x10000403, answer .ok 0x10000403) := by decide

theorem test_readPin_B6 : pinAndEvents 7 (exec (.readPin 8) (zero 8)) = some (0, answer .notFound 0) := by decide

theorem test_writePin_B1 :
    pinAndEvents 5 (exec (.writePin 5 0x20000401) (start 5 0x10000002)) = some (0x10000403, answer .ok 0) := by decide

theorem test_writePin_B3 :
    pinAndEvents 5 (exec (.writePin 5 0xFFFFFFFF) (start 5 0x10000002)) = some (0xDFFFFFFB, answer .ok 0) := by decide

theorem test_readWakeStatus_B9 :
    masterAndEvents (exec .readWakeStatus { zero 8 with wsts0 := 0x80000001, wsts1 := 0xFFFFE000 })
      = some (0, answer .ok 0xFFFFE00080000001) := by decide

theorem test_readMaster_B11 :
    masterAndEvents (exec .readMaster { zero 8 with master := 0xFFFFFFFF })
      = some (0xFFFFFFFF, answer .ok 0x00000000FFFFFFFF) := by decide

theorem test_writeMaster_B10 :
    masterAndEvents (exec (.writeMaster 0xFFFFFFFF) (zero 8)) = some (0xFFFFFFFF, .eoiWritten :: answer .ok 0) := by decide

theorem test_writeMaster_B12 :
    masterAndEvents (exec (.writeMaster 0x00000006) { zero 8 with master := 0xFFFFFFFF })
      = some (0x00000006, answer .ok 0) := by decide

/-! ## Codec (vectors K, Q, G) -/

theorem test_setDebounce_K8 :
    pinAndEvents 5 (exec (.setDebounce 5 127999) (start 5 0x00000008)) = some (0x00FFF008, answer .ok 0) := by decide

theorem test_setDebounce_K15 :
    pinAndEvents 5 (exec (.setDebounce 5 4294968) (start 5 0)) = some (0, answer .invalidArgument 0) := by decide

/-- K17: the zero test comes before the override. -/
theorem test_setDebounceBody_K17 :
    pinAndEvents 5 (exec (.setDebounce 5 0) { start 5 0x00ABC400 with master := 2 })
      = some (0x00000400, answer .ok 0) := by decide

/-- K18: the override stops any other value. -/
theorem test_setDebounceBody_K18 :
    pinAndEvents 5 (exec (.setDebounce 5 500) { start 5 0x00ABC400 with master := 2 })
      = some (0x00ABC400, answer .ok 0) := by decide

theorem test_setPullDown_Q1 :
    pinAndEvents 5 (exec (.setPullDown 5 7) (start 5 0x00000400)) = some (0x00000410, answer .ok 0) := by decide

theorem test_setPullDown_Q12 :
    pinAndEvents 5 (exec (.setPullDown 5 0) (start 5 0x3FFFFFFF)) = some (0x3FFFFFEF, answer .ok 0) := by decide

theorem test_setPullUp_Q5 :
    pinAndEvents 5 (exec (.setPullUp 5 1) (start 5 0x00000410)) = some (0x00000430, answer .ok 0) := by decide

theorem test_setPullUp_Q13 :
    pinAndEvents 5 (exec (.setPullUp 5 0) (start 5 0x3FFFFFFF)) = some (0x3FFFFFDF, answer .ok 0) := by decide

theorem test_setDriveStrength_Q8 :
    pinAndEvents 5 (exec (.setDriveStrength 5 13) (start 5 0x00000400)) = some (0x00000540, answer .ok 0) := by decide

theorem test_setDriveStrength_Q11 :
    pinAndEvents 5 (exec (.setDriveStrength 5 0) (start 5 0x3FFFFFFF)) = some (0x3FFFFE3F, answer .ok 0) := by decide

/-- Q14 to Q18: an unknown parameter answers `NotSupported`, a selector out of range first `NotFound`. -/
theorem test_setOther_Q14_to_Q17 :
    [Instr.setOther00 5 1, .setOther05 5 1, .setOther06to07 5 0x06 1, .setOther10to1F 5 0x10 1, .setOther20to3F 5 0x20 1,
      .setOther40to7F 5 0x40 1, .setOther80toFF 5 0xFF 1].all (fun i =>
        pinAndEvents 5 (exec i (start 5 0x00000400)) == some (0x00000400, answer .notSupported 0)) = true
    ∧ pinAndEvents 5 (exec (.setOther08to0F 200 0x09 1) (start 5 0x00000400))
      = some (0x00000400, answer .notFound 0) := by decide

theorem test_getDebounce_G5 :
    pinAndEvents 5 (exec (.getDebounce 5) (start 5 0xFFFFFFFF)) = some (0xFFFFFFFF, answer .ok 0xFFF01) := by decide

theorem test_getPullDown_G2 :
    pinAndEvents 5 (exec (.getPullDown 5) (start 5 0x00040170)) = some (0x00040170, answer .ok 0x102) := by decide

theorem test_getPullUp_R174 :
    pinAndEvents 5 (exec (.getPullUp 5) (start 5 0x00000010)) = some (0x00000010, answer .ok 0x003) := by decide

theorem test_getDriveStrength_G4 :
    pinAndEvents 5 (exec (.getDriveStrength 5) (start 5 0x00040170)) = some (0x00040170, answer .ok 0x504) := by decide

/-- G8 and G10. -/
theorem test_getOther_G8_G10 :
    [Instr.getOther00 5, .getOther05 5, .getOther06to07 5 0x07, .getOther10to1F 5 0x10, .getOther20to3F 5 0x20,
      .getOther40to7F 5 0x40, .getOther80toFF 5 0xFF].all (fun i =>
        pinAndEvents 5 (exec i (start 5 0x400)) == some (0x400, answer .notSupported 0)) = true
    ∧ pinAndEvents 5 (exec (.getOther08to0F 8 0x09) (start 5 0x400)) = some (0x400, answer .notFound 0) := by decide

/-! ## The group sequencer (vectors GR) -/

theorem test_setConfigGroup_accept :
    (after (exec (.setConfigGroup 3 0x02 1) (zero 8))).map (fun t => (t.grp, t.trace))
      = some ({ phase := .run, list := [2, 9, 3], j := 0, param := 0x02, value := 1 }, []) := by decide

theorem test_setConfigGroup_GR6 :
    (after (exec (.setConfigGroup 5 0x02 1) (zero 8))).map (fun t => (t.grp.phase, t.trace))
      = some (.idle, answer .notFound 0) := by decide

/-- GR7: pin 0 (coarse) is set, pin 1 (fine) ends the command with `InvalidArgument`. -/
theorem test_grpStep_GR7 :
    (grpStep (grpAt [0, 1, 2] 0 0x01 5000 (start 0 0x8))).x 0 = 0x000A0008
    ∧ (grpStep (grpAt [0, 1, 2] 1 0x01 5000 (start 0 0x8))).grp.phase = .idle
    ∧ (grpStep (grpAt [0, 1, 2] 1 0x01 5000 (start 0 0x8))).trace = [.response .grp .invalidArgument 0] := by decide

/-- GR2 and GR3: an empty group answers `Ok` even with an unknown parameter, a group with a pin `NotSupported`. -/
theorem test_grpStep_GR2_GR3 :
    (grpStep (grpAt [] 0 0x09 1 (zero 8))).trace = [.response .grp .ok 0]
    ∧ (grpStep (grpAt [1, 3] 0 0x09 1 (zero 8))).trace = [.response .grp .notSupported 0] := by decide

/-! ## The dispatch engine (vectors D, S) -/

theorem test_dispatchHw_accept :
    (after (exec (.dispatchHw 0x7FFFFFFF) { zero 8 with disp := { (zero 8).disp with handled := true } })).map
      (fun t => (t.disp.phase, t.disp.ctx, t.disp.handled)) = some (.status, .hw, false) := by decide

/-- R59: acceptance writes the fields that no rule gives a value, with the free values. -/
theorem test_acceptance_writes_every_field :
    (after (exec (.dispatchHw 0) { zero 8 with draw := { work := 5, k := 45, i := 3, v := 7, mode := .hibernate } })).map
      (fun t => (t.disp.work, t.disp.k, t.disp.i, t.disp.v)) = some (5, 45, 3, 7) := by decide

theorem test_dispatchQuery_accept :
    (after (exec (.dispatchQuery 0x80000000) (zero 8))).map (fun t => (t.disp.phase, t.disp.ctx))
      = some (.status, .query) := by decide

/-- D4 and D5: bit 45 is the last one used. -/
theorem test_statusStep_D4_D5 :
    (dispStep true (dispAt .status .hw 0 0 0 { zero 8 with wsts1 := 0xFFFFE000 })).disp.work = 0x200000000000
    ∧ (dispStep true (dispAt .status .hw 0 0 0 { zero 8 with wsts1 := 0xFFFFC000 })).disp.work = 0 := by decide

/-- S6: group 0 before group 2. -/
theorem test_nextStep_S6 :
    ((dispStep true (dispAt .next .query 0x5 0 0 (zero 16))).disp.k,
      (dispStep true (dispAt .next .query 0x5 0 0 (zero 16))).disp.work) = (0, 0x4) := by decide

theorem test_nextStep_D2 :
    (dispStep true (dispAt .next .query 0 0 0 (zero 8))).trace = [.response .disp .ok 0] := by decide

/-- S8, step 3 of its trace. -/
theorem test_readStep_S8 :
    let t := dispStep true (dispAt .read .hw 0 0 0 (setPin (zero 2) 0 0x10000400))
    (t.disp.phase, t.lock, t.trace) = (.cbwait, .free, [.diagActive 0, .cbCall 0]) := by decide

/-- S8, step 8 of its trace: pin 3 does not exist. -/
theorem test_readStep_past_the_last_pin :
    let t := dispStep true (dispAt .read .hw 0 0 3 (zero 2))
    (t.disp.phase, t.trace) = (.next, []) := by decide

/-- S6: the wake-status bit of pin 2 ends the query pass. -/
theorem test_readStep_S6 :
    let t := dispStep true (dispAt .read .query 0x4 0 2 (setPin (zero 16) 2 0x20000000))
    (t.disp.phase, t.trace) = (.idle, [.response .disp .ok 1]) := by decide

/-- D8: pin 1 is not live, its mask bit goes and the drive field stays. -/
theorem test_rereadStep_D8 :
    let t := dispStep false (dispAt .reread .hw 0x2 0 1 (start 1 0x10000540))
    (t.x 1, t.disp.handled, t.disp.phase, t.disp.i) = (0x10000140, false, .read, 2) := by decide

/-- D9: the live branch writes the re-read word unchanged, the mask bit the callback cleared stays clear. -/
theorem test_rereadStep_D9 :
    let t := dispStep true (dispAt .reread .hw 0 0 1 (start 1 0x10000020))
    (t.x 1, t.disp.handled) = (0x10000020, true) := by decide

/-- D3: the EOI step keeps the other bits of `MASTER`. -/
theorem test_eoiStep_D3 :
    let t := dispStep true (dispAt .eoi .hw 0 0 0 { zero 8 with master := 0x00000006 })
    (t.master, t.disp.phase, t.trace) = (0x00000007, .idle, [.eoiWritten, .response .disp .ok 0]) := by decide

/-- R221, V9. -/
theorem test_callbackReturn :
    (after (callbackReturn (dispAt .cbwait .hw 0 0 1 (zero 8)))).map (fun t => (t.disp.phase, t.trace))
      = some (.reread, [.cbRet])
    ∧ refusalOf (callbackReturn (zero 8)) = some .callbackReturnUnasked := by decide

/-- R104, the note after S8's trace: a second `DISPATCH` waits, a `READ_PIN` is answered at once. -/
theorem test_port_during_the_callback :
    (after (exec (.dispatchHw 0) (dispAt .cbwait .hw 0 0 0 (setPin (zero 2) 0 0x10000400)))).map
      (fun t => (t.port, t.trace)) = some ([0x2000000000000000], [])
    ∧ pinAndEvents 0 (exec (.readPin 0) (dispAt .cbwait .hw 0 0 0 (setPin (zero 2) 0 0x10000400)))
      = some (0x10000400, answer .ok 0x10000400) := by decide

/-! ## The state manager (vectors M) -/

theorem test_enterSuspend_accept :
    (after (exec .enterSuspend (smAt .idle .hibernate 5 (zero 8)))).map (fun t => t.sm)
      = some { phase := .save, mode := .suspend, pin := 0 } := by decide

theorem test_enterHibernate_accept :
    (after (exec .enterHibernate (zero 8))).map (fun t => t.sm) = some { phase := .save, mode := .hibernate, pin := 0 } := by
  decide

/-- M1, pin 4: masked and its debounce cleared, the wake-status bit kept in the snapshot. -/
theorem test_saveStep_M1_pin4 :
    let t := smStep true (smAt .save .suspend 4 { start 4 0x30ABC7F9 with master := 2 })
    (t.x 4, t.slot 4, t.sm.pin) = (0x300003F9, some 0x20ABC7F9, 5)
    ∧ t.trace = [.diagNonwakeMasked 4 .suspend, .diagDebounceCleared 4] := by decide

/-- M2, pins 0 and 2. -/
theorem test_saveStep_M2_pin0_pin2 :
    (smStep true (smAt .save .hibernate 0 (start 0 0x10040402))).x 0 = 0x10000002
    ∧ (smStep true (smAt .save .hibernate 2 (start 2 0x00000404))).x 2 = 0x00000404
    ∧ (smStep true (smAt .save .hibernate 2 (start 2 0x00000404))).trace = [] := by decide

theorem test_restore_accept :
    (after (exec .restore (smAt .idle .suspend 8 (zero 8)))).map (fun t => (t.sm.phase, t.sm.pin)) = some (.rest, 0) := by
  decide

/-- M4, pin 1, and M5: the pending bit raised while suspended is kept; an empty slot is passed over. -/
theorem test_restStep_M4_M5 :
    (smStep true (smAt .rest .suspend 1 { start 1 0x10000000 with snap := (zero 8).snap.set 1 (some 0x400) })).x 1
      = 0x10000400
    ∧ (smStep true (smAt .rest .suspend 0 (start 0 0x400))).x 0 = 0x400 := by decide

/-! ## The register space, the configuration, the step -/

theorem test_accessTarget :
    accessTarget Config.default 0x1C 4 = .ok (.pin 7) ∧ accessTarget Config.default 0x20 4 = .error .unmappedAddress
    ∧ accessTarget Config.default 0x2E4 4 = .ok .wsts1 ∧ accessTarget Config.default 0x1E 4 = .error .badAccess
    ∧ accessTarget Config.default 0x1C 2 = .error .badAccess := by decide

/-- R77: byte 0 holds bits 7:0. -/
theorem test_byteAt : (start 5 0x12345678).byteAt 20 = some 0x78 ∧ (start 5 0x12345678).byteAt 23 = some 0x12 := by decide

theorem test_config_wf :
    Config.default.wf = true ∧ { Config.default with npins := 184 }.wf = true
    ∧ { Config.default with npins := 185, wakeSts0Off := 0x400, wakeSts1Off := 0x404, masterOff := 0x408 }.wf = false
    ∧ { Config.default with pullUpOff := 4 }.wf = false ∧ { Config.default with masterOff := 0x10 }.wf = false
    ∧ { Config.default with dbCoarseMax := 0xFF }.wf = false ∧ { Config.default with roMask := 0x10000006 }.wf = false
    ∧ { Config.default with eoiOff := 1 }.wf = false ∧ { Config.default with dbCntMask := 0xFFD }.wf = false := by decide

theorem test_reset :
    Memory.wf State.reset = true ∧ quiescent State.reset = true ∧ State.reset.pins = List.replicate 8 0
    ∧ State.reset.snap = List.replicate 8 none ∧ State.reset.master = 0 := by decide

/-- A word placed at reset is run by the next step. -/
theorem test_step_from_reset :
    pinAndEvents 5 (step (State.reset.withFetchWord 64 0x0200000500000400)) = some (0x400, answer .ok 0) := by decide

/-- 95_test_vectors.md section 7. -/
theorem test_step_badCommand :
    masterAndEvents (step (State.reset.withFetchWord 64 0x0500000100000002)) = some (0, answer .badCommand 0) := by decide

/-! ## The textual form (R115, R116), with the lines and words of 95_test_vectors.md -/

theorem test_assemble :
    [assemble ⟨"set_config", [.number 5, .name "DriveStrength", .number 13]⟩,
      assemble ⟨"set_config_group", [.number 2, .name "PullUp", .number 1]⟩,
      assemble ⟨"get_config", [.number 8, .number 0x09]⟩, assemble ⟨"dispatch", [.number (-2147483648)]⟩,
      assemble ⟨"enter", [.name "Hibernate"]⟩, assemble ⟨"write_pin", [.number 5, .number 0x400]⟩].map (Option.map encode)
    = [some 0x110400050000000D, some 0x1203000200000001, some 0x1009000800000000, some 0x2000000080000000,
      some 0x3001000000000000, some 0x0200000500000400] := by decide

theorem test_pseudo :
    [assemble ⟨"debounce_off", [.number 5]⟩, assemble ⟨"pull_down", [.number 5, .number 7]⟩,
      assemble ⟨"pull_up", [.number 5, .number 1]⟩, assemble ⟨"drive", [.number 5, .number 13]⟩, assemble ⟨"irq_pass", []⟩,
      assemble ⟨"wake_check", []⟩, assemble ⟨"suspend", []⟩, assemble ⟨"hibernate", []⟩].map (Option.map encode)
    = [some 0x1101000500000000, some 0x1102000500000007, some 0x1103000500000001, some 0x110400050000000D,
      some 0x2000000000000000, some 0x20000000FFFFFFFF, some 0x3000000000000000, some 0x3001000000000000] := by decide

/-- A line that is no command, a selector and an interrupt number that do not fit. -/
theorem test_assemble_rejects :
    [assemble ⟨"set_config", [.number 5, .name "Filter", .number 1]⟩, assemble ⟨"read_pin", [.number 65536]⟩,
      assemble ⟨"dispatch", [.number 2147483648]⟩, assemble ⟨"enter", [.name "Off"]⟩].all (· == none) = true := by decide

/-! ## Witnesses: for every obligation with hypotheses, a state and operands that meet them

One theorem for each obligation, under its name; a clause of an obligation has its own line. -/

/-- `ZERO(8)` with the lock held. -/
def heldState : State := { zero 8 with lock := .held }

/-- A state with the port holding one word, which the next step takes up. -/
def presented (w : Command) (s : State) : State := { s with port := [w], sched := [.accept 0] }

theorem witness_DecodeOfEncodeIsTheInstruction :
    [Instr.getOther08to0F 0xFFFF 0x0F, .dispatchHw 0x7FFFFFFF, .dispatchQuery 0x80000000].all Instr.wellFormed = true := by
  decide

theorem witness_EncodeOfDecodeIsTheWord : decode 0x110F000500000001 = .ok (.setOther08to0F 5 0x0F 1) := by decide

theorem witness_OpcodeRowsMatchExactlyTheirWords :
    (Instr.setConfigGroup 0 0 0).row ∈ opcodeTable
    ∧ (Instr.setConfigGroup 0 0 0).row.matches 0x1203000200000001 = true := by decide

theorem witness_StepRunsTheDecodedInstruction :
    ((presented 0x0100000500000000 (zero 8)).cfg.wf = true
      ∧ (presented 0x0100000500000000 (zero 8)).sched = [.accept 0]
      ∧ (presented 0x0100000500000000 (zero 8)).port[0]? = some 0x0100000500000000
      ∧ decode 0x0100000500000000 = .ok (.readPin 5))
    ∧ (zero 8).cfg.wf = true ∧ decodeTableWord 64 0x0100000500000000 = some (.readPin 5) := by decide

theorem witness_IllegalWordAnsweredBadCommand :
    (presented 0x0301000000000000 heldState).cfg.wf = true
    ∧ (presented 0x0301000000000000 heldState).sched = [.accept 0]
    ∧ (presented 0x0301000000000000 heldState).port[0]? = some 0x0301000000000000
    ∧ decode 0x0301000000000000 = .error .paramNotZero := by decide

theorem witness_IllFormedConfigurationRefused :
    { zero 8 with cfg := { Config.default with pullUpOff := 4 } }.cfg.wf = false := by decide

theorem witness_StepKeepsTheInvariant :
    inv (presented 0x1101000500000001 (zero 8)) = true
    ∧ ∃ t, step (presented 0x1101000500000001 (zero 8)) = .next t := ⟨by decide, _, rfl⟩

theorem witness_ResetHasTheInvariant : { Config.default with npins := 184 }.wf = true := by decide

theorem witness_ExternalResetReachesTheResetState :
    (dispAt .cbwait .hw 0 0 1 (start 1 0x10000400)).cfg.wf = true := by decide

theorem witness_AllowedActsNeverStop :
    (next .cbRet (dispAt .cbwait .hw 0 0 1 (zero 8))).cfg.wf = true
    ∧ (next .cbRet (dispAt .cbwait .hw 0 0 1 (zero 8))).sched = [.cbRet]
    ∧ actAllowed (next .cbRet (dispAt .cbwait .hw 0 0 1 (zero 8))) .cbRet = true := by decide

theorem witness_BitFieldLaws :
    fieldFits (31, 1#32) = true ∧ fieldFits (12, 0xFFF#32) = true
    ∧ (0x7#32 <<< 6) &&& (0xFFF#32 <<< 12) = 0#32 := by decide

theorem witness_RegisterSpaceReads :
    (zero 8).cfg.wf = true ∧ 7 < (zero 8).cfg.npins ∧ ((2 : Nat) ≠ 4 ∨ 28 % 4 ≠ 0) ∧ ((4 : Nat) ≠ 4 ∨ 30 % 4 ≠ 0)
    ∧ 32 % 4 = 0 ∧ (∀ i < (zero 8).cfg.npins, 32 ≠ (zero 8).cfg.base + 4 * i)
    ∧ 32 ≠ (zero 8).cfg.base + (zero 8).cfg.wakeSts0Off ∧ 32 ≠ (zero 8).cfg.base + (zero 8).cfg.wakeSts1Off
    ∧ 32 ≠ (zero 8).cfg.base + (zero 8).cfg.masterOff := by decide

theorem witness_RegisterSpaceWrites :
    (zero 8).cfg.wf = true ∧ 7 < (zero 8).cfg.npins ∧ ((1 : Nat) ≠ 4 ∨ 0 % 4 ≠ 0)
    ∧ 0x2EC % 4 = 0 ∧ (∀ i < (zero 8).cfg.npins, 0x2EC ≠ (zero 8).cfg.base + 4 * i)
    ∧ 0x2EC ≠ (zero 8).cfg.base + (zero 8).cfg.wakeSts0Off
    ∧ 0x2EC ≠ (zero 8).cfg.base + (zero 8).cfg.wakeSts1Off
    ∧ 0x2EC ≠ (zero 8).cfg.base + (zero 8).cfg.masterOff := by decide

/-- Pins 7 and 8 of 8: the last one and the first that does not exist. The same two serve every single-pin command. -/
theorem witness_ReadPinAnswersTheWholeWord :
    (zero 8).cfg.wf = true ∧ (zero 8).cfg.npins ≤ (8 : Selector).toNat
    ∧ (7 : Selector).toNat < (zero 8).cfg.npins ∧ (zero 8).lock = .free := by decide

theorem witness_WritePinMergesTheData :
    (zero 184).cfg.wf = true ∧ (zero 184).cfg.npins ≤ (184 : Selector).toNat
    ∧ (183 : Selector).toNat < (zero 184).cfg.npins ∧ (zero 184).lock = .free := by decide

theorem witness_ReadWakeStatusAnswersBothWords : (zero 0).cfg.wf = true ∧ (zero 0).lock = .free := by decide

theorem witness_ReadMasterAnswersTheWord : (zero 8).cfg.wf = true ∧ (zero 8).lock = .free := by decide

theorem witness_WriteMasterStoresEveryBit : (zero 184).cfg.wf = true ∧ (zero 184).lock = .free := by decide

theorem witness_GetDebounceAnswersTheRawCount :
    (zero 8).cfg.npins ≤ (8 : Selector).toNat ∧ (7 : Selector).toNat < (zero 8).cfg.npins ∧ (zero 8).lock = .free := by
  decide

theorem witness_GetConfigAnswersThePackedField :
    (zero 0).cfg.wf = true ∧ (zero 1).cfg.wf = true
    ∧ (zero 0).cfg.npins ≤ (0 : Selector).toNat ∧ Instr.getDriveStrength 0 ∈ [Instr.getPullDown 0, .getPullUp 0, .getDriveStrength 0]
    ∧ (0 : Selector).toNat < (zero 1).cfg.npins ∧ (zero 1).lock = .free := by decide

theorem witness_UnknownGetParameterTouchesNothing :
    Instr.getOther80toFF 5 0xFF ∈ [Instr.getOther00 5, .getOther05 5, .getOther06to07 5 0xFF, .getOther08to0F 5 0xFF,
      .getOther10to1F 5 0xFF, .getOther20to3F 5 0xFF, .getOther40to7F 5 0xFF, .getOther80toFF 5 0xFF] := by decide

theorem witness_UnknownSetParameterTouchesNothing :
    Instr.setOther80toFF 5 0xFF 1 ∈ [Instr.setOther00 5 1, .setOther05 5 1, .setOther06to07 5 0xFF 1,
      .setOther08to0F 5 0xFF 1, .setOther10to1F 5 0xFF 1, .setOther20to3F 5 0xFF 1, .setOther40to7F 5 0xFF 1,
      .setOther80toFF 5 0xFF 1] := by decide

theorem witness_SetPullDrivesTheOneBit :
    (zero 8).cfg.wf = true ∧ (zero 8).cfg.npins ≤ (8 : Selector).toNat
    ∧ Instr.setPullUp 8 1 ∈ [Instr.setPullDown 8 1, .setPullUp 8 1]
    ∧ (7 : Selector).toNat < (zero 8).cfg.npins ∧ (zero 8).lock = .free := by decide

theorem witness_SetDriveStrengthWritesLowThreeBits :
    (zero 8).cfg.wf = true ∧ (zero 8).cfg.npins ≤ (65535 : Selector).toNat
    ∧ (7 : Selector).toNat < (zero 8).cfg.npins ∧ (zero 8).lock = .free := by decide

/-- The values 0, 3999 and 4000 on the fine path, 127999 and 128000 on the coarse one, meet the branches in turn. -/
theorem witness_SetDebounceDecidesInOrder :
    (zero 8).cfg.wf = true ∧ (zero 8).cfg.npins ≤ (8 : Selector).toNat
    ∧ (7 : Selector).toNat < (zero 8).cfg.npins ∧ (zero 8).lock = .free
    ∧ ¬ (0xFF : Nat) < 3999 * 1000 / 15625 ∧ (0xFF : Nat) < 4000 * 1000 / 15625
    ∧ ¬ (0xFFF : Nat) < 127999 * 1000 / 31250 ∧ (0xFFF : Nat) < 128000 * 1000 / 31250 := by decide

theorem witness_GetConfigReadsBackWhatWasSet :
    (zero 8).cfg.wf = true ∧ Memory.wf (zero 8) = true ∧ (zero 8).lock = .free ∧ (7 : Selector).toNat < (zero 8).cfg.npins
    ∧ (3999 : Word) ≠ 0#32 ∧ (zero 8).master &&& (zero 8).cfg.dbOverrideBit = 0#32
    ∧ ∃ t, exec (.setDebounce 7 3999) (zero 8) = .next t ∧ t.trace = (zero 8).trace ++ [.response .port .ok 0] :=
  ⟨by decide, by decide, by decide, by decide, by decide, by decide, _, rfl, by decide⟩

theorem witness_FailedSinglePinCommandWritesNothing :
    (zero 8).cfg.wf = true ∧ singleStep (.setDebounce 7 4000) = true ∧ Status.invalidArgument ≠ .ok
    ∧ ∃ t, exec (.setDebounce 7 4000) (zero 8) = .next t
      ∧ t.trace = (zero 8).trace ++ [.response .port .invalidArgument 0] :=
  ⟨by decide, by decide, by decide, _, rfl, by decide⟩

/-- A storing form and a form that stores nothing. -/
theorem witness_SingleStepCommandFrame :
    (zero 8).cfg.wf = true ∧ singleStep (.setPullUp 7 1) = true ∧ singleStep .readMaster = true
    ∧ storedAddress (zero 8).cfg (.setPullUp 7 1) = some 28 ∧ storedAddress (zero 8).cfg .readMaster = none
    ∧ (∃ t, exec (.setPullUp 7 1) (zero 8) = .next t) ∧ ∃ t, exec .readMaster (zero 8) = .next t :=
  ⟨by decide, by decide, by decide, by decide, by decide, ⟨_, rfl⟩, _, rfl⟩

theorem witness_AcceptanceFrame :
    singleStep (.setConfigGroup 1 3 1) = false ∧ (∃ t, exec (.setConfigGroup 1 3 1) (zero 8) = .next t)
    ∧ ∃ t, exec .restore (zero 8) = .next t := ⟨by decide, ⟨_, rfl⟩, _, rfl⟩

theorem witness_BlockedCommandWaitsAtThePort :
    (heldState.lock = .held ∧ (7 : Selector).toNat < heldState.cfg.npins)
    ∧ (dispAt .cbwait .hw 0 0 1 (zero 8)).disp.phase ≠ .idle
    ∧ ((grpAt [1] 0 3 1 (zero 8)).grp.phase ≠ .idle ∧ (4 : Selector).toNat < (grpAt [1] 0 3 1 (zero 8)).cfg.groups.length)
    ∧ (smAt .rest .suspend 0 (zero 8)).sm.phase ≠ .idle := by decide

/-- `READ_PIN` with both other sequencers busy, `ENTER` with the group sequencer busy, `SET_CONFIG_GROUP` with the state
manager busy. -/
theorem witness_CommandsServedDuringTheCallback :
    let s := dispAt .cbwait .hw 0 1 3 (zero 8)
    (inv (grpAt [1] 0 3 1 (smAt .save .suspend 2 s)) = true
      ∧ (grpAt [1] 0 3 1 (smAt .save .suspend 2 s)).disp.phase = .cbwait
      ∧ (∀ q, Instr.readPin 1 ≠ .dispatchHw q ∧ Instr.readPin 1 ≠ .dispatchQuery q)
      ∧ Instr.readPin 1 ∉ [Instr.enterSuspend, .enterHibernate, .restore]
      ∧ ∀ g p v, Instr.readPin 1 ≠ .setConfigGroup g p v)
    ∧ (inv (grpAt [1] 0 3 1 s) = true ∧ (grpAt [1] 0 3 1 s).disp.phase = .cbwait
      ∧ (grpAt [1] 0 3 1 s).sm.phase = .idle)
    ∧ (inv (smAt .save .suspend 2 s) = true ∧ (smAt .save .suspend 2 s).disp.phase = .cbwait
      ∧ (smAt .save .suspend 2 s).grp.phase = .idle) :=
  ⟨⟨by decide, by decide, fun _ => ⟨nofun, nofun⟩, by decide, nofun⟩, by decide, by decide⟩

/-- Groups 4 and 5 of 5: the last one and the first that does not exist. -/
theorem witness_GroupCommandAccepted :
    (zero 8).cfg.groups.length ≤ (5 : Selector).toNat ∧ (zero 8).cfg.groups[(4 : Selector).toNat]? = some [4, 4]
    ∧ (zero 8).grp.phase = .idle := by decide

/-- The end of a list; a pin that does not exist; the unknown tags next to the known ones; a known tag. -/
theorem witness_GroupStepAppliesOnePin :
    ((grpAt [2, 9, 3] 3 2 1 (zero 8)).cfg.wf = true ∧ (grpAt [2, 9, 3] 3 2 1 (zero 8)).grp.phase = .run
      ∧ (grpAt [2, 9, 3] 3 2 1 (zero 8)).lock = .free
      ∧ (grpAt [2, 9, 3] 3 2 1 (zero 8)).grp.list.length ≤ (grpAt [2, 9, 3] 3 2 1 (zero 8)).grp.j)
    ∧ ((grpAt [8] 0 2 1 (zero 8)).grp.list[0]? = some 8 ∧ (zero 8).cfg.npins ≤ 8)
    ∧ ((grpAt [7] 0 5 1 (zero 8)).grp.list[0]? = some 7 ∧ 7 < (zero 8).cfg.npins
      ∧ ((grpAt [7] 0 5 1 (zero 8)).grp.param = 0x00#8 ∨ 0x05#8 ≤ (grpAt [7] 0 5 1 (zero 8)).grp.param))
    ∧ (grpAt [7] 0 4 1 (zero 8)).grp.param = ParamTag.byte .driveStrength
    ∧ ∃ t, setBody .driveStrength 7 1 (grpAt [7] 0 4 1 (zero 8)) = (.ok, t) :=
  ⟨by decide, by decide, by decide, by decide, _, rfl⟩

theorem witness_GroupRunAppliesPinsInOrder :
    inv (zero 8) = true ∧ (zero 8).grp.phase = .idle ∧ (zero 8).cfg.groups[(3 : Selector).toNat]? = some [2, 9, 3]
    ∧ (zero 8).cfg.groups[(0 : Selector).toNat]? = some [] := by decide

theorem witness_DispatchAccepted :
    (zero 8).disp.phase = .idle ∧ (0x7FFFFFFF : Word).msb = false ∧ (0x80000000 : Word).msb = true := by decide

theorem witness_StatusStepSamplesTheBitmap :
    (dispAt .status .hw 0 0 0 (zero 8)).cfg.wf = true ∧ (dispAt .status .hw 0 0 0 (zero 8)).disp.phase = .status
    ∧ (dispAt .status .hw 0 0 0 (zero 8)).lock = .free := by decide

theorem witness_NextStepTakesTheLowestGroup :
    (dispAt .next .query 0 0 0 (zero 8)).cfg.wf = true ∧ (dispAt .next .query 0 0 0 (zero 8)).disp.phase = .next
    ∧ ((dispAt .next .query 0 0 0 (zero 8)).disp.work = 0#46 ∧ (dispAt .next .query 0 0 0 (zero 8)).disp.ctx = .query)
    ∧ ((dispAt .next .hw 0 0 0 (zero 8)).disp.work = 0#46 ∧ (dispAt .next .hw 0 0 0 (zero 8)).disp.ctx = .hw)
    ∧ 45 < 46 ∧ (0x200000000000#46).getLsbD 45 = true ∧ ∀ j < 45, (0x200000000000#46).getLsbD j = false := by decide

/-- Pin 7 of 8, with and without the wake-status bit, and pin 2 of 2. -/
theorem witness_QueryReadTestsTheWakeStatusBit :
    let s := dispAt .read .query 0 1 3 (start 7 0x30000000)
    let u := dispAt .read .query 0 1 3 (start 7 0x10000400)
    (s.cfg.wf = true ∧ s.disp.phase = .read ∧ s.disp.ctx = .query ∧ s.lock = .free)
    ∧ (dispAt .read .query 0 0 2 (zero 2)).cfg.npins ≤ (dispAt .read .query 0 0 2 (zero 2)).disp.pin
    ∧ (s.disp.pin < s.cfg.npins ∧ s.x s.disp.pin &&& s.cfg.wakeStsBit ≠ 0#32)
    ∧ (u.disp.pin < u.cfg.npins ∧ u.x u.disp.pin &&& u.cfg.wakeStsBit = 0#32) := by decide

/-- Pin 7 of 8: pending and unmasked, pending only, unmasked only; and pin 2 of 2. -/
theorem witness_HwReadCallsPendingUnmaskedPins :
    let s := dispAt .read .hw 0 1 3 (start 7 0x10000400)
    let u := dispAt .read .hw 0 1 3 (start 7 0x10000000)
    let v := dispAt .read .hw 0 1 3 (start 7 0x00000400)
    (s.cfg.wf = true ∧ s.disp.phase = .read ∧ s.disp.ctx = .hw ∧ s.lock = .free)
    ∧ (dispAt .read .hw 0 0 2 (zero 2)).cfg.npins ≤ (dispAt .read .hw 0 0 2 (zero 2)).disp.pin
    ∧ (u.disp.pin < u.cfg.npins ∧ u.x u.disp.pin &&& u.cfg.intMaskBit = 0#32)
    ∧ (v.disp.pin < v.cfg.npins ∧ v.x v.disp.pin &&& v.cfg.pendingBit = 0#32)
    ∧ (s.disp.pin < s.cfg.npins ∧ s.x s.disp.pin &&& s.cfg.pendingBit ≠ 0#32
      ∧ s.x s.disp.pin &&& s.cfg.intMaskBit ≠ 0#32) := by decide

theorem witness_CallbackReturnMovesToReread :
    (dispAt .cbwait .hw 0 0 1 (zero 8)).cfg.wf = true ∧ (dispAt .cbwait .hw 0 0 1 (zero 8)).disp.phase = .cbwait
    ∧ (zero 8).disp.phase ≠ .cbwait := by decide

theorem witness_RereadStepUsesTheLiveRegister :
    (dispAt .reread .hw 0 1 3 (start 7 0x10000400)).cfg.wf = true
    ∧ (dispAt .reread .hw 0 1 3 (start 7 0x10000400)).disp.phase = .reread
    ∧ (dispAt .reread .hw 0 1 3 (start 7 0x10000400)).lock = .free := by decide

theorem witness_EoiStepAcknowledgesAndAnswers :
    (dispAt .eoi .hw 0 0 0 (zero 8)).cfg.wf = true ∧ (dispAt .eoi .hw 0 0 0 (zero 8)).disp.phase = .eoi
    ∧ (dispAt .eoi .hw 0 0 0 (zero 8)).lock = .free := by decide

theorem witness_QueryPassWritesNoRegister :
    let s := next (.disp true) (dispAt .read .query 0 1 3 (start 7 0x30000000))
    inv s = true ∧ s.sched = [.disp true] ∧ s.disp.ctx = .query ∧ ∃ t, step s = .next t :=
  ⟨by decide, by decide, by decide, _, rfl⟩

theorem witness_HandledClearedOnlyAtAcceptance :
    let s := presented 0x2000000000000000 { zero 8 with disp := { (zero 8).disp with handled := true } }
    ∃ t, step s = .next t ∧ s.disp.handled = true ∧ t.disp.handled = false := ⟨_, rfl, by decide, by decide⟩

theorem witness_HwPassFollowsTheAlgorithm :
    inv { start 7 0x10000400 with wsts0 := 3 } = true ∧ { start 7 0x10000400 with wsts0 := 3 }.disp.phase = .idle
    ∧ (0 : Word).msb = false := by decide

theorem witness_QueryPassFollowsTheAlgorithm :
    inv { start 7 0x30000000 with wsts0 := 3 } = true ∧ { start 7 0x30000000 with wsts0 := 3 }.disp.phase = .idle
    ∧ (0xFFFFFFFF : Word).msb = true := by decide

theorem witness_ManagerCommandsAccepted : (smAt .idle .hibernate 8 (zero 8)).sm.phase = .idle := by decide

theorem witness_EnterStepSavesAndMasksOnePin :
    (inv (smAt .save .suspend 7 (zero 8)) = true ∧ (smAt .save .suspend 7 (zero 8)).sm.phase = .save
      ∧ (smAt .save .suspend 7 (zero 8)).sm.pin < (zero 8).cfg.npins)
    ∧ (inv (smAt .save .hibernate 8 (zero 8)) = true ∧ (smAt .save .hibernate 8 (zero 8)).sm.pin = (zero 8).cfg.npins) := by
  decide

theorem witness_RestoreStepWritesBackOnePin :
    let s := smAt .rest .suspend 7 { zero 8 with snap := (zero 8).snap.set 7 (some 0x400) }
    (inv s = true ∧ s.sm.phase = .rest ∧ s.sm.pin < s.cfg.npins ∧ s.slot s.sm.pin = some 0x400)
    ∧ (smAt .rest .suspend 6 (zero 8)).slot 6 = none
    ∧ (inv (smAt .rest .suspend 8 (zero 8)) = true ∧ (smAt .rest .suspend 8 (zero 8)).sm.pin = (zero 8).cfg.npins) := by
  decide

theorem witness_EnterRunFollowsTheAlgorithm :
    inv (start 0 0x10040402) = true ∧ (start 0 0x10040402).sm.phase = .idle
    ∧ (Instr.enterHibernate, Mode.hibernate) ∈ [(Instr.enterSuspend, Mode.suspend), (Instr.enterHibernate, Mode.hibernate)] := by
  decide

theorem witness_RestoreRunFollowsTheAlgorithm :
    inv { zero 8 with snap := (zero 8).snap.set 0 (some 0x400) } = true ∧ (zero 8).sm.phase = .idle := by decide

theorem witness_EnterThenRestoreGivesBackThePins :
    inv (start 0 0x10040402) = true ∧ (start 0 0x10040402).sm.phase = .idle
    ∧ Instr.enterSuspend ∈ [Instr.enterSuspend, .enterHibernate] := by decide

theorem witness_ReadOnlyBitsChangeOnlyFromOutside :
    let s := presented 0x02000005FFFFFFFF (start 5 0x10000002)
    s.sched = [.accept 0] ∧ isOutside (.accept 0) = false ∧ ∃ t, step s = .next t := ⟨by decide, by decide, _, rfl⟩

theorem witness_EnvChangesOnlyTheBitsItOwns :
    (zero 8).cfg.wf = true ∧ (zero 8).lock = .free ∧ 7 < (zero 8).pins.length ∧ 6 ≠ 7 := by decide

theorem witness_SnapshotChangesOnlyInEnter :
    let s := next (.sm true) (smAt .save .suspend 7 (zero 8))
    ∃ t, step s = .next t ∧ t.snap ≠ s.snap := ⟨_, rfl, by decide⟩

theorem witness_MasterChangesOnlyByWriteOrEoi :
    let s := next (.disp true) (dispAt .eoi .hw 0 0 0 (zero 8))
    ∃ t, step s = .next t ∧ t.master ≠ s.master := ⟨_, rfl, by decide⟩

theorem witness_ManagerStepTouchesOnlyItsPin :
    let s := next (.sm true) (smAt .save .suspend 7 (zero 8))
    s.sched = [.sm true] ∧ ∃ t, step s = .next t := ⟨by decide, _, rfl⟩

end Sys2Proof.Tests
end

section
/-! PROOFS. 00_scope.md: the configuration a model takes (R9, R11, R13 to R15). -/

namespace Sys2Proof.Proofs

open Sys2Proof.Machine

/-- Settles O7: the configuration is tested before the schedule is looked at, so the refusal holds whatever the rest of
the state is. -/
theorem illFormedConfigurationRefused : Obligations.IllFormedConfigurationRefused := by
  intro s hwf
  have hnot : ¬ s.cfg.wf = true := Bool.eq_false_iff.mp hwf
  exact if_neg hnot

end Sys2Proof.Proofs
end

section
/-! PROOFS. 10_state.md: the invariant, reset, the frame of the commands, and which step may change which piece of the
state (R30 to R60). -/

namespace Sys2Proof.Proofs

open Sys2Proof.Machine Sys2Proof.Safety

/-! ## What taking up a command can do -/

/-- What the port's taking up a command leaves of the state: at most one software write of one pin register, and each
sequencer is as it was or has just been started. -/
structure CommandFrame (s t : State) : Prop where
  pins : ∃ p, OnlyPin p s t
  wsts0 : t.wsts0 = s.wsts0
  wsts1 : t.wsts1 = s.wsts1
  snap : t.snap = s.snap
  lock : t.lock = s.lock
  disp : t.disp = s.disp ∨ ∃ ctx d, t.disp = startedDisp ctx d
  grp : t.grp = s.grp ∨ t.grp.j = 0
  sm : t.sm = s.sm ∨ t.sm.pin = 0

/-- Waiting and answering change nothing that the frame speaks of. -/
theorem CommandFrame.waitAtPort (s : State) (i : Instr) : CommandFrame s (s.waitAtPort i) :=
  ⟨⟨0, .of_same rfl rfl⟩, rfl, rfl, rfl, rfl, .inl rfl, .inl rfl, .inl rfl⟩

theorem CommandFrame.respond (s : State) (g : Engine) (st : Status) (r : Rdata) : CommandFrame s (s.respond g st r) :=
  ⟨⟨0, .of_same rfl rfl⟩, rfl, rfl, rfl, rfl, .inl rfl, .inl rfl, .inl rfl⟩

/-- Every command has the frame. -/
theorem exec_commandFrame {i : Instr} {s t : State} (hw : s.cfg.wf = true) (h : exec i s = .next t) :
    CommandFrame s t := by
  by_cases hi : singleStep i = true
  · rcases exec_singleStep_cases hw hi h with ⟨_, rfl⟩ | ⟨st, r, _, rfl⟩ | ⟨p, v, _, _, rfl⟩ | ⟨data, _, rfl⟩
    · exact .waitAtPort s i
    · exact .respond s .port st r
    · exact ⟨⟨p, (OnlyPin.storePin s p v).congr rfl rfl⟩, rfl, rfl, rfl, rfl, .inl rfl, .inl rfl, .inl rfl⟩
    · exact ⟨⟨0, .of_same (by simp) (by simp)⟩, by simp, by simp, by simp, by simp, .inl (by simp), .inl (by simp),
        .inl (by simp)⟩
  · obtain ⟨u, hu, hcases⟩ := exec_multiStep_cases (s := s) (Bool.eq_false_iff.mpr hi)
    obtain rfl : u = t := Host.Outcome.next.inj (hu.symm.trans h)
    rcases hcases with rfl | rfl | ⟨_, g, p, v, l, _, rfl⟩ | ⟨_, irq, _, rfl⟩ | ⟨_, _, m, ph, _, rfl⟩
    · exact .waitAtPort s i
    · exact .respond s .port .notFound 0
    · exact ⟨⟨0, .of_same rfl rfl⟩, rfl, rfl, rfl, rfl, .inl rfl, .inr rfl, .inl rfl⟩
    · exact ⟨⟨0, .of_same rfl rfl⟩, rfl, rfl, rfl, rfl, .inr ⟨_, _, rfl⟩, .inl rfl, .inl rfl⟩
    · exact ⟨⟨0, .of_same rfl rfl⟩, rfl, rfl, rfl, rfl, .inl rfl, .inl rfl, .inr rfl⟩

/-- The frame does not speak of the port's list. -/
theorem CommandFrame.of_port {s t : State} {ws : List Command} (h : CommandFrame { s with port := ws } t) :
    CommandFrame s t :=
  ⟨h.pins, h.wsts0, h.wsts1, h.snap, h.lock, h.disp, h.grp, h.sm⟩

/-- The port's step has the frame, whether a word waits there or not, and whether it decodes or not. -/
theorem acceptNth_commandFrame {n : Nat} {s t : State} (hw : s.cfg.wf = true) (h : acceptNth n s = .next t) :
    CommandFrame s t := by
  unfold acceptNth at h
  split at h
  · cases h
    exact ⟨⟨0, .of_same rfl rfl⟩, rfl, rfl, rfl, rfl, .inl rfl, .inl rfl, .inl rfl⟩
  · unfold takeCommand at h
    split at h
    · exact (exec_commandFrame (by exact hw) h).of_port
    · cases h
      exact (CommandFrame.respond _ .port .badCommand 0).of_port

/-! ## What the other choices can do -/

/-- A step of the dispatch sequencer writes at most the pin it stands at. -/
theorem dispStep_onlyPin (live : Bool) (s : State) : OnlyPin s.disp.pin s (dispStep live s) := by
  obtain ⟨hcfg, _⟩ := dispStep_frame live s
  rcases dispStep_pins live s with hsame | ⟨_, _, v, hstore⟩
  · exact .of_same hcfg hsame
  · exact (OnlyPin.storePin s s.disp.pin v).congr hcfg hstore

/-- A callback's return that is not refused was asked for (R221). -/
theorem callbackReturn_next {s t : State} (h : callbackReturn s = .next t) : s.disp.phase = .cbwait
    ∧ t = { s with trace := s.trace ++ [.cbRet], disp := { s.disp with phase := .reread } } := by
  by_cases hp : s.disp.phase = .cbwait
  · rw [callbackReturn_cbwait hp] at h
    exact ⟨hp, (Host.Outcome.next.inj h).symm⟩
  · rw [callbackReturn_unasked hp] at h
    cases h

/-- `ENV` at a pin register writes that register's list and nothing else; the lock decides whether it does (R86). -/
theorem envPin_eq (pin : Nat) (v : Word) (s : State) :
    envPin pin v s = { s with pins := (envPin pin v s).pins } := by
  unfold envPin; split <;> rfl

@[simp] theorem envPin_pins_length (pin : Nat) (v : Word) (s : State) :
    (envPin pin v s).pins.length = s.pins.length := by
  unfold envPin; split <;> simp

theorem envWake_eq (w0 w1 : Word) (s : State) :
    envWake w0 w1 s = { s with wsts0 := (envWake w0 w1 s).wsts0, wsts1 := (envWake w0 w1 s).wsts1 } := by
  unfold envWake; split <;> rfl

/-! ## The parts of the invariant -/

theorem dispInRange_congr {s t : State} (hc : t.cfg = s.cfg) (hd : t.disp = s.disp) :
    dispInRange t = dispInRange s := by
  simp only [dispInRange, hc, hd]

/-- R47, as an implication. -/
theorem grpInRange_iff (s : State) : grpInRange s = true ↔ (s.grp.phase = .run → s.grp.j ≤ s.grp.list.length) := by
  unfold grpInRange
  split <;> simp_all

theorem grpInRange_congr {s t : State} (hg : t.grp = s.grp) : grpInRange t = grpInRange s := by
  simp only [grpInRange, hg]

theorem smInRange_congr {s t : State} (hc : t.cfg = s.cfg) (hm : t.sm = s.sm) : smInRange t = smInRange s := by
  simp only [smInRange, hc, hm]

/-- A dispatch sequencer that has just accepted its command is in range. -/
theorem dispInRange_started {t : State} {ctx : Ctx} {d : AcceptDraw} (h : t.disp = startedDisp ctx d) :
    dispInRange t = true := by
  obtain ⟨hk, hi⟩ := startedDisp_range ctx d
  have hphase : (startedDisp ctx d).phase = .status := rfl
  simp [dispInRange, h, hphase, hk, hi]

/-- A state manager at pin 0 is in range. -/
theorem smInRange_zero {t : State} (h : t.sm.pin = 0) : smInRange t = true := by
  unfold smInRange
  split <;> simp [h]

/-- The invariant over a step that keeps the configuration, the number of pin registers and the lock, and writes at most
one snapshot slot, with a word whose pending bit is clear. -/
theorem inv_of_kept {s t : State} (h : inv s = true) (hcfg : t.cfg = s.cfg) (hlen : t.pins.length = s.pins.length)
    (hlock : t.lock = s.lock)
    (hsnap : t.snap = s.snap ∨ ∃ p w, t.snap = s.snap.set p (some (w &&& ~~~s.cfg.pendingBit)))
    (hdisp : dispInRange t = true) (hgrp : grpInRange t = true) (hsm : smInRange t = true) : inv t = true := by
  obtain ⟨hw, hp, hs, hl, hclean, _, _, _⟩ := (inv_iff s).mp h
  have hslots : t.snap.length = s.snap.length := by
    rcases hsnap with hsame | ⟨p, w, hset⟩
    · rw [hsame]
    · simp [hset]
  exact (inv_iff t).mpr ⟨by rw [hcfg, hw], by rw [hlen, hp, hcfg], by rw [hslots, hs, hcfg], by rw [hlock, hl],
    snapClean_set hcfg hclean hsnap, hdisp, hgrp, hsm⟩

/-! ## Reset -/

/-- The reset state of a well-formed configuration has the invariant, whatever is drawn. -/
theorem inv_resetWith {c : Config} (d : ResetDraw) (hw : c.wf = true) : inv (State.resetWith c d) = true := by
  have hclean : snapshotClean (State.resetWith c d) = true := by
    simp [snapshotClean, State.resetWith]
  exact (inv_iff _).mpr ⟨hw, by simp [State.resetWith], by simp [State.resetWith], rfl, hclean, rfl, rfl, rfl⟩

/-! ## Every choice keeps the invariant -/

theorem inv_of_commandFrame {s t : State} (h : inv s = true) (hf : CommandFrame s t) : inv t = true := by
  obtain ⟨_, _, _, _, _, hdisp, hgrp, hsm⟩ := (inv_iff s).mp h
  obtain ⟨_, hcfg, hlen, _⟩ := hf.pins
  apply inv_of_kept h hcfg hlen hf.lock (.inl hf.snap)
  · rcases hf.disp with hsame | ⟨ctx, d, hnew⟩
    · rw [dispInRange_congr hcfg hsame, hdisp]
    · exact dispInRange_started hnew
  · rcases hf.grp with hsame | hzero
    · rw [grpInRange_congr hsame, hgrp]
    · exact (grpInRange_iff t).mpr fun _ => by omega
  · rcases hf.sm with hsame | hzero
    · rw [smInRange_congr hcfg hsame, hsm]
    · exact smInRange_zero hzero

theorem dispStep_keeps_inv (live : Bool) {s : State} (h : inv s = true) : inv (dispStep live s) = true := by
  obtain ⟨_, _, _, hl, _, hdisp, hgrp, hsm⟩ := (inv_iff s).mp h
  obtain ⟨hcfg, _, _, hsnap, hg, hm, _, _, _, hlock⟩ := dispStep_frame live s
  obtain ⟨_, hlen, _⟩ := dispStep_onlyPin live s
  exact inv_of_kept h hcfg hlen (by rw [hlock]) (.inl hsnap) (dispStep_range live hl hdisp)
    (by rw [grpInRange_congr hg, hgrp]) (by rw [smInRange_congr hcfg hm, hsm])

theorem grpStep_keeps_inv {s : State} (h : inv s = true) : inv (grpStep s) = true := by
  obtain ⟨_, _, _, _, _, hdisp, hgrp, hsm⟩ := (inv_iff s).mp h
  obtain ⟨⟨_, hcfg, hlen, _⟩, _, _, _, hsnap, hd, hm, _, _, _, hlock⟩ := grpStep_frame s
  exact inv_of_kept h hcfg hlen hlock (.inl hsnap) (by rw [dispInRange_congr hcfg hd, hdisp])
    ((grpInRange_iff _).mpr (grpStep_index ((grpInRange_iff s).mp hgrp))) (by rw [smInRange_congr hcfg hm, hsm])

theorem smStep_keeps_inv (e : Bool) {s : State} (h : inv s = true) : inv (smStep e s) = true := by
  obtain ⟨_, _, _, hl, _, hdisp, hgrp, hsm⟩ := (inv_iff s).mp h
  obtain ⟨⟨hcfg, hlen, _⟩, _, _, _, hd, hg, _, _, _, hlock, hsnap⟩ := smStep_frame e s
  exact inv_of_kept h hcfg hlen hlock (hsnap.imp_right fun ⟨_, _, _, hset⟩ => ⟨_, _, hset⟩)
    (by rw [dispInRange_congr hcfg hd, hdisp]) (by rw [grpInRange_congr hg, hgrp]) (smStep_range e hl hsm)

/-- The return leads from `CBWAIT` to `REREAD`, of which the invariant says the same. -/
theorem callbackReturn_keeps_inv {s t : State} (h : inv s = true) (hr : callbackReturn s = .next t) :
    inv t = true := by
  obtain ⟨_, _, _, _, _, hdisp, hgrp, hsm⟩ := (inv_iff s).mp h
  obtain ⟨hp, rfl⟩ := callbackReturn_next hr
  have hrange : dispInRange { s with disp := { s.disp with phase := .reread } } = true := by
    simp only [dispInRange, hp] at hdisp
    exact hdisp
  exact inv_of_kept h rfl rfl rfl (.inl rfl) hrange hgrp hsm

/-- Every choice of the schedule that is carried out keeps the invariant. -/
theorem runAct_keeps_inv {a : Act} {s t : State} (h : inv s = true) (ha : runAct a s = .next t) : inv t = true := by
  obtain ⟨hw, _, _, _, _, hdisp, hgrp, hsm⟩ := (inv_iff s).mp h
  cases a with
  | present sender w => cases ha; exact h
  | accept n => exact inv_of_commandFrame h (acceptNth_commandFrame hw ha)
  | draw d => cases ha; exact h
  | disp live => cases ha; exact dispStep_keeps_inv live h
  | grp => cases ha; exact grpStep_keeps_inv h
  | sm eligible => cases ha; exact smStep_keeps_inv eligible h
  | cbRet => exact callbackReturn_keeps_inv h ha
  | envPin pin v =>
    cases ha
    have hlen := envPin_pins_length pin v s
    rw [envPin_eq] at hlen ⊢
    exact inv_of_kept h rfl hlen rfl (.inl rfl) hdisp hgrp hsm
  | envWake w0 w1 =>
    cases ha
    rw [envWake_eq]
    exact h
  | reset d => cases ha; exact inv_resetWith d hw

/-- Settles O8: the step carries out one choice of the schedule or none, and every choice keeps the invariant. -/
theorem stepKeepsTheInvariant : Obligations.StepKeepsTheInvariant := by
  intro s t h hstep
  obtain ⟨_, ⟨_, rfl⟩ | ⟨a, rest, _, ha⟩⟩ := step_cases hstep
  · exact h
  · exact runAct_keeps_inv (s := { s with sched := rest }) h ha

/-- Settles O9: `State.reset` is the reset state of the default configuration, which is well formed. -/
theorem resetHasTheInvariant : Obligations.ResetHasTheInvariant :=
  ⟨fun _ d hw => inv_resetWith d hw, inv_resetWith _ (by decide)⟩

/-! ## What the external reset leaves -/

/-- A pin register after reset: the drawn word's read-only bits, and 0 elsewhere (R57). -/
theorem x_resetWith (c : Config) (d : ResetDraw) {i : Nat} (hi : i < c.npins) :
    (State.resetWith c d).x i = d.pins.getD i 0 &&& c.roMask := by
  simp [State.x, State.resetWith, hi]

/-- Settles O10: the external reset is the reset state with the model's own three fields kept, so each clause is read off
it. -/
theorem externalResetReachesTheResetState : Obligations.ExternalResetReachesTheResetState := by
  intro s d hw
  have hpins : ∀ i < s.cfg.npins, (externalReset d s).x i &&& ~~~s.cfg.roMask = 0#32
      ∧ (externalReset d s).x i &&& s.cfg.roMask = d.pins.getD i 0 &&& s.cfg.roMask := by
    intro i hi
    have hx : (externalReset d s).x i = d.pins.getD i 0 &&& s.cfg.roMask := x_resetWith s.cfg d hi
    rw [hx]
    exact ⟨by simp [BitVec.and_assoc], by rw [BitVec.and_assoc, BitVec.and_self]⟩
  exact ⟨externalReset d s, drive_eq hw _, rfl, hpins, by simp [externalReset, State.resetWith], rfl, rfl, rfl, rfl, rfl,
    rfl, rfl, rfl, rfl, rfl, rfl⟩

/-! ## The frame of the single-step commands -/

/-- A byte depends on the register at its address alone. -/
theorem byteAt_congr {s t : State} {a : Nat} (hc : t.cfg = s.cfg)
    (h : ∀ r, registerAt s.cfg (a - a % 4) = some r → t.readRegister r = s.readRegister r) :
    t.byteAt a = s.byteAt a := by
  unfold State.byteAt
  rw [hc]
  cases hr : registerAt s.cfg (a - a % 4) with
  | none => rfl
  | some r => simp [h r hr]

/-- The bytes outside a pin register keep their values over a software write of it. -/
theorem byteAt_storePin {s : State} {p a : Nat} (v : Word)
    (h : ¬ (pinAddress s.cfg p ≤ a ∧ a < pinAddress s.cfg p + 4)) : (s.storePin p v).byteAt a = s.byteAt a := by
  apply byteAt_congr (State.storePin_cfg s p v)
  intro r hr
  cases r with
  | pin i =>
    obtain ⟨haddr, _⟩ := registerAt_eq_pin hr
    have hne : i ≠ p := by
      rintro rfl
      omega
    exact State.x_storePin_other hne v
  | wsts0 | wsts1 | master => rfl

/-- The bytes outside `MASTER` keep their values over a write of it. -/
theorem byteAt_storeMaster {s : State} {a : Nat} (v : Word)
    (h : ¬ (masterAddress s.cfg ≤ a ∧ a < masterAddress s.cfg + 4)) : (s.storeMaster v).byteAt a = s.byteAt a := by
  apply byteAt_congr (State.storeMaster_cfg s v)
  intro r hr
  cases r with
  | pin i => exact State.x_storeMaster s v i
  | wsts0 => exact State.storeMaster_wsts0 s v
  | wsts1 => exact State.storeMaster_wsts1 s v
  | master =>
    have haddr := registerAt_eq_master hr
    omega

/-- Settles O31: a single-step command waits, or only answers, or writes the one pin register or the `MASTER` its address
names, and then answers. -/
theorem singleStepCommandFrame : Obligations.SingleStepCommandFrame := by
  intro i s t hw hi h
  rcases exec_singleStep_cases hw hi h with ⟨_, rfl⟩ | ⟨st, r, _, rfl⟩ | ⟨p, v, haddr, _, rfl⟩ | ⟨data, rfl, rfl⟩
  · exact ⟨fun _ _ => rfl, rfl, rfl, rfl, rfl, rfl, rfl, rfl, rfl, rfl, fun _ => rfl, fun _ _ => rfl⟩
  · exact ⟨fun _ _ => rfl, rfl, rfl, rfl, rfl, rfl, rfl, rfl, rfl, rfl, fun _ => rfl, fun _ _ => rfl⟩
  · refine ⟨fun a ha => byteAt_storePin v (ha _ haddr), rfl, rfl, rfl, rfl, rfl, rfl, rfl, rfl, rfl, fun _ => rfl, ?_⟩
    intro q hq
    have hne : q ≠ p := by
      rintro rfl
      exact hq _ haddr rfl
    exact State.x_storePin_other hne v
  · exact ⟨fun a ha => byteAt_storeMaster data (ha _ rfl), by simp, by simp, by simp, by simp, by simp, by simp, by simp,
      by simp, by simp, fun hnot => absurd rfl (hnot data), fun q _ => State.x_storeMaster s data q⟩

/-! ## Acceptance of the multi-step commands -/

/-- R211: the sign of `irq` is its top bit. -/
theorem ctxOf_msb (irq : Word) : ctxOf irq = if irq.msb then .query else .hw := by
  simp [ctxOf, BitVec.msb_eq_toInt]

/-- An idle dispatch sequencer starts (R212). -/
theorem acceptDispatch_idle {s : State} (h : s.disp.phase = .idle) (i : Instr) (irq : Word) :
    acceptDispatch i irq s = .next { s with disp := startedDisp (ctxOf irq) s.draw } := by
  simp [acceptDispatch, h]

/-- An idle state manager starts `ENTER` (R251). -/
theorem acceptEnter_idle {s : State} (h : s.sm.phase = .idle) (i : Instr) (mode : Mode) :
    acceptEnter i mode s = .next { s with sm := { phase := .save, mode := mode, pin := 0 } } := by
  simp [acceptEnter, h]

/-- An idle state manager starts `RESTORE` (R260). -/
theorem execRestore_idle {s : State} (h : s.sm.phase = .idle) :
    execRestore s = .next { s with sm := { phase := .rest, mode := s.draw.mode, pin := 0 } } := by
  simp [execRestore, h]

/-- Settles O38: `startedDisp` with the drawn values is the accepted sequencer, one for every `irq` of a sign. -/
theorem dispatchAccepted : Obligations.DispatchAccepted := by
  intro s hidle ctx
  obtain ⟨hk, hi⟩ := startedDisp_range ctx s.draw
  refine ⟨startedDisp ctx s.draw, rfl, rfl, rfl, hk, hi, ?_, ?_⟩
  · rintro rfl irq hsign
    have hctx : ctxOf irq = .hw := by simp [ctxOf_msb, hsign]
    exact hctx ▸ acceptDispatch_idle hidle (.dispatchHw irq) irq
  · rintro rfl irq hsign
    have hctx : ctxOf irq = .query := by simp [ctxOf_msb, hsign]
    exact hctx ▸ acceptDispatch_idle hidle (.dispatchQuery irq) irq

/-- Settles O50: each command is its acceptance, and the drawn mode is the one `RESTORE` writes. -/
theorem managerCommandsAccepted : Obligations.ManagerCommandsAccepted := fun s hidle =>
  ⟨acceptEnter_idle hidle _ _, acceptEnter_idle hidle _ _, s.draw.mode, execRestore_idle hidle⟩

/-! ## Which step changes which piece of the state -/

/-- What a choice can do to the snapshot, `MASTER` and the flag: the reset, the port's step and the steps of the dispatch
sequencer and the state manager aside, nothing. -/
theorem runAct_cases {a : Act} {s t : State} (h : runAct a s = .next t) :
    (∃ d, a = .reset d ∧ t = externalReset d s)
    ∨ (∃ n, a = .accept n ∧ acceptNth n s = .next t)
    ∨ (∃ live, a = .disp live ∧ t = dispStep live s)
    ∨ (∃ e, a = .sm e ∧ t = smStep e s)
    ∨ (t.snap = s.snap ∧ t.master = s.master ∧ t.disp.handled = s.disp.handled) := by
  cases a with
  | reset d => cases h; exact .inl ⟨d, rfl, rfl⟩
  | accept n => exact .inr (.inl ⟨n, rfl, h⟩)
  | disp live => cases h; exact .inr (.inr (.inl ⟨live, rfl, rfl⟩))
  | sm e => cases h; exact .inr (.inr (.inr (.inl ⟨e, rfl, rfl⟩)))
  | present sender w => cases h; exact .inr (.inr (.inr (.inr ⟨rfl, rfl, rfl⟩)))
  | draw d => cases h; exact .inr (.inr (.inr (.inr ⟨rfl, rfl, rfl⟩)))
  | grp =>
    cases h
    obtain ⟨_, _, _, hmaster, hsnap, hdisp, _⟩ := grpStep_frame s
    exact .inr (.inr (.inr (.inr ⟨hsnap, hmaster, by rw [hdisp]⟩)))
  | cbRet =>
    obtain ⟨_, rfl⟩ := callbackReturn_next h
    exact .inr (.inr (.inr (.inr ⟨rfl, rfl, rfl⟩)))
  | envPin pin v =>
    cases h
    rw [envPin_eq]
    exact .inr (.inr (.inr (.inr ⟨rfl, rfl, rfl⟩)))
  | envWake w0 w1 =>
    cases h
    rw [envWake_eq]
    exact .inr (.inr (.inr (.inr ⟨rfl, rfl, rfl⟩)))

/-- The same of a step that changed one of the three: which choice it was, and what that choice did. -/
theorem step_changed_cases {s t : State} (h : step s = .next t)
    (hchanged : ¬ (t.snap = s.snap ∧ t.master = s.master ∧ t.disp.handled = s.disp.handled)) :
    s.cfg.wf = true ∧ ∃ rest,
      (∃ d, s.sched = .reset d :: rest ∧ t = externalReset d { s with sched := rest })
      ∨ (∃ n, s.sched = .accept n :: rest ∧ acceptNth n { s with sched := rest } = .next t)
      ∨ (∃ live, s.sched = .disp live :: rest ∧ t = dispStep live { s with sched := rest })
      ∨ (∃ e, s.sched = .sm e :: rest ∧ t = smStep e { s with sched := rest }) := by
  obtain ⟨hw, ⟨_, rfl⟩ | ⟨a, rest, hs, ha⟩⟩ := step_cases h
  · exact absurd ⟨rfl, rfl, rfl⟩ hchanged
  · refine ⟨hw, rest, ?_⟩
    rcases runAct_cases ha with ⟨d, rfl, ht⟩ | ⟨n, rfl, ht⟩ | ⟨live, rfl, ht⟩ | ⟨e, rfl, ht⟩ | hsame
    · exact .inl ⟨d, hs, ht⟩
    · exact .inr (.inl ⟨n, hs, ht⟩)
    · exact .inr (.inr (.inl ⟨live, hs, ht⟩))
    · exact .inr (.inr (.inr ⟨e, hs, ht⟩))
    · exact absurd hsame hchanged

/-- Settles O47: of the choices that can touch the flag, the sequencer's own step only sets it, the state manager's
leaves it, and the port clears it only by starting a pass. -/
theorem handledClearedOnlyAtAcceptance : Obligations.HandledClearedOnlyAtAcceptance := by
  intro s t h hset hclear
  have hne : t.disp ≠ s.disp := by
    intro heq
    simp [heq, hset] at hclear
  obtain ⟨hw, rest, hcases⟩ := step_changed_cases h fun ⟨_, _, heq⟩ => by simp [heq, hset] at hclear
  rcases hcases with ⟨d, hs, _⟩ | ⟨n, hs, ha⟩ | ⟨live, _, rfl⟩ | ⟨e, _, rfl⟩
  · exact .inl ⟨d, rest, hs⟩
  · obtain ⟨_, _, hsame | ⟨hidle, hstatus, w, irq, hport, hdec⟩⟩ := acceptNth_cases (by exact hw) ha
    · exact absurd hsame hne
    · exact .inr ⟨hidle, hstatus, n, rest, w, irq, hs, hport, hdec⟩
  · have hkept := dispStep_handled live { s with sched := rest } hset
    simp [hkept] at hclear
  · obtain ⟨_, _, _, _, hdisp, _⟩ := smStep_frame e { s with sched := rest }
    exact absurd hdisp hne

/-- Settles O58: neither the port nor the dispatch sequencer writes a slot, and the state manager writes one only in
`SAVE`. -/
theorem snapshotChangesOnlyInEnter : Obligations.SnapshotChangesOnlyInEnter := by
  intro s t h hne
  obtain ⟨hw, rest, hcases⟩ := step_changed_cases h fun ⟨heq, _, _⟩ => hne heq
  rcases hcases with ⟨d, hs, _⟩ | ⟨n, _, ha⟩ | ⟨live, _, rfl⟩ | ⟨e, hs, rfl⟩
  · exact .inl ⟨d, rest, hs⟩
  · obtain ⟨hsnap, _⟩ := acceptNth_cases (by exact hw) ha
    exact absurd hsnap hne
  · obtain ⟨_, _, _, hsnap, _⟩ := dispStep_frame live { s with sched := rest }
    exact absurd hsnap hne
  · obtain ⟨_, _, _, _, _, _, _, _, _, _, hsnap | ⟨rfl, hsave, _, hsnap⟩⟩ := smStep_frame e { s with sched := rest }
    · exact absurd hsnap hne
    · refine .inr ⟨rest, hs, hsave, fun p hp => ?_⟩
      simp [State.slot, hsnap, List.getD_eq_getElem?_getD, List.getElem?_set_ne (Ne.symm hp)]

/-- Settles O59: the state manager leaves `MASTER`, the dispatch sequencer writes it in its EOI step only, and of the
commands the port takes up `WRITE_MASTER` alone does. -/
theorem masterChangesOnlyByWriteOrEoi : Obligations.MasterChangesOnlyByWriteOrEoi := by
  intro s t h hne
  obtain ⟨hw, rest, hcases⟩ := step_changed_cases h fun ⟨_, heq, _⟩ => hne heq
  rcases hcases with ⟨d, hs, rfl⟩ | ⟨n, hs, ha⟩ | ⟨live, hs, rfl⟩ | ⟨e, _, rfl⟩
  · exact .inl ⟨d, rest, hs, rfl⟩
  · obtain ⟨_, hsame | ⟨w, data, hport, hdec, hdata⟩, _⟩ := acceptNth_cases (by exact hw) ha
    · exact absurd hsame hne
    · exact .inr (.inr ⟨n, rest, w, data, hs, hport, hdec, hdata⟩)
  · rcases dispStep_master live { s with sched := rest } with hsame | ⟨heoi, hmaster⟩
    · exact absurd hsame hne
    · exact .inr (.inl ⟨live, rest, hs, heoi, hmaster⟩)
  · obtain ⟨_, _, _, hmaster, _⟩ := smStep_frame e { s with sched := rest }
    exact absurd hmaster hne

/-! ## What only `ENV` changes -/

/-- A choice from inside the block writes at most one pin register, its read-only bits excepted, and no wake-status
word. -/
theorem runAct_inside_frame {a : Act} {s t : State} (hw : s.cfg.wf = true) (ha : isOutside a = false)
    (h : runAct a s = .next t) : (∃ p, OnlyPin p s t) ∧ t.wsts0 = s.wsts0 ∧ t.wsts1 = s.wsts1 := by
  cases a with
  | present sender w => cases h; exact ⟨⟨0, .of_same rfl rfl⟩, rfl, rfl⟩
  | draw d => cases h; exact ⟨⟨0, .of_same rfl rfl⟩, rfl, rfl⟩
  | accept n =>
    have hf := acceptNth_commandFrame hw h
    exact ⟨hf.pins, hf.wsts0, hf.wsts1⟩
  | disp live =>
    cases h
    obtain ⟨_, h0, h1, _⟩ := dispStep_frame live s
    exact ⟨⟨_, dispStep_onlyPin live s⟩, h0, h1⟩
  | grp =>
    cases h
    obtain ⟨hp, h0, h1, _⟩ := grpStep_frame s
    exact ⟨hp, h0, h1⟩
  | sm e =>
    cases h
    obtain ⟨hp, h0, h1, _⟩ := smStep_frame e s
    exact ⟨⟨_, hp⟩, h0, h1⟩
  | cbRet =>
    obtain ⟨_, rfl⟩ := callbackReturn_next h
    exact ⟨⟨0, .of_same rfl rfl⟩, rfl, rfl⟩
  | envPin | envWake | reset => simp [isOutside] at ha

/-- Settles O56: a choice from inside writes pin registers through the merge alone, which keeps the bits in `RO_MASK`. -/
theorem readOnlyBitsChangeOnlyFromOutside : Obligations.ReadOnlyBitsChangeOnlyFromOutside := by
  intro s t a rest hs ha h
  obtain ⟨hw, ⟨hnil, _⟩ | ⟨a', rest', hs', hrun⟩⟩ := step_cases h
  · simp [hs] at hnil
  · obtain ⟨rfl, rfl⟩ : a = a' ∧ rest = rest' := by simpa using hs.symm.trans hs'
    obtain ⟨⟨p, _, _, hx⟩, h0, h1⟩ := runAct_inside_frame (by exact hw) ha hrun
    exact ⟨fun q => (hx q).1, h0, h1⟩

/-- A merged word's bits outside the mask are the new word's (R76). -/
theorem hwMerge_and_not_mask (m o n : Word) : hwMerge m o n &&& ~~~m = n &&& ~~~m := by
  apply BitVec.eq_of_getLsbD_eq
  intro j hj
  cases hm : m.getLsbD j <;> simp [-BitVec.getLsbD_eq_getElem, getLsbD_hwMerge, hm]

theorem envPin_free {s : State} (hl : s.lock = .free) (p : Nat) (v : Word) :
    envPin p v s = { s with pins := s.pins.set p (hwMerge s.cfg.roMask v (s.x p)) } := by
  simp [envPin, hl]

/-- The register `ENV` writes takes its read-only bits from the value and keeps the others (R37, R38). -/
theorem x_envPin_self {s : State} (hl : s.lock = .free) {p : Nat} (hp : p < s.pins.length) (v : Word) :
    (envPin p v s).x p = hwMerge s.cfg.roMask v (s.x p) := by
  rw [envPin_free hl]
  simp [State.x, List.getD_eq_getElem?_getD, hp]

theorem x_envPin_other {p q : Nat} (h : q ≠ p) (v : Word) (s : State) : (envPin p v s).x q = s.x q := by
  unfold envPin
  split
  · rfl
  · simp [State.x, List.getD_eq_getElem?_getD, List.getElem?_set_ne (Ne.symm h)]

/-- A write past the last register is none. -/
theorem x_envPin_past {s : State} {p : Nat} (h : s.pins.length ≤ p) (v : Word) (q : Nat) :
    (envPin p v s).x q = s.x q := by
  unfold envPin
  split
  · rfl
  · exact State.x_congr (List.set_eq_of_length_le h) q

/-- `ENV` keeps the writable bits of every register. -/
theorem envPin_keeps_writable {s : State} (hl : s.lock = .free) (p : Nat) (v : Word) (q : Nat) :
    (envPin p v s).x q &&& ~~~s.cfg.roMask = s.x q &&& ~~~s.cfg.roMask := by
  by_cases hq : q = p
  · subst hq
    rcases Nat.lt_or_ge q s.pins.length with hp | hp
    · rw [x_envPin_self hl hp, hwMerge_and_not_mask]
    · rw [x_envPin_past hp]
  · rw [x_envPin_other hq]

/-- Settles O57: `ENV`'s write of a pin register is the merge with the two words in the other places. -/
theorem envChangesOnlyTheBitsItOwns : Obligations.EnvChangesOnlyTheBitsItOwns := by
  intro s p v w0 w1 hw hl
  constructor
  · refine ⟨envPin p v s, drive_eq hw _, envPin_eq p v s, envPin_pins_length p v s, envPin_keeps_writable hl p v,
      fun q hq => x_envPin_other hq v s, fun hp => ?_⟩
    rw [x_envPin_self hl hp, hwMerge_and_mask]
  · rw [drive_eq hw]
    simp [runAct, envWake, hl]

end Sys2Proof.Proofs
end

section
/-! PROOFS. 20_memory.md: the register space, the write merge, and the command that waits at the port (R71 to R76, R83,
R104). -/

namespace Sys2Proof.Proofs

open Sys2Proof.Machine

/-- Settles O12: a bit of the merged word is the old one inside the mask and the new one outside it. -/
theorem writeMergeKeepsReadOnlyBits : Obligations.WriteMergeKeepsReadOnlyBits := getLsbD_hwMerge

/-! ## Refused accesses -/

/-- R74: an access of another size, or not aligned, is refused whatever the map has. -/
theorem accessTarget_badAccess {a n : Nat} (h : n ≠ 4 ∨ a % 4 ≠ 0) (c : Config) :
    accessTarget c a n = .error .badAccess :=
  if_pos h

/-- R71 has nothing at an address that is no register's: the map's condition for a pin register names the pin. -/
theorem registerAt_none {c : Config} {a : Nat} (hpin : ∀ i < c.npins, a ≠ pinAddress c i) (h0 : a ≠ wsts0Address c)
    (h1 : a ≠ wsts1Address c) (hm : a ≠ masterAddress c) : registerAt c a = none := by
  have hnopin : ¬ (c.base ≤ a ∧ (a - c.base) % 4 = 0 ∧ (a - c.base) / 4 < c.npins) := by
    rintro ⟨hbase, hmod, hlt⟩
    have haddr : a = pinAddress c ((a - c.base) / 4) := by
      unfold pinAddress
      omega
    exact hpin _ hlt haddr
  unfold registerAt
  rw [if_neg hnopin, if_neg h0, if_neg h1, if_neg hm]

/-- R75: an aligned 4-byte access where the map has nothing is refused. -/
theorem accessTarget_unmapped {c : Config} {a : Nat} (ha : a % 4 = 0) (h : registerAt c a = none) :
    accessTarget c a 4 = .error .unmappedAddress := by
  simp [accessTarget, ha, h]

/-- A read is refused as its access is. -/
theorem memRead_refused {s : State} {a n : Nat} {r : Refusal} (h : accessTarget s.cfg a n = .error r) :
    memRead a n s = .error r := by
  simp [memRead, h, Except.map]

/-- A write is refused as its access is. -/
theorem memWrite_refused {s : State} {a n : Nat} {r : Refusal} (h : accessTarget s.cfg a n = .error r) (v : Word) :
    memWrite a n v s = .error r := by
  simp [memWrite, h, Except.map]

/-! ## The register space -/

/-- Settles O14: the map has each register at its own address, and every other access is refused before any register is
looked at. -/
theorem registerSpaceReads : Obligations.RegisterSpaceReads := by
  intro s hw
  refine ⟨fun i hi => memRead_pin hw hi, memRead_wsts0 hw, memRead_wsts1 hw, memRead_master hw, ?_, ?_⟩
  · intro a n hbad
    exact memRead_refused (accessTarget_badAccess hbad s.cfg)
  · intro a ha hpin h0 h1 hm
    exact memRead_refused (accessTarget_unmapped ha (registerAt_none hpin h0 h1 hm))

/-- What a write of `MASTER` leaves, as one state (R73, R297). -/
theorem storeMaster_eq (s : State) (v : Word) : s.storeMaster v = { s with
    master := v
    trace := s.trace ++ if v &&& s.cfg.eoiBit ≠ 0#32 then [.eoiWritten] else [] } := by
  by_cases heoi : v &&& s.cfg.eoiBit = 0#32 <;> simp [State.storeMaster, State.emit, anySet, heoi]

/-- Settles O15: the write reaches the register the map has at the address, and every other access is refused before any
register is written. -/
theorem registerSpaceWrites : Obligations.RegisterSpaceWrites := by
  intro s v hw
  refine ⟨fun i hi => memWrite_pin hw hi v, memWrite_wsts0 hw v, memWrite_wsts1 hw v, ?_, ?_, ?_⟩
  · rw [← storeMaster_eq]
    exact memWrite_master hw v
  · intro a n hbad
    exact memWrite_refused (accessTarget_badAccess hbad s.cfg) v
  · intro a ha hpin h0 h1 hm
    exact memWrite_refused (accessTarget_unmapped ha (registerAt_none hpin h0 h1 hm)) v

/-! ## Waiting at the port -/

/-- An existing pin passes the selector's check, so `READ_PIN` waits for the lock. -/
theorem execReadPin_held {pin : Selector} {s : State} (hp : pin.toNat < s.cfg.npins) (hl : s.lock = .held) :
    execReadPin pin s = .next (s.waitAtPort (.readPin pin)) := by
  rw [execReadPin, if_neg (Nat.not_le.mpr hp), portSection_held hl]

theorem execWritePin_held {pin : Selector} {s : State} (hp : pin.toNat < s.cfg.npins) (hl : s.lock = .held)
    (data : Word) : execWritePin pin data s = .next (s.waitAtPort (.writePin pin data)) := by
  rw [execWritePin, if_neg (Nat.not_le.mpr hp), portSection_held hl]

theorem execReadWakeStatus_held {s : State} (hl : s.lock = .held) :
    execReadWakeStatus s = .next (s.waitAtPort .readWakeStatus) :=
  portSection_held hl _ _

theorem execReadMaster_held {s : State} (hl : s.lock = .held) :
    execReadMaster s = .next (s.waitAtPort .readMaster) :=
  portSection_held hl _ _

theorem execWriteMaster_held {s : State} (hl : s.lock = .held) (data : Word) :
    execWriteMaster data s = .next (s.waitAtPort (.writeMaster data)) :=
  portSection_held hl _ _

theorem codecGet_held {pin : Selector} {s : State} (hp : pin.toNat < s.cfg.npins) (hl : s.lock = .held) (i : Instr)
    (tag : ParamTag) : codecGet i tag pin s = .next (s.waitAtPort i) := by
  rw [codecGet, if_neg (Nat.not_le.mpr hp), portSection_held hl]

/-- A busy dispatch sequencer accepts nothing (R104). -/
theorem acceptDispatch_busy {s : State} (h : s.disp.phase ≠ .idle) (i : Instr) (irq : Word) :
    acceptDispatch i irq s = .next (s.waitAtPort i) := by
  unfold acceptDispatch
  split
  · contradiction
  · rfl

/-- A busy group sequencer makes a command of an existing group wait (R104). -/
theorem execSetConfigGroup_busy {s : State} {group : Selector} (h : s.grp.phase ≠ .idle)
    (hg : group.toNat < s.cfg.groups.length) (param : ParamByte) (value : Word) :
    execSetConfigGroup group param value s = .next (s.waitAtPort (.setConfigGroup group param value)) := by
  have hlist : s.cfg.groups[group.toNat]? = some s.cfg.groups[group.toNat] := List.getElem?_eq_getElem hg
  have hrun : s.grp.phase = .run := by cases hp : s.grp.phase <;> simp_all
  simp [execSetConfigGroup, hlist, hrun]

/-- A busy state manager accepts neither `ENTER` nor `RESTORE` (R104). -/
theorem acceptEnter_busy {s : State} (h : s.sm.phase ≠ .idle) (i : Instr) (mode : Mode) :
    acceptEnter i mode s = .next (s.waitAtPort i) := by
  unfold acceptEnter
  split
  · contradiction
  · rfl

theorem execRestore_busy {s : State} (h : s.sm.phase ≠ .idle) : execRestore s = .next (s.waitAtPort .restore) := by
  unfold execRestore
  split
  · contradiction
  · rfl

/-- Settles O33: a command that touches a register is a section of the lock, and a multi-step command asks its own
sequencer; each list is taken apart and every command has the lemma of its kind. -/
theorem blockedCommandWaitsAtThePort : Obligations.BlockedCommandWaitsAtThePort := by
  intro s pin group param v
  simp only [List.forall_mem_cons]
  refine ⟨fun hl hp => ?_, fun h => ?_, execSetConfigGroup_busy (param := param) (value := v), fun h => ?_⟩
  · exact ⟨execReadPin_held hp hl, execWritePin_held hp hl v, execReadWakeStatus_held hl, execReadMaster_held hl,
      execWriteMaster_held hl v, codecGet_held hp hl _ _, codecGet_held hp hl _ _, codecGet_held hp hl _ _,
      codecGet_held hp hl _ _, codecSet_held hp hl, codecSet_held hp hl, codecSet_held hp hl, codecSet_held hp hl,
      List.forall_mem_nil _⟩
  · exact ⟨acceptDispatch_busy h _ v, acceptDispatch_busy h _ v, List.forall_mem_nil _⟩
  · exact ⟨acceptEnter_busy h _ _, acceptEnter_busy h _ _, execRestore_busy h, List.forall_mem_nil _⟩

end Sys2Proof.Proofs
end

section
/-! PROOFS. 30_encoding.md: the round trip of the encoding in both directions, the rows of the opcode table, and what the
port's taking up a word does; with the packed answers of `GET_CONFIG` (R100 to R118, R173 to R175). -/

namespace Sys2Proof.Proofs

open Sys2Proof.Machine Sys2Proof.Laws

/-! ## Words by their fields -/

/-- Words are equal exactly when their four fields are (R101). -/
theorem packWord_inj {o o' : BitVec 8} {p p' : ParamByte} {s s' : Selector} {d d' : Word} :
    packWord o p s d = packWord o' p' s' d' ↔ o = o' ∧ p = p' ∧ s = s' ∧ d = d' := by
  constructor
  · intro h
    exact ⟨by simpa using congrArg opcField h, by simpa using congrArg paramField h,
      by simpa using congrArg selField h, by simpa using congrArg dataField h⟩
  · rintro ⟨rfl, rfl, rfl, rfl⟩
    rfl

/-- Every word is a packed word. -/
theorem exists_packWord (w : Command) : ∃ o p s d, w = packWord o p s d :=
  ⟨_, _, _, _, (packWord_fields w).symm⟩

/-- A word matches a row exactly when each of its fields does. -/
theorem matches_iff_fields (r : OpcodeRow) (w : Command) : r.matches w = true ↔
    opcField w &&& opcField r.mask = opcField r.pattern ∧ paramField w &&& paramField r.mask = paramField r.pattern
      ∧ selField w &&& selField r.mask = selField r.pattern
      ∧ dataField w &&& dataField r.mask = dataField r.pattern := by
  rw [OpcodeRow.matches, beq_iff_eq, ← packWord_fields (w &&& r.mask), ← packWord_fields r.pattern, packWord_inj,
    packWord_fields r.pattern]
  simp only [opcField, paramField, selField, dataField, BitVec.extractLsb'_and]

/-! ## A word that decodes -/

/-- R102: the format lets a word through exactly when the fields it passes here are zero. -/
theorem mustBeZero_ok {p : ParamByte} {s : Selector} {d : Word} {i j : Instr} :
    mustBeZero p s d i = .ok j ↔ p = 0#8 ∧ s = 0#16 ∧ d = 0#32 ∧ i = j := by
  unfold mustBeZero
  split_ifs <;> simp_all

/-- The tag is in its row's range. -/
theorem paramIn_iff {lo hi : Nat} {p : ParamByte} : paramIn lo hi p = true ↔ lo ≤ p.toNat ∧ p.toNat ≤ hi := by
  simp [paramIn]

/-- `i` is the well-formed instruction of the word `w`. -/
def Encodes (i : Instr) (w : Command) : Prop := w = encode i ∧ i.wellFormed = true

/-- The variant of `GET_CONFIG` keeps its tag, and the tag is in the variant's range. -/
theorem getVariant_encodes (pin : Selector) (p : ParamByte) :
    Encodes (getVariant pin p) (packWord 0x10#8 p pin 0) := by
  have hp := p.isLt
  fun_cases getVariant pin p
  -- the tags with a row of their own, then the ranges
  iterate 6 (subst p; exact ⟨rfl, rfl⟩)
  all_goals exact ⟨rfl, paramIn_iff.mpr (by bv_omega)⟩

/-- The same of `SET_CONFIG`. -/
theorem setVariant_encodes (pin : Selector) (p : ParamByte) (value : Word) :
    Encodes (setVariant pin p value) (packWord 0x11#8 p pin value) := by
  have hp := p.isLt
  fun_cases setVariant pin p value
  -- the tags with a row of their own, then the ranges
  iterate 6 (subst p; exact ⟨rfl, rfl⟩)
  all_goals exact ⟨rfl, paramIn_iff.mpr (by bv_omega)⟩

/-- The sign of `irq` selects the variant of `DISPATCH` (R211). -/
theorem dispatchVariant_encodes (irq : Word) :
    Encodes (if irq.msb then .dispatchQuery irq else .dispatchHw irq) (packWord 0x20#8 0 0 irq) := by
  split
  · next hm => exact ⟨rfl, hm⟩
  · next hm => exact ⟨rfl, by simpa [Instr.wellFormed] using hm⟩

/-- Bit 0 of `PARAM`, the only one that may be set, selects the mode of `ENTER` (R107). -/
theorem enterVariant_encodes {p : ParamByte} (h : p &&& 0xFE#8 = 0#8) :
    Encodes (if p.getLsbD 0 then .enterHibernate else .enterSuspend) (packWord 0x30#8 p 0 0) := by
  have hp : p = 0#8 ∨ p = 1#8 := by revert p; decide
  rcases hp with rfl | rfl <;> exact ⟨rfl, rfl⟩

/-- Each opcode's format puts every bit of a legal word into the instruction or demands it zero (R102, R110, R112). -/
theorem decodeFields_encodes {o : BitVec 8} {p : ParamByte} {s : Selector} {d : Word} {i : Instr}
    (h : decodeFields o p s d = .ok i) : Encodes i (packWord o p s d) := by
  revert h
  fun_cases decodeFields o p s d <;> intro h
  case case6 => -- `GET_CONFIG`
    obtain ⟨-, -, rfl, rfl⟩ := mustBeZero_ok.mp h
    subst o
    exact getVariant_encodes s p
  case case7 => -- `SET_CONFIG`
    cases h
    subst o
    exact setVariant_encodes s p d
  case case8 => -- `SET_CONFIG_GROUP`
    cases h
    subst o
    exact ⟨rfl, rfl⟩
  case case9 => -- `DISPATCH`
    obtain ⟨rfl, rfl, -, rfl⟩ := mustBeZero_ok.mp h
    subst o
    exact dispatchVariant_encodes d
  case case10 => -- `ENTER`
    obtain ⟨hp, rfl, rfl, rfl⟩ := mustBeZero_ok.mp h
    subst o
    exact enterVariant_encodes hp
  case case12 => cases h -- a reserved opcode
  all_goals -- an opcode with one row, whose format demands the other fields zero
    obtain ⟨hp, hs, hd, rfl⟩ := mustBeZero_ok.mp h
    subst_vars
    exact ⟨rfl, rfl⟩

/-- A word is its four fields, so the decoder's reading of them is its reading of the word. -/
theorem decode_encodes {w : Command} {i : Instr} (h : decode w = .ok i) : Encodes i w := by
  rw [← packWord_fields w]
  exact decodeFields_encodes h

/-- The word of a well-formed instruction decodes to it, command by command. -/
theorem decode_encode {i : Instr} (h : i.wellFormed = true) : decode (encode i) = .ok i := by
  cases i with
  | readPin pin => exact RoundTrip.readPin pin h
  | writePin pin data => exact RoundTrip.writePin pin data h
  | readWakeStatus => exact RoundTrip.readWakeStatus h
  | readMaster => exact RoundTrip.readMaster h
  | writeMaster data => exact RoundTrip.writeMaster data h
  | getDebounce pin => exact RoundTrip.getDebounce pin h
  | getPullDown pin => exact RoundTrip.getPullDown pin h
  | getPullUp pin => exact RoundTrip.getPullUp pin h
  | getDriveStrength pin => exact RoundTrip.getDriveStrength pin h
  | getOther00 pin => exact RoundTrip.getOther00 pin h
  | getOther05 pin => exact RoundTrip.getOther05 pin h
  | getOther06to07 pin param => exact RoundTrip.getOther06to07 pin param h
  | getOther08to0F pin param => exact RoundTrip.getOther08to0F pin param h
  | getOther10to1F pin param => exact RoundTrip.getOther10to1F pin param h
  | getOther20to3F pin param => exact RoundTrip.getOther20to3F pin param h
  | getOther40to7F pin param => exact RoundTrip.getOther40to7F pin param h
  | getOther80toFF pin param => exact RoundTrip.getOther80toFF pin param h
  | setDebounce pin value => exact RoundTrip.setDebounce pin value h
  | setPullDown pin value => exact RoundTrip.setPullDown pin value h
  | setPullUp pin value => exact RoundTrip.setPullUp pin value h
  | setDriveStrength pin value => exact RoundTrip.setDriveStrength pin value h
  | setOther00 pin value => exact RoundTrip.setOther00 pin value h
  | setOther05 pin value => exact RoundTrip.setOther05 pin value h
  | setOther06to07 pin param value => exact RoundTrip.setOther06to07 pin param value h
  | setOther08to0F pin param value => exact RoundTrip.setOther08to0F pin param value h
  | setOther10to1F pin param value => exact RoundTrip.setOther10to1F pin param value h
  | setOther20to3F pin param value => exact RoundTrip.setOther20to3F pin param value h
  | setOther40to7F pin param value => exact RoundTrip.setOther40to7F pin param value h
  | setOther80toFF pin param value => exact RoundTrip.setOther80toFF pin param value h
  | setConfigGroup group param value => exact RoundTrip.setConfigGroup group param value h
  | dispatchHw irq => exact RoundTrip.dispatchHw irq h
  | dispatchQuery irq => exact RoundTrip.dispatchQuery irq h
  | enterSuspend => exact RoundTrip.enterSuspend h
  | enterHibernate => exact RoundTrip.enterHibernate h
  | restore => exact RoundTrip.restore h

/-- R114: the decoder and the encoder say the same of every word. -/
theorem decode_ok_iff {w : Command} {i : Instr} : decode w = .ok i ↔ Encodes i w := by
  constructor
  · exact decode_encodes
  · rintro ⟨rfl, hwf⟩
    exact decode_encode hwf

/-- Settles O1: each command's round trip, for every value of its operands. -/
theorem decodeOfEncodeIsTheInstruction : Obligations.DecodeOfEncodeIsTheInstruction :=
  fun _ hwf => decode_ok_iff.mpr ⟨rfl, hwf⟩

/-- Settles O2: each opcode's format keeps the four fields of its words. -/
theorem encodeOfDecodeIsTheWord : Obligations.EncodeOfDecodeIsTheWord := by
  intro w i h
  obtain ⟨hw, hwf⟩ := decode_ok_iff.mp h
  exact ⟨hw.symm, hwf⟩

/-- Settles O4: each word's four fields are looked up in the opcode map. -/
theorem workedEncodingsDecode : Obligations.WorkedEncodingsDecode := by
  refine ⟨?_, ?_, ?_, ?_, ?_, ?_, ?_, ?_, ?_, ?_, ?_, ?_, ?_, ?_, ?_⟩ <;> decide

/-! ## The rows of the opcode table -/

/-- The instruction of `i`'s row that has its operands from the fields of `w` (R101, R105). -/
def withOperandsOf (w : Command) : Instr → Instr
  | .readPin _ => .readPin (selField w)
  | .writePin _ _ => .writePin (selField w) (dataField w)
  | .readWakeStatus => .readWakeStatus
  | .readMaster => .readMaster
  | .writeMaster _ => .writeMaster (dataField w)
  | .getDebounce _ => .getDebounce (selField w)
  | .getPullDown _ => .getPullDown (selField w)
  | .getPullUp _ => .getPullUp (selField w)
  | .getDriveStrength _ => .getDriveStrength (selField w)
  | .getOther00 _ => .getOther00 (selField w)
  | .getOther05 _ => .getOther05 (selField w)
  | .getOther06to07 _ _ => .getOther06to07 (selField w) (paramField w)
  | .getOther08to0F _ _ => .getOther08to0F (selField w) (paramField w)
  | .getOther10to1F _ _ => .getOther10to1F (selField w) (paramField w)
  | .getOther20to3F _ _ => .getOther20to3F (selField w) (paramField w)
  | .getOther40to7F _ _ => .getOther40to7F (selField w) (paramField w)
  | .getOther80toFF _ _ => .getOther80toFF (selField w) (paramField w)
  | .setDebounce _ _ => .setDebounce (selField w) (dataField w)
  | .setPullDown _ _ => .setPullDown (selField w) (dataField w)
  | .setPullUp _ _ => .setPullUp (selField w) (dataField w)
  | .setDriveStrength _ _ => .setDriveStrength (selField w) (dataField w)
  | .setOther00 _ _ => .setOther00 (selField w) (dataField w)
  | .setOther05 _ _ => .setOther05 (selField w) (dataField w)
  | .setOther06to07 _ _ _ => .setOther06to07 (selField w) (paramField w) (dataField w)
  | .setOther08to0F _ _ _ => .setOther08to0F (selField w) (paramField w) (dataField w)
  | .setOther10to1F _ _ _ => .setOther10to1F (selField w) (paramField w) (dataField w)
  | .setOther20to3F _ _ _ => .setOther20to3F (selField w) (paramField w) (dataField w)
  | .setOther40to7F _ _ _ => .setOther40to7F (selField w) (paramField w) (dataField w)
  | .setOther80toFF _ _ _ => .setOther80toFF (selField w) (paramField w) (dataField w)
  | .setConfigGroup _ _ _ => .setConfigGroup (selField w) (paramField w) (dataField w)
  | .dispatchHw _ => .dispatchHw (dataField w)
  | .dispatchQuery _ => .dispatchQuery (dataField w)
  | .enterSuspend => .enterSuspend
  | .enterHibernate => .enterHibernate
  | .restore => .restore

/-- The row does not depend on the operands. -/
theorem row_withOperandsOf (w : Command) (i : Instr) : (withOperandsOf w i).row = i.row := by
  cases i <;> rfl

/-- An instruction has the operands of its own word. -/
theorem withOperandsOf_encode (i : Instr) : withOperandsOf (encode i) i = i := by
  cases i <;> simp [encode, withOperandsOf]

/-- Every instruction's row is in the table. -/
theorem row_mem_opcodeTable (i : Instr) : i.row ∈ opcodeTable := by
  cases i <;> exact List.mem_of_elem_eq_true rfl

/-- Every row of the table is an instruction's. -/
theorem exists_row_eq {r : OpcodeRow} (h : r ∈ opcodeTable) : ∃ i : Instr, i.row = r := by
  simp only [opcodeTable, ← List.map_append] at h
  obtain ⟨i, _, hi⟩ := List.mem_map.mp h
  exact ⟨i, hi⟩

/-- A field of a pattern or a mask, as a number. The proof stops short of `rfl`: `simp` leaves a step by a `rfl` lemma to
the kernel, which then takes minutes over a mask's field. -/
@[simp] theorem opcField_ofNat (n : Nat) :
    opcField (BitVec.ofNat 64 n) = BitVec.ofNat 8 ((n % 2 ^ 64) >>> 56) :=
  BitVec.eq_of_toNat_eq rfl
@[simp] theorem paramField_ofNat (n : Nat) :
    paramField (BitVec.ofNat 64 n) = BitVec.ofNat 8 ((n % 2 ^ 64) >>> 48) :=
  BitVec.eq_of_toNat_eq rfl
@[simp] theorem selField_ofNat (n : Nat) :
    selField (BitVec.ofNat 64 n) = BitVec.ofNat 16 ((n % 2 ^ 64) >>> 32) :=
  BitVec.eq_of_toNat_eq rfl
@[simp] theorem dataField_ofNat (n : Nat) :
    dataField (BitVec.ofNat 64 n) = BitVec.ofNat 32 ((n % 2 ^ 64) >>> 0) :=
  BitVec.eq_of_toNat_eq rfl

/-- A mask of all ones compares the whole field. -/
@[simp] theorem and_ones8 (b : BitVec 8) : b &&& 0xFF#8 = b := BitVec.and_allOnes
@[simp] theorem and_ones16 (s : Selector) : s &&& 0xFFFF#16 = s := BitVec.and_allOnes
@[simp] theorem and_ones32 (d : Word) : d &&& 0xFFFFFFFF#32 = d := BitVec.and_allOnes

/-- The mask of the `DISPATCH` rows leaves the sign of `irq` (R211). -/
theorem and_signMask (d : Word) : d &&& 0x80000000#32 = if d.msb then 0x80000000#32 else 0#32 := by
  rw [BitVec.msb_eq_getLsbD_last]
  exact BitVec.and_twoPow d 31

theorem and_signMask_eq_zero (d : Word) : d &&& 0x80000000#32 = 0#32 ↔ d.msb = false := by
  rw [and_signMask]
  cases d.msb
  · exact iff_of_true rfl rfl
  · exact iff_of_false (by decide) (by decide)

theorem and_signMask_eq_mask (d : Word) : d &&& 0x80000000#32 = 0x80000000#32 ↔ d.msb = true := by
  rw [and_signMask]
  cases d.msb
  · exact iff_of_false (by decide) (by decide)
  · exact iff_of_true rfl rfl

/-- The masks of the `OTHER` rows, and the ranges of their tags (R106). -/
theorem and_rangeMask (p : ParamByte) :
    (p &&& 0xFE#8 = 0x06#8 ↔ paramIn 0x06 0x07 p = true) ∧ (p &&& 0xF8#8 = 0x08#8 ↔ paramIn 0x08 0x0F p = true)
    ∧ (p &&& 0xF0#8 = 0x10#8 ↔ paramIn 0x10 0x1F p = true) ∧ (p &&& 0xE0#8 = 0x20#8 ↔ paramIn 0x20 0x3F p = true)
    ∧ (p &&& 0xC0#8 = 0x40#8 ↔ paramIn 0x40 0x7F p = true) ∧ (p &&& 0x80#8 = 0x80#8 ↔ paramIn 0x80 0xFF p = true) := by
  revert p
  decide

/-- A row matches a word exactly when the word is that of the row's instruction with the word's own operands. -/
theorem row_matches_iff (i : Instr) (w : Command) :
    i.row.matches w = true ↔ Encodes (withOperandsOf w i) w := by
  obtain ⟨o, p, s, d, rfl⟩ := exists_packWord w
  rw [matches_iff_fields]
  cases i with
  | getOther06to07 | getOther08to0F | getOther10to1F | getOther20to3F | getOther40to7F | getOther80toFF
  | setOther06to07 | setOther08to0F | setOther10to1F | setOther20to3F | setOther40to7F | setOther80toFF =>
    simp [Instr.row, Encodes, withOperandsOf, encode, packWord_inj, Instr.wellFormed, and_assoc, and_comm,
      and_rangeMask]
  | dispatchHw | dispatchQuery =>
    simp [Instr.row, Encodes, withOperandsOf, encode, packWord_inj, Instr.wellFormed, and_assoc, and_signMask_eq_zero,
      and_signMask_eq_mask]
  | _ => simp [Instr.row, Encodes, withOperandsOf, encode, packWord_inj, Instr.wellFormed]

/-- Settles O3: the row's match is the encoder's word, which is the decoder's (R114). -/
theorem opcodeRowsMatchExactlyTheirWords : Obligations.OpcodeRowsMatchExactlyTheirWords := by
  refine ⟨fun w r hr => ?_, row_mem_opcodeTable⟩
  obtain ⟨i, rfl⟩ := exists_row_eq hr
  constructor
  · intro hmatch
    exact ⟨withOperandsOf w i, decode_ok_iff.mpr ((row_matches_iff i w).mp hmatch), row_withOperandsOf w i⟩
  · rintro ⟨j, hdec, hrow⟩
    obtain ⟨rfl, hwf⟩ := decode_ok_iff.mp hdec
    rw [← hrow, row_matches_iff, withOperandsOf_encode]
    exact ⟨rfl, hwf⟩

/-! ## Taking up a word -/

/-- The port takes up its `n`-th waiting word (R100). -/
theorem step_accept {s : State} {n : Nat} {w : Command} {rest : List Act} (hw : s.cfg.wf = true)
    (hs : s.sched = .accept n :: rest) (hp : s.port[n]? = some w) :
    step s = takeCommand w { s with sched := rest, port := s.port.eraseIdx n } := by
  simp [step, hw, runSchedule, hs, runAct, acceptNth, hp]

/-- A legal word runs its instruction (R104). -/
theorem takeCommand_legal {w : Command} {i : Instr} (h : decode w = .ok i) (s : State) :
    takeCommand w s = exec i s := by
  simp [takeCommand, h]

/-- An illegal word is answered `BadCommand` (R111, R112). -/
theorem takeCommand_illegal {w : Command} {e : DecodeError} (h : decode w = .error e) (s : State) :
    takeCommand w s = .next (s.respond .port .badCommand 0) := by
  simp [takeCommand, h, State.raise]

/-- What the decoder reads from a row's word is what it reads from the command placed for it. -/
theorem decode_commandOfBits {nbits w : Nat} {i : Instr} (h : decodeTableWord nbits w = some i) :
    decode (commandOfBits nbits w) = .ok i := by
  unfold decodeTableWord at h
  split at h
  · unfold commandOfBits
    cases hdec : decode (BitVec.ofNat 64 (w % 2 ^ nbits)) <;> simp_all [Except.toOption]
  · cases h

/-- Settles O5: the word at the port's place `n` is taken out and run; `withFetchWord` puts its word at place 0, so that
taking it out leaves the state as it was. -/
theorem stepRunsTheDecodedInstruction : Obligations.StepRunsTheDecodedInstruction := by
  constructor
  · intro s n w i rest hw hs hp hdec
    rw [step_accept hw hs hp, takeCommand_legal hdec]
  · intro s nbits w i hw hdec
    have hplaced : step (s.withFetchWord nbits w) = takeCommand (commandOfBits nbits w) s :=
      step_accept (s := s.withFetchWord nbits w) hw rfl rfl
    rw [hplaced, takeCommand_legal (decode_commandOfBits hdec)]

/-- Settles O6: the answer is the only thing the port adds to the state without the word. -/
theorem illegalWordAnsweredBadCommand : Obligations.IllegalWordAnsweredBadCommand := by
  intro s n w e rest hw hs hp hdec
  rw [step_accept hw hs hp, takeCommand_illegal hdec]
  rfl

/-! ## `GET_CONFIG` of the pulls and the drive strength -/

/-- A field read is at most its mask (R146). -/
theorem fieldGet_le_mask (w : Word) (off : Nat) (mask : Word) : (fieldGet w off mask).toNat ≤ mask.toNat := by
  rw [fieldGet, BitVec.toNat_and]
  exact Nat.and_le_right

/-- Settles O22: the three commands are `GET_CONFIG` with their own tag, and a field is at most its mask. -/
theorem getConfigAnswersThePackedField : Obligations.GetConfigAnswersThePackedField := by
  intro s pin hw
  obtain ⟨_, _, _, _, hdrv⟩ := Config.wf_limits hw
  refine ⟨fun hpin => ?_, fun hpin hl => ⟨codecGet_free hpin hl, codecGet_free hpin hl, codecGet_free hpin hl⟩,
    fieldGet_le_mask _ _ _, fieldGet_le_mask _ _ _, ?_⟩
  · simp only [List.forall_mem_cons]
    exact ⟨codecGet_notFound hpin, codecGet_notFound hpin, codecGet_notFound hpin, List.forall_mem_nil _⟩
  · rw [hdrv]
    exact fieldGet_le_mask _ _ _

end Sys2Proof.Proofs
end

section
/-! PROOFS. 40_register_bank.md: the laws of the bit fields, and the Register Bank commands as a whole (R140 to R147). -/

namespace Sys2Proof.Proofs

open Sys2Proof.Machine

/-! ## Bit fields -/

/-- Writing back what a field holds changes nothing: every bit written is the bit that was there (R147). -/
theorem fieldSet_fieldGet (w : Word) (off : Nat) (mask : Word) : fieldSet w off mask (fieldGet w off mask) = w := by
  apply BitVec.eq_of_getLsbD_eq
  intro j hj
  rw [getLsbD_fieldSet _ _ _ _ _ hj]
  split
  · next hin =>
    obtain ⟨hoff, hmask⟩ := hin
    rw [getLsbD_fieldGet, hmask, Bool.and_true, Nat.add_sub_cancel' hoff]
  · rfl

/-- A field read sees the word's bits inside the shifted mask only (R146). -/
theorem fieldGet_eq_and_shift (w : Word) (off : Nat) (mask : Word) :
    fieldGet w off mask = (w &&& (mask <<< off)) >>> off := by
  apply BitVec.eq_of_getLsbD_eq
  intro j _
  rw [getLsbD_fieldGet, BitVec.getLsbD_ushiftRight, BitVec.getLsbD_and]
  by_cases hj : off + j < 32
  · simp [-BitVec.getLsbD_eq_getElem, getLsbD_shifted _ _ _ hj]
  · simp [BitVec.getLsbD_of_ge w (off + j) (Nat.le_of_not_lt hj)]

/-- Settles O13: a set field reads back the value cut to the mask, a field written back is no change, and a field that
shares no bit with the one written reads only bits that the write leaves alone. -/
theorem bitFieldLaws : Obligations.BitFieldLaws := by
  refine ⟨fun w v _ _ hfits => fieldGet_fieldSet hfits w v, fun w mask off => fieldSet_fieldGet w off mask, ?_⟩
  intro w v mask mask' off off' _ hdisj
  rw [fieldGet_eq_and_shift, fieldSet_and_other hdisj, ← fieldGet_eq_and_shift]

/-! ## A command that is one locked section -/

/-- With the lock free the answered state is the body's, the lock released (R80). -/
theorem portSection_free {s t : State} {body : State → Except Refusal State} (i : Instr) (hl : s.lock = .free)
    (ht : t.lock = .free) (hb : body { s with lock := .held } = .ok { t with lock := .held }) :
    portSection i s body = .next t := by
  rw [portSection_ok hl i hb]
  exact congrArg Host.Outcome.next (State.with_lock_free ht)

/-! ## What each command answers -/

/-- The selector is checked before any access (R284), for a read as for a write. -/
theorem execReadPin_notFound {pin : Selector} {s : State} (hp : s.cfg.npins ≤ pin.toNat) :
    execReadPin pin s = .next (s.raise .port .notFound) :=
  if_pos hp

theorem execWritePin_notFound {pin : Selector} {s : State} (hp : s.cfg.npins ≤ pin.toNat) (data : Word) :
    execWritePin pin data s = .next (s.raise .port .notFound) :=
  if_pos hp

/-- R141 on an existing pin: the section reads the one register. -/
theorem execReadPin_free {pin : Selector} {s : State} (hw : s.cfg.wf = true) (hp : pin.toNat < s.cfg.npins)
    (hl : s.lock = .free) :
    execReadPin pin s = .next (s.respond .port .ok ((s.x pin.toNat).setWidth 64)) := by
  have hread : memRead (pinAddress s.cfg pin.toNat) 4 { s with lock := .held } = .ok (s.x pin.toNat) :=
    memRead_pin (s := { s with lock := .held }) hw hp
  rw [execReadPin, if_neg (Nat.not_le.mpr hp)]
  refine portSection_free _ hl hl ?_
  simp only [hread]
  rfl

/-- R142 on an existing pin: the section is one software write. -/
theorem execWritePin_free {pin : Selector} {s : State} (hw : s.cfg.wf = true) (hp : pin.toNat < s.cfg.npins)
    (hl : s.lock = .free) (data : Word) :
    execWritePin pin data s = .next ((s.storePin pin.toNat data).respond .port .ok 0) := by
  have hwrite : memWrite (pinAddress s.cfg pin.toNat) 4 data { s with lock := .held } =
      .ok { s.storePin pin.toNat data with lock := .held } :=
    memWrite_pin (s := { s with lock := .held }) hw hp data
  rw [execWritePin, if_neg (Nat.not_le.mpr hp)]
  refine portSection_free _ hl hl ?_
  simp only [hwrite]
  rfl

/-- R143: both words are read in the one section. -/
theorem execReadWakeStatus_free {s : State} (hw : s.cfg.wf = true) (hl : s.lock = .free) :
    execReadWakeStatus s = .next (s.respond .port .ok s.wakeBitmap) := by
  have hread0 : memRead (wsts0Address s.cfg) 4 { s with lock := .held } = .ok s.wsts0 :=
    memRead_wsts0 (s := { s with lock := .held }) hw
  have hread1 : memRead (wsts1Address s.cfg) 4 { s with lock := .held } = .ok s.wsts1 :=
    memRead_wsts1 (s := { s with lock := .held }) hw
  refine portSection_free _ hl hl ?_
  simp only [hread0, hread1]
  rfl

/-- R144: the section reads the one register. -/
theorem execReadMaster_free {s : State} (hw : s.cfg.wf = true) (hl : s.lock = .free) :
    execReadMaster s = .next (s.respond .port .ok (s.master.setWidth 64)) := by
  have hread : memRead (masterAddress s.cfg) 4 { s with lock := .held } = .ok s.master :=
    memRead_master (s := { s with lock := .held }) hw
  refine portSection_free _ hl hl ?_
  simp only [hread]
  rfl

/-- The write of `MASTER` does not look at the lock and leaves it as it is (R73). -/
theorem storeMaster_with_lock (s : State) (l : Lock) (v : Word) :
    ({ s with lock := l } : State).storeMaster v = { s.storeMaster v with lock := l } := by
  rw [storeMaster_eq, storeMaster_eq]

/-- R145: the section writes the one register. -/
theorem execWriteMaster_free {s : State} (hw : s.cfg.wf = true) (hl : s.lock = .free) (data : Word) :
    execWriteMaster data s = .next ((s.storeMaster data).respond .port .ok 0) := by
  have hwrite : memWrite (masterAddress s.cfg) 4 data { s with lock := .held } =
      .ok { s.storeMaster data with lock := .held } := by
    rw [← storeMaster_with_lock]
    exact memWrite_master (s := { s with lock := .held }) hw data
  refine portSection_free _ hl (by simp [hl]) ?_
  simp only [hwrite]
  rfl

/-! ## The commands as a whole -/

/-- Settles O16: the selector is checked before the section, and the section reads the one register. -/
theorem readPinAnswersTheWholeWord : Obligations.ReadPinAnswersTheWholeWord :=
  fun _ _ hw => ⟨rfl, execReadPin_notFound, execReadPin_free hw⟩

/-- Settles O17: the selector is checked before the section, and the section is one software write, which merges. -/
theorem writePinMergesTheData : Obligations.WritePinMergesTheData :=
  fun _ _ data hw => ⟨rfl, fun hp => execWritePin_notFound hp data, fun hp hl => execWritePin_free hw hp hl data⟩

/-- R41: the bitmap is the number with `WSTS1` above `WSTS0`. -/
theorem wakeBitmap_eq_ofNat (s : State) :
    s.wakeBitmap = BitVec.ofNat 64 (s.wsts1.toNat * 2 ^ 32 + s.wsts0.toNat) := by
  rw [← Nat.shiftLeft_eq, Nat.shiftLeft_add_eq_or_of_lt s.wsts0.isLt, ← BitVec.toNat_append, BitVec.ofNat_toNat,
    BitVec.setWidth_eq]
  rfl

/-- Settles O18: the answer is the bitmap of both words, `WSTS1` high. -/
theorem readWakeStatusAnswersBothWords : Obligations.ReadWakeStatusAnswersBothWords := by
  intro s hw hl
  rw [← wakeBitmap_eq_ofNat]
  exact ⟨rfl, execReadWakeStatus_free hw hl⟩

/-- Settles O19: the section reads `MASTER` and answers it. -/
theorem readMasterAnswersTheWord : Obligations.ReadMasterAnswersTheWord :=
  fun _ hw hl => ⟨rfl, execReadMaster_free hw hl⟩

/-- Settles O20: the write of `MASTER` is whole, with the event of its EOI bit before the response. -/
theorem writeMasterStoresEveryBit : Obligations.WriteMasterStoresEveryBit := by
  intro s data hw hl
  refine ⟨rfl, (execWriteMaster_free hw hl data).trans ?_⟩
  rw [storeMaster_eq]
  rfl

end Sys2Proof.Proofs
end

section
/-! PROOFS. 41_config_codec.md: the single-pin commands `GET_CONFIG` and `SET_CONFIG` (R170 to R185, R190). -/

namespace Sys2Proof.Proofs

open Sys2Proof.Machine

/-! ## `GET_CONFIG`, and unknown parameters -/

/-- Settles O21: the command is `GET_CONFIG` with the tag of `Debounce`. -/
theorem getDebounceAnswersTheRawCount : Obligations.GetDebounceAnswersTheRawCount :=
  fun _ _ => ⟨codecGet_notFound, codecGet_free⟩

/-- Settles O23: each of the eight meanings is `unknownParam`, which looks at the selector alone. -/
theorem unknownGetParameterTouchesNothing : Obligations.UnknownGetParameterTouchesNothing := by
  intro s pin param
  have hanswer := unknownParam_eq pin s
  simp only [List.forall_mem_cons]
  exact ⟨hanswer, hanswer, hanswer, hanswer, hanswer, hanswer, hanswer, hanswer, List.forall_mem_nil _⟩

/-- Settles O24: the value is not looked at either. -/
theorem unknownSetParameterTouchesNothing : Obligations.UnknownSetParameterTouchesNothing := by
  intro s pin param value
  have hanswer := unknownParam_eq pin s
  simp only [List.forall_mem_cons]
  exact ⟨hanswer, hanswer, hanswer, hanswer, hanswer, hanswer, hanswer, hanswer, List.forall_mem_nil _⟩

/-! ## What the bodies of `SET_CONFIG` store -/

/-- R179: the body drives the one bit. -/
theorem setBody_pullDown {s : State} (hw : s.cfg.wf = true) (pin : Nat) (value : Word) :
    setBody .pullDown pin value s = (.ok, { s with
      pins := s.pins.set pin (if value = 0#32 then s.x pin &&& ~~~s.cfg.pullDownBit
        else s.x pin ||| s.cfg.pullDownBit) }) := by
  rw [setBody, storePin_fieldSet (Config.pullDown_disjoint_roMask hw), fieldSet_bit]
  rfl

/-- R180: the same of the other pull. -/
theorem setBody_pullUp {s : State} (hw : s.cfg.wf = true) (pin : Nat) (value : Word) :
    setBody .pullUp pin value s = (.ok, { s with
      pins := s.pins.set pin (if value = 0#32 then s.x pin &&& ~~~s.cfg.pullUpBit
        else s.x pin ||| s.cfg.pullUpBit) }) := by
  rw [setBody, storePin_fieldSet (Config.pullUp_disjoint_roMask hw), fieldSet_bit]
  rfl

/-- R181: the body replaces the three bits of the field. -/
theorem setBody_driveStrength {s : State} (hw : s.cfg.wf = true) (pin : Nat) (value : Word) :
    setBody .driveStrength pin value s = (.ok, { s with
      pins := s.pins.set pin ((s.x pin &&& ~~~(0x7#32 <<< s.cfg.drvOff)) ||| ((value &&& 0x7#32) <<< s.cfg.drvOff)) }) := by
  obtain ⟨_, _, _, _, hdrv⟩ := Config.wf_limits hw
  rw [setBody, storePin_fieldSet (Config.drv_disjoint_roMask hw), fieldSet, hdrv, BitVec.and_assoc, BitVec.and_self]

/-- Settles O25: the pull's field is one bit that shares none with `RO_MASK`, so it is stored as it is driven. -/
theorem setPullDrivesTheOneBit : Obligations.SetPullDrivesTheOneBit := by
  intro s pin value hw
  refine ⟨fun hpin => ?_, fun hpin hl => ⟨?_, ?_⟩⟩
  · simp only [List.forall_mem_cons]
    exact ⟨codecSet_notFound hpin, codecSet_notFound hpin, List.forall_mem_nil _⟩
  · refine (codecSet_free hpin hl).trans ?_
    rw [setBody_pullDown hw]
    rfl
  · refine (codecSet_free hpin hl).trans ?_
    rw [setBody_pullUp hw]
    rfl

/-- Settles O26: the field's mask is `0x7`, and the field shares no bit with `RO_MASK`. -/
theorem setDriveStrengthWritesLowThreeBits : Obligations.SetDriveStrengthWritesLowThreeBits := by
  intro s pin value hw
  refine ⟨codecSet_notFound, fun hpin hl => (codecSet_free hpin hl).trans ?_⟩
  rw [setBody_driveStrength hw]
  rfl

/-! ## Debounce -/

/-- R176: the divisor of the path. -/
theorem debounceCount_eq_div (coarse : Bool) (value : Word) :
    debounceCount coarse value = value.toNat * 1000 / (if coarse then 31250 else 15625) := by
  cases coarse <;> rfl

/-- Settles O28: both counts are exact quotients, so each bound is a bound of the duration. -/
theorem debounceCountsAtTheirLimits : Obligations.DebounceCountsAtTheirLimits := by
  simp only [Obligations.DebounceCountsAtTheirLimits, debounceCount_eq_div]
  refine ⟨fun value => ?_, fun value => ?_, fun value => ?_, fun value => ?_, rfl, rfl, fun value => ?_⟩ <;>
    simp only [Bool.false_eq_true, if_false, if_true] <;> omega

/-- The test of a word's bits, as a proposition. -/
theorem anySet_iff (w bits : Word) : anySet w bits = true ↔ w &&& bits ≠ 0#32 := by
  simp [anySet]

theorem coarseUnit_eq_decide (c : Config) (w : Word) : coarseUnit c w = decide (w &&& c.dbUnitBit ≠ 0#32) := by
  rw [Bool.eq_iff_iff, decide_eq_true_iff]
  exact anySet_iff w c.dbUnitBit

/-- R11: the fine limit is fixed. -/
theorem debounceLimit_eq {c : Config} (hw : c.wf = true) (coarse : Bool) :
    debounceLimit c coarse = if coarse then c.dbCoarseMax else 0xFF := by
  obtain ⟨hfine, _⟩ := Config.wf_limits hw
  rw [debounceLimit, hfine]

/-- R11: a count within the limit of its path fits the field. -/
theorem and_dbCntMask_of_le_limit {c : Config} (hw : c.wf = true) {coarse : Bool} {n : Nat}
    (h : n ≤ debounceLimit c coarse) : BitVec.ofNat 32 n &&& c.dbCntMask = BitVec.ofNat 32 n := by
  obtain ⟨hfine, hless, hcoarse, hrun, _⟩ := Config.wf_limits hw
  refine and_mask_of_le hrun ?_
  cases coarse <;> simp only [debounceLimit, Bool.false_eq_true, if_false, if_true] at h <;> omega

/-- The count field is software's, so it is stored as `field_set` gives it. -/
theorem storeCount_eq {s : State} (hw : s.cfg.wf = true) (pin : Nat) (count : Word) :
    storeCount pin count s =
      { s with pins := s.pins.set pin (fieldSet (s.x pin) s.cfg.dbCntOff s.cfg.dbCntMask count) } :=
  storePin_fieldSet (Config.dbCnt_disjoint_roMask hw) pin count

/-- Settles O27: one of the four branches of the body for each branch of the statement. -/
theorem setDebounceDecidesInOrder : Obligations.SetDebounceDecidesInOrder := by
  intro s pin value hw
  refine ⟨codecSet_notFound, fun hpin hl => ?_⟩
  intro w coarse count limit
  have hcount : debounceCount (coarseUnit s.cfg w) value = count := by
    simp only [coarseUnit_eq_decide, debounceCount_eq_div, decide_eq_true_iff]
    rfl
  have hlimit : debounceLimit s.cfg (coarseUnit s.cfg w) = limit := by
    simp only [coarseUnit_eq_decide, debounceLimit_eq hw, decide_eq_true_iff]
    rfl
  refine (codecSet_free hpin hl).trans ?_
  simp only [setBody]
  split_ifs with hzero hover hlong
  · rw [hzero, setDebounceBody_zero, storeCount_eq hw, fieldSet_zero]
    rfl
  · rw [setDebounceBody_override hzero ((anySet_iff _ _).mpr hover)]
    rfl
  · rw [setDebounceBody_tooLong hzero (by simpa [anySet] using hover) (by rw [hcount, hlimit]; exact hlong)]
    rfl
  · have hle : count ≤ debounceLimit s.cfg (coarseUnit s.cfg w) := hlimit ▸ Nat.le_of_not_lt hlong
    rw [setDebounceBody_store hzero (by simpa [anySet] using hover) (hcount.trans_le hle), hcount, storeCount_eq hw,
      fieldSet, and_dbCntMask_of_le_limit hw hle]
    rfl

/-! ## Reading back -/

/-- A field that software owns reads back what was stored, cut to its mask (R147). -/
theorem fieldGet_storePin_fieldSet {s : State} {off : Nat} {mask : Word} (hfits : fieldFits (off, mask) = true)
    (hdisj : (mask <<< off) &&& s.cfg.roMask = 0#32) {pin : Nat} (hpin : pin < s.pins.length) (v : Word) :
    fieldGet ((s.storePin pin (fieldSet (s.x pin) off mask v)).x pin) off mask = v &&& mask := by
  rw [State.x_storePin_self hpin, hwMerge_fieldSet hdisj, fieldGet_fieldSet hfits]

theorem onOff_and_one (value : Word) : onOff value &&& 1#32 = if value = 0#32 then 0#32 else 1#32 := by
  by_cases hzero : value = 0#32 <;> simp [onOff, hzero]

/-- A count within the limit of its path reads back whole. -/
theorem configField_storeCount {s : State} (hw : s.cfg.wf = true) {pin : Nat} (hpin : pin < s.pins.length)
    {coarse : Bool} {n : Nat} (h : n ≤ debounceLimit s.cfg coarse) :
    configField s.cfg .debounce ((storeCount pin (BitVec.ofNat 32 n) s).x pin) = BitVec.ofNat 32 n :=
  (fieldGet_storePin_fieldSet (Config.wf_fits_dbCnt hw) (Config.dbCnt_disjoint_roMask hw) hpin _).trans
    (and_dbCntMask_of_le_limit hw h)

section

variable {s : State} {pin : Selector} {tag : ParamTag} {value field : Word} {i : Instr}
  (hpin : pin.toNat < s.cfg.npins) (hl : s.lock = .free)
  (hfield : configField s.cfg tag ((setBody tag pin.toNat value s).2.x pin.toNat) = field)

include hpin hl hfield

/-- After a `SET_CONFIG` the `GET_CONFIG` of the same parameter answers the field of the word that the body left. -/
theorem codecGet_after_codecSet {t : State} (hset : codecSet i tag pin value s = .next t) (j : Instr) :
    ∃ u, codecGet j tag pin t = .next u ∧ u.trace = t.trace ++ [.response .port .ok (pack tag.byte field)] := by
  obtain rfl := Host.Outcome.next.inj ((codecSet_free hpin hl).symm.trans hset)
  refine ⟨_, codecGet_free (by simpa using hpin) (by simpa using hl), ?_⟩
  simp [hfield]

/-- The two commands one after the other. -/
theorem codecSet_then_codecGet (j : Instr) :
    ∃ t u, codecSet i tag pin value s = .next t ∧ codecGet j tag pin t = .next u
      ∧ u.trace = t.trace ++ [.response .port .ok (pack tag.byte field)] := by
  have hset := codecSet_free (i := i) (tag := tag) (value := value) hpin hl
  obtain ⟨u, hget, htrace⟩ := codecGet_after_codecSet hpin hl hfield hset j
  exact ⟨_, u, hset, hget, htrace⟩

end

/-- Settles O29: each parameter's field reads back what its body stored; a debounce that answered `Ok` without the
override, and not for the value 0, is one that stored its count. -/
theorem getConfigReadsBackWhatWasSet : Obligations.GetConfigReadsBackWhatWasSet := by
  intro s pin value hw hmem hl hpin
  have hreg : pin.toNat < s.pins.length := (Memory.wf_iff s).mp hmem ▸ hpin
  refine ⟨codecSet_then_codecGet hpin hl ?_ _, codecSet_then_codecGet hpin hl ?_ _,
    codecSet_then_codecGet hpin hl ?_ _, fun t hset htrace hzero hover => ?_⟩
  · obtain ⟨_, _, _, _, hdrv⟩ := Config.wf_limits hw
    have hcut : (value &&& 0x7#32) &&& s.cfg.drvMask = value &&& 0x7#32 := by
      rw [hdrv, BitVec.and_assoc, BitVec.and_self]
    exact (fieldGet_storePin_fieldSet (Config.wf_fits_drv hw) (Config.drv_disjoint_roMask hw) hreg _).trans hcut
  · exact (fieldGet_storePin_fieldSet (Config.wf_fits_pullDown hw) (Config.pullDown_disjoint_roMask hw) hreg _).trans
      (onOff_and_one value)
  · exact (fieldGet_storePin_fieldSet (Config.wf_fits_pullUp hw) (Config.pullUp_disjoint_roMask hw) hreg _).trans
      (onOff_and_one value)
  · have hclear : anySet s.master s.cfg.dbOverrideBit = false := by simpa [anySet] using hover
    rw [← coarseUnit_eq_decide]
    refine codecGet_after_codecSet hpin hl ?_ hset _
    rcases Nat.lt_or_ge (debounceLimit s.cfg (coarseUnit s.cfg (s.x pin.toNat)))
      (debounceCount (coarseUnit s.cfg (s.x pin.toNat)) value) with hlong | hfits
    · have hanswer := (codecSet_free hpin hl).symm.trans hset
      rw [setBody, setDebounceBody_tooLong hzero hclear hlong] at hanswer
      obtain rfl := Host.Outcome.next.inj hanswer
      simp at htrace
    · rw [setBody, setDebounceBody_store hzero hclear hfits]
      exact configField_storeCount hw hreg hfits

end Sys2Proof.Proofs
end

section
/-! PROOFS. 41_config_codec.md, `SET_CONFIG_GROUP`: its acceptance, with the frame of every acceptance, its steps, and its
run as a whole (R187 to R189). -/

namespace Sys2Proof.Proofs

open Sys2Proof.Machine Sys2Proof.Safety

/-! ## Acceptance -/

/-- R188, R284: the group check comes before the sequencer is looked at. -/
theorem execSetConfigGroup_notFound {s : State} {group : Selector} (h : s.cfg.groups.length ≤ group.toNat)
    (param : ParamByte) (value : Word) :
    execSetConfigGroup group param value s = .next (s.raise .port .notFound) := by
  rw [execSetConfigGroup, List.getElem?_eq_none h]

/-- An idle group sequencer takes the list of the group (R188). -/
theorem execSetConfigGroup_idle {s : State} {group : Selector} {list : List Nat}
    (h : s.cfg.groups[group.toNat]? = some list) (hidle : s.grp.phase = .idle) (param : ParamByte) (value : Word) :
    execSetConfigGroup group param value s =
      .next { s with grp := { phase := .run, list := list, j := 0, param := param, value := value } } := by
  simp [execSetConfigGroup, h, hidle]

/-- Settles O35: the group is checked first, then the sequencer. -/
theorem groupCommandAccepted : Obligations.GroupCommandAccepted :=
  fun _ _ param value =>
    ⟨fun hgroup => execSetConfigGroup_notFound hgroup param value,
      fun _ hlist hidle => execSetConfigGroup_idle hlist hidle param value⟩

/-- Settles O32: a multi-step command waits, is answered with an error, or starts its own sequencer. -/
theorem acceptanceFrame : Obligations.AcceptanceFrame := by
  intro i s t hi h
  obtain ⟨u, hu, hcases⟩ := exec_multiStep_cases (s := s) hi
  obtain rfl := Host.Outcome.next.inj (hu.symm.trans h)
  rcases hcases with rfl | rfl | ⟨_, g, p, v, l, rfl, rfl⟩ | ⟨_, irq, hcmd, rfl⟩ | ⟨_, hcmd, m, ph, _, rfl⟩
  · exact ⟨fun _ => rfl, rfl, rfl, rfl, rfl, rfl, rfl, rfl, rfl, fun _ => rfl, fun _ => rfl, fun _ _ _ => rfl⟩
  · exact ⟨fun _ => rfl, rfl, rfl, rfl, rfl, rfl, rfl, rfl, rfl, fun _ => rfl, fun _ => rfl, fun _ _ _ => rfl⟩
  · exact ⟨fun _ => rfl, rfl, rfl, rfl, rfl, rfl, rfl, rfl, rfl, fun _ => rfl, fun hnot => absurd rfl (hnot g p v),
      fun _ _ _ => rfl⟩
  · refine ⟨fun _ => rfl, rfl, rfl, rfl, rfl, rfl, rfl, rfl, rfl, fun hnot => ?_, fun _ => rfl, fun _ _ _ => rfl⟩
    obtain ⟨hhw, hquery⟩ := hnot irq
    exact (hcmd.elim hhw hquery).elim
  · refine ⟨fun _ => rfl, rfl, rfl, rfl, rfl, rfl, rfl, rfl, rfl, fun _ => rfl, fun _ => rfl, fun hs hh hr => ?_⟩
    exact (hcmd.elim hs fun hrest => hrest.elim hh hr).elim

/-! ## One step -/

/-- The choice of the group sequencer is its step. -/
theorem drive_grp {s : State} (hw : s.cfg.wf = true) : drive .grp s = .next (grpStep s) := drive_eq hw .grp

/-- A body leaves every register but the one it names. -/
theorem x_setBody_other {p q : Nat} (h : q ≠ p) (tag : ParamTag) (value : Word) (s : State) :
    (setBody tag p value s).2.x q = s.x q := by
  rcases setBody_write tag p value s with hsame | ⟨v, hstore⟩
  · rw [hsame]
  · rw [hstore, State.x_storePin_other h]

/-- Settles O36: the step ends the list, or answers what the pin's `SET_CONFIG` answers. -/
theorem groupStepAppliesOnePin : Obligations.GroupStepAppliesOnePin := by
  intro s hw hrun hl
  rw [drive_grp hw]
  refine ⟨fun hend => ?_, fun p hp => ⟨fun hpin => ?_, fun hpin hparam => ?_, ?_⟩⟩
  · rw [grpStep_end hrun hend]
    rfl
  · rw [grpStep_pin hrun hp (setConfig_notFound hpin _ _)]
    rfl
  · rw [grpStep_pin hrun hp (setConfig_notSupported hpin ((paramTagOf_none_iff _).mpr hparam) _)]
    rfl
  · intro hpin tag hparam st t hbody
    have htag : paramTagOf s.grp.param = some tag := by rw [hparam, paramTagOf_byte]
    have hset := setConfig_free hpin htag hl s.grp.value
    have hkept : t = { s with pins := t.pins } := by simpa [hbody] using setBody_eq tag p s.grp.value s
    have hgrp : t.grp = s.grp := by rw [hkept]
    have htrace : t.trace = s.trace := by rw [hkept]
    refine ⟨hkept, fun q hq => by simpa [hbody] using x_setBody_other hq tag s.grp.value s, ?_⟩
    rw [grpStep_pin hrun hp (hset.trans (congrArg some hbody)), hgrp, ← htrace]
    split <;> rfl

/-! ## The whole run -/

/-- A body does not look at the group sequencer, and leaves it as it is. -/
theorem setBody_with_grp (tag : ParamTag) (pin : Nat) (value : Word) (s : State) (g : Grp) :
    setBody tag pin value { s with grp := g } =
      ((setBody tag pin value s).1, { (setBody tag pin value s).2 with grp := g }) := by
  cases tag with
  | debounce =>
    have hreg : ({ s with grp := g } : State).x pin = s.x pin := rfl
    simp only [setBody, setDebounceBody, storeCount, hreg]
    split_ifs <;> rfl
  | pullDown | pullUp | driveStrength => rfl

/-- Nor does `SET_CONFIG`. -/
theorem setConfig_with_grp {pin : Nat} {param : ParamByte} {value : Word} {s t : State} {st : Status}
    (hl : s.lock = .free) (h : setConfig pin param value s = some (st, t)) (g : Grp) :
    setConfig pin param value { s with grp := g } = some (st, { t with grp := g }) := by
  rcases Nat.lt_or_ge pin s.cfg.npins with hpin | hpin
  · cases hparam : paramTagOf param with
    | none =>
      rw [setConfig_notSupported hpin hparam] at h
      cases h
      exact setConfig_notSupported (s := { s with grp := g }) hpin hparam value
    | some tag =>
      rw [setConfig_free hpin hparam hl] at h
      rw [setConfig_free (s := { s with grp := g }) hpin hparam hl, setBody_with_grp, Option.some.inj h]
  · rw [setConfig_notFound hpin] at h
    cases h
    exact setConfig_notFound (s := { s with grp := g }) hpin param value

/-- With the lock free `SET_CONFIG` always answers. -/
theorem setConfig_answers {s : State} (hl : s.lock = .free) (pin : Nat) (param : ParamByte) (value : Word) :
    ∃ st t, setConfig pin param value s = some (st, t) := by
  rcases Nat.lt_or_ge pin s.cfg.npins with hpin | hpin
  · cases hparam : paramTagOf param with
    | none => exact ⟨_, _, setConfig_notSupported hpin hparam value⟩
    | some tag => exact ⟨_, _, setConfig_free hpin hparam hl value⟩
  · exact ⟨_, _, setConfig_notFound hpin param value⟩

/-- `SET_CONFIG` keeps what the run relies on: the configuration, the lock and the group sequencer. -/
theorem setConfig_keeps {pin : Nat} {param : ParamByte} {value : Word} {s t : State} {st : Status}
    (h : setConfig pin param value s = some (st, t)) : t.cfg = s.cfg ∧ t.lock = s.lock ∧ t.grp = s.grp := by
  rcases setConfig_cases h with rfl | ⟨_, _, _, v, rfl⟩
  · exact ⟨rfl, rfl, rfl⟩
  · exact ⟨rfl, rfl, rfl⟩

/-- A busy group sequencer takes its step. -/
theorem runGroup_step {s : State} (hw : s.cfg.wf = true) (hrun : s.grp.phase = .run) (n : Nat) :
    runGroup (n + 1) s = runGroup n (grpStep s) :=
  runWhile_succ (by simp [hrun]) (drive_grp hw)

/-- An idle one has none. -/
theorem runGroup_idle {s : State} (hidle : s.grp.phase = .idle) (n : Nat) : runGroup n s = .next s :=
  runWhile_done (by simp [hidle])

/-- The sequencer has the pins `rest` of its list still to set. -/
structure Remaining (rest : List Nat) (s : State) : Prop where
  running : s.grp.phase = .run
  list : s.grp.list.drop s.grp.j = rest

theorem Remaining.nil {s : State} (h : Remaining [] s) : s.grp.list.length ≤ s.grp.j :=
  List.drop_eq_nil_iff.mp h.list

theorem Remaining.head {p : Nat} {rest : List Nat} {s : State} (h : Remaining (p :: rest) s) :
    s.grp.list[s.grp.j]? = some p := by
  rw [← List.head?_drop, h.list, List.head?_cons]

/-- Moving the index by one leaves the tail. -/
theorem Remaining.tail {p : Nat} {rest : List Nat} {s t : State} (h : Remaining (p :: rest) s)
    (ht : t.grp = { s.grp with j := s.grp.j + 1 }) : Remaining rest t := by
  constructor
  · rw [ht, h.running]
  · rw [ht, ← List.tail_drop, h.list, List.tail_cons]

/-- The run over the pins still to set is the walk of R187 over them; `g` stands for what the walk holds in the place of
the sequencer, which it does not use. -/
theorem runGroup_remaining (rest : List Nat) (g : Grp) {s : State} (hw : s.cfg.wf = true) (hl : s.lock = .free)
    (hr : Remaining rest s) : ∃ t, runGroup (rest.length + 1) s = .next t ∧ t.grp.phase = .idle
      ∧ { t with grp := g } = groupWalk s.grp.param s.grp.value rest { s with grp := g } := by
  induction rest generalizing s with
  | nil =>
    rw [runGroup_step hw hr.running, grpStep_end hr.running hr.nil]
    exact ⟨_, runGroup_idle rfl _, rfl, rfl⟩
  | cons p rest ih =>
    obtain ⟨st, u, hset⟩ := setConfig_answers hl p s.grp.param s.grp.value
    obtain ⟨hcfg, hlock, hgrp⟩ := setConfig_keeps hset
    have hwalked := setConfig_with_grp hl hset g
    rw [runGroup_step hw hr.running, grpStep_pin hr.running hr.head hset, groupWalk, hwalked]
    by_cases hok : st = .ok
    · have hrest : Remaining rest { u with grp := { u.grp with j := u.grp.j + 1 } } := hr.tail (by rw [hgrp])
      obtain ⟨t, ht, hidle, hwalk⟩ := ih (s := { u with grp := { u.grp with j := u.grp.j + 1 } })
        (by rw [hcfg, hw]) (by rw [hlock, hl]) hrest
      rw [hgrp] at hwalk
      simp only [hok, if_true]
      exact ⟨t, ht, hidle, hwalk⟩
    · simp only [hok, if_false]
      exact ⟨_, runGroup_idle rfl _, rfl, rfl⟩

/-- Settles O37: the accepted sequencer has the whole list still to set. -/
theorem groupRunAppliesPinsInOrder : Obligations.GroupRunAppliesPinsInOrder := by
  intro s group param value list hinv hidle hlist
  obtain ⟨hw, _, _, hl, _⟩ := (inv_iff s).mp hinv
  obtain ⟨t, hrun, hend, hwalk⟩ := runGroup_remaining list s.grp
    (s := { s with grp := { phase := .run, list := list, j := 0, param := param, value := value } }) hw hl ⟨rfl, rfl⟩
  exact ⟨rfl, _, t, execSetConfigGroup_idle hlist hidle param value, hrun, hend, hwalk⟩

end Sys2Proof.Proofs
end

section
/-! PROOFS. 42_irq_dispatch.md, the steps of the dispatch sequencer: one equation for each, what each emits, and what a
query pass leaves alone (R213 to R226). -/

namespace Sys2Proof.Proofs

open Sys2Proof.Machine Sys2Proof.Safety

/-! ## The parts of a step -/

/-- The choice of the dispatch sequencer is its step. -/
theorem drive_disp {s : State} (hw : s.cfg.wf = true) (live : Bool) : drive (.disp live) s = .next (dispStep live s) :=
  drive_eq hw (.disp live)

/-- Where `advance` takes the sequencer (R223). -/
def onward (d : Disp) : Disp := if d.i < 3 then { d with i := d.i + 1, phase := .read } else { d with phase := .next }

theorem advance_onward (s : State) : advance s = { s with disp := onward s.disp } := advance_eq s

/-- The diagnostic of a pin whose register has the pending bit set (R216). -/
def reported (p : Nat) (s : State) : State := if anySet (s.x p) s.cfg.pendingBit then s.emit (.diagActive p) else s

/-- The word of the pin the sequencer stands at is read and reported: the read step up to its decision (R215, R216). -/
def wordTaken (s : State) : State := reported s.disp.pin { s with disp := { s.disp with v := s.x s.disp.pin } }

theorem wordTaken_eq (s : State) : wordTaken s = { s with
    disp := { s.disp with v := s.x s.disp.pin }
    trace := s.trace ++ if s.x s.disp.pin &&& s.cfg.pendingBit ≠ 0#32 then [.diagActive s.disp.pin] else [] } := by
  unfold wordTaken reported
  split <;> simp_all [anySet, State.x, State.emit]

@[simp] theorem wordTaken_disp (s : State) : (wordTaken s).disp = { s.disp with v := s.x s.disp.pin } := by
  rw [wordTaken_eq]

@[simp] theorem wordTaken_cfg (s : State) : (wordTaken s).cfg = s.cfg := by
  rw [wordTaken_eq]

/-- Masking to 46 bits and cutting to 46 bits is one cut (R213). -/
theorem setWidth_and_bitmapMask (w : BitVec 64) : (w &&& 0x00003FFFFFFFFFFF#64).setWidth 46 = w.setWidth 46 := by
  have hmask : (0x00003FFFFFFFFFFF#64).setWidth 46 = BitVec.allOnes 46 := by decide
  rw [BitVec.setWidth_and, hmask, BitVec.and_allOnes]

/-- A bit of the cleared copy (R214). -/
theorem getLsbD_clearBit (w : Bitmap) {j : Nat} (k : Nat) (hj : j < 46) :
    (clearBit w k).getLsbD j = (w.getLsbD j && decide (j ≠ k)) := by
  have hbit : (1#46 <<< k).getLsbD j = decide (j = k) := by
    rw [← BitVec.twoPow_eq, BitVec.getLsbD_twoPow]
    grind
  simp [-BitVec.getLsbD_eq_getElem, clearBit, hbit, hj]

/-! ## The steps -/

section
variable {s : State} (live : Bool)

theorem dispStep_status (hp : s.disp.phase = .status) (hl : s.lock = .free) : dispStep live s =
    { s with disp := { s.disp with phase := .next, work := s.wakeBitmap.setWidth 46 } } := by
  simp only [dispStep, hp, statusStep_free hl, setWidth_and_bitmapMask]

theorem dispStep_next (hp : s.disp.phase = .next) : dispStep live s = nextStep s := by
  simp only [dispStep, hp]

/-- A query pass over every flagged group answers `false` (R224). -/
theorem nextStep_query_done (hwork : s.disp.work = 0#46) (hc : s.disp.ctx = .query) :
    nextStep s = endPass (boolResult false) s := by
  simp only [nextStep, lowestSet_none.mpr hwork, hc]

theorem nextStep_hw_done (hwork : s.disp.work = 0#46) (hc : s.disp.ctx = .hw) :
    nextStep s = { s with disp := { s.disp with phase := .eoi } } := by
  simp only [nextStep, lowestSet_none.mpr hwork, hc]

theorem nextStep_group {k : Nat} (hk : lowestSet s.disp.work = some k) : nextStep s =
    { s with disp := { s.disp with work := clearBit s.disp.work k, k := k, i := 0, phase := .read } } := by
  simp only [nextStep, hk]

/-- A pin past the last one is passed over (R226). -/
theorem dispStep_read_past (hp : s.disp.phase = .read) (hn : s.cfg.npins ≤ s.disp.pin) :
    dispStep live s = { s with disp := onward s.disp } := by
  simp only [dispStep, hp, readStep_past hn, advance_onward]

/-- The word of an existing pin is read and reported, and then decides (R217). -/
theorem dispStep_read (hp : s.disp.phase = .read) (hn : s.disp.pin < s.cfg.npins) (hl : s.lock = .free) :
    dispStep live s = readDecision (wordTaken s) := by
  have hstep : dispStep live s = readStep s := by simp only [dispStep, hp]
  rw [hstep, readStep_free hn hl]
  rfl

/-- The wake-status bit ends a query pass (R218). -/
theorem readDecision_query_wake (hc : s.disp.ctx = .query)
    (hv : anySet (s.x s.disp.pin) s.cfg.wakeStsBit = true) :
    readDecision (wordTaken s) = endPass (boolResult true) (wordTaken s) := by
  simp [readDecision, hc, hv]

theorem readDecision_query_on (hc : s.disp.ctx = .query)
    (hv : ¬ anySet (s.x s.disp.pin) s.cfg.wakeStsBit = true) :
    readDecision (wordTaken s) = { wordTaken s with disp := onward (wordTaken s).disp } := by
  simp [readDecision, hc, hv, advance_onward]

/-- Pending and unmasked: the callback (R220). -/
theorem readDecision_hw_call (hc : s.disp.ctx = .hw)
    (hv : anySet (s.x s.disp.pin) s.cfg.pendingBit = true ∧ anySet (s.x s.disp.pin) s.cfg.intMaskBit = true) :
    readDecision (wordTaken s) = callbackEntry s.disp.pin (wordTaken s) := by
  have hcall : (!isPending s.cfg (s.x s.disp.pin) || !anySet (s.x s.disp.pin) s.cfg.intMaskBit) = false := by
    simp [isPending, hv]
  simp only [readDecision, wordTaken_disp, wordTaken_cfg, hc, hcall, Bool.false_eq_true, if_false]
  rfl

/-- Anything else is skipped (R219). -/
theorem readDecision_hw_skip (hc : s.disp.ctx = .hw)
    (hv : ¬ (anySet (s.x s.disp.pin) s.cfg.pendingBit = true ∧ anySet (s.x s.disp.pin) s.cfg.intMaskBit = true)) :
    readDecision (wordTaken s) = { wordTaken s with disp := onward (wordTaken s).disp } := by
  have hskip : (!isPending s.cfg (s.x s.disp.pin) || !anySet (s.x s.disp.pin) s.cfg.intMaskBit) = true := by
    simpa [isPending, imp_iff_not_or] using hv
  simp only [readDecision, wordTaken_disp, wordTaken_cfg, hc, hskip, if_true, advance_onward]

/-- No step of its own while the callback is outstanding (R221). -/
theorem dispStep_cbwait (hp : s.disp.phase = .cbwait) : dispStep live s = s := by
  simp only [dispStep, hp]

theorem dispStep_reread (hp : s.disp.phase = .reread) (hl : s.lock = .free) :
    dispStep live s = { rereadBody live s with disp := onward (rereadBody live s).disp } := by
  simp only [dispStep, hp, rereadStep_free hl, advance_onward]

/-- Writing back the word just read leaves it (R331). -/
theorem rereadBody_live : rereadBody true s = { s with disp := s.disp.markHandled } := by
  have hkept : s.pins.set s.disp.pin (hwMerge s.cfg.roMask (s.x s.disp.pin) (s.x s.disp.pin)) = s.pins := by
    rw [hwMerge_self, State.set_pins_self]
  exact congrArg (fun ps => { s with pins := ps, disp := s.disp.markHandled }) hkept

/-- The mask bit is not read-only, so it is cleared (R222). -/
theorem rereadBody_notLive (hw : s.cfg.wf = true) : rereadBody false s =
    { s with pins := s.pins.set s.disp.pin (s.x s.disp.pin &&& ~~~s.cfg.intMaskBit) } := by
  have hstored := hwMerge_clear (Config.intMask_disjoint_roMask hw) (s.x s.disp.pin)
  exact congrArg (fun w => { s with pins := s.pins.set s.disp.pin w }) hstored

theorem dispStep_eoi (hp : s.disp.phase = .eoi) (hl : s.lock = .free) :
    dispStep live s = endPass s.disp.result (s.storeMaster (s.master ||| s.cfg.eoiBit)) := by
  simp only [dispStep, hp, eoiStep_free hl]

end

/-! ## The settled steps -/

/-- Settles O39: the sample is the bitmap cut to 46 bits, `WSTS0` below `WSTS1`. -/
theorem statusStepSamplesTheBitmap : Obligations.StatusStepSamplesTheBitmap := by
  intro s live hw hp hl
  have hbit : ∀ k < 46, (s.wakeBitmap.setWidth 46).getLsbD k =
      if k < 32 then s.wsts0.getLsbD k else s.wsts1.getLsbD (k - 32) := by
    intro k hk
    rw [BitVec.getLsbD_setWidth, State.wakeBitmap, BitVec.getLsbD_append]
    simp [hk]
  refine ⟨s.wakeBitmap.setWidth 46, fun k hk => ?_, fun k hlo hhi => ?_, ?_⟩
  · rw [hbit k (by omega), if_pos hk]
  · rw [hbit k hhi, if_neg (by omega)]
  · rw [drive_disp hw, dispStep_status live hp hl]

/-- Settles O40: the step asks for the lowest set bit, and there is none exactly when the working copy is 0. -/
theorem nextStepTakesTheLowestGroup : Obligations.NextStepTakesTheLowestGroup := by
  intro s live hw hp
  rw [drive_disp hw, dispStep_next live hp]
  refine ⟨fun hwork hc => ?_, fun hwork hc => ?_, fun k hk hset hlow => ?_⟩
  · rw [nextStep_query_done hwork hc]
    rfl
  · rw [nextStep_hw_done hwork hc]
  · refine ⟨clearBit s.disp.work k, fun j hj => getLsbD_clearBit _ k hj, ?_⟩
    rw [nextStep_group (lowestSet_some hk hset hlow)]

/-- Settles O41: past the last pin nothing is read; else the word is read and reported, and its wake-status bit alone is
tested. -/
theorem queryReadTestsTheWakeStatusBit : Obligations.QueryReadTestsTheWakeStatusBit := by
  intro s live hw hp hc hl
  simp only [drive_disp hw]
  refine ⟨fun hn => congrArg _ (dispStep_read_past live hp hn), fun hn hwake => ?_, fun hn hclear => ?_⟩
  · rw [dispStep_read live hp hn hl, readDecision_query_wake hc ((anySet_iff _ _).mpr hwake), wordTaken_eq]
    rfl
  · have hnot := fun hset => (anySet_iff _ _).mp hset hclear
    rw [dispStep_read live hp hn hl, readDecision_query_on hc hnot, wordTaken_eq]
    rfl

/-- Settles O42: the callback is called for a word with both bits set, and any other word is skipped. -/
theorem hwReadCallsPendingUnmaskedPins : Obligations.HwReadCallsPendingUnmaskedPins := by
  intro s live hw hp hc hl
  simp only [drive_disp hw]
  refine ⟨fun hn => congrArg _ (dispStep_read_past live hp hn), fun hn hskip => ?_, fun hn hpend hmask => ?_⟩
  · have hnot : ¬ (anySet (s.x s.disp.pin) s.cfg.pendingBit = true
        ∧ anySet (s.x s.disp.pin) s.cfg.intMaskBit = true) := by
      rw [anySet_iff, anySet_iff]
      tauto
    rw [dispStep_read live hp hn hl, readDecision_hw_skip hc hnot, wordTaken_eq]
    rfl
  · have hboth := And.intro ((anySet_iff _ _).mpr hpend) ((anySet_iff _ _).mpr hmask)
    rw [dispStep_read live hp hn hl, readDecision_hw_call hc hboth, wordTaken_eq, if_pos hpend]
    simp [callbackEntry, State.emit]

/-- Settles O43: the callback's return is its own choice, and the sequencer's step waits for it. -/
theorem callbackReturnMovesToReread : Obligations.CallbackReturnMovesToReread := by
  intro s live hw
  rw [drive_disp hw, drive_eq hw]
  refine ⟨fun hp => ?_, fun hp => ?_, fun hp => callbackReturn_unasked hp⟩
  · exact callbackReturn_cbwait hp
  · rw [dispStep_cbwait live hp]

/-- Settles O44: the register read is the one as it is now, and its word is written back. -/
theorem rereadStepUsesTheLiveRegister : Obligations.RereadStepUsesTheLiveRegister := by
  intro s hw hp hl
  simp only [drive_disp hw, dispStep_reread _ hp hl]
  rw [rereadBody_live, rereadBody_notLive hw]
  exact ⟨rfl, rfl⟩

/-- The EOI bit is a bit of `MASTER` (R15), so a word with it set shows it. -/
theorem anySet_or_eoiBit {c : Config} (hw : c.wf = true) (w : Word) : anySet (w ||| c.eoiBit) c.eoiBit = true := by
  have heoi : c.eoiOff < 32 := by
    have hmaster := (Config.wf_parts hw).2.2.2.2
    simp only [Config.masterWf, Bool.and_eq_true, decide_eq_true_eq] at hmaster
    omega
  rw [anySet_iff]
  intro hzero
  have hbit := congrArg (fun u => BitVec.getLsbD u c.eoiOff) hzero
  simp [Config.eoiBit, bitAt, heoi] at hbit

/-- Settles O45: the step is a read-modify-write of `MASTER` that sets the EOI bit, so the event is emitted. -/
theorem eoiStepAcknowledgesAndAnswers : Obligations.EoiStepAcknowledgesAndAnswers := by
  intro s live hw hp hl
  rw [drive_disp hw, dispStep_eoi live hp hl, State.storeMaster, if_pos (anySet_or_eoiBit hw s.master)]
  simp [endPass, State.respond, State.emit, Disp.result, boolResult]

/-! ## A query pass -/

/-- The invariant keeps a query pass out of the phases of the callback and of the EOI (R217). -/
theorem queryPhases {s : State} (h : dispInRange s = true) (hc : s.disp.ctx = .query) :
    s.disp.phase = .idle ∨ s.disp.phase = .status ∨ s.disp.phase = .next ∨ s.disp.phase = .read := by
  unfold dispInRange at h
  cases hp : s.disp.phase <;> simp_all

/-- Between the two states only the dispatch sequencer has changed, and only responses and diagnostics were emitted. -/
def OnlyScanned (s t : State) : Prop :=
  ∃ d es, t = { s with disp := d, trace := s.trace ++ es }
    ∧ PortEvent.eoiWritten ∉ es ∧ ∀ p, PortEvent.cbCall p ∉ es

/-- Nothing emitted. -/
theorem OnlyScanned.of_disp (s : State) (d : Disp) : OnlyScanned s { s with disp := d } :=
  ⟨d, [], by simp, by simp, by simp⟩

/-- The end of a pass emits its response. -/
theorem OnlyScanned.endPass {s t : State} (h : OnlyScanned s t) (r : Rdata) : OnlyScanned s (endPass r t) := by
  obtain ⟨d, es, rfl, heoi, hcall⟩ := h
  exact ⟨{ d with phase := .idle }, es ++ [.response .disp .ok r],
    by simp [Machine.endPass, State.respond, State.emit], by simp [heoi], by simp [hcall]⟩

/-- Reading a pin emits its diagnostic. -/
theorem OnlyScanned.wordTaken (s : State) : OnlyScanned s (wordTaken s) := by
  refine ⟨_, _, wordTaken_eq s, ?_, fun p => ?_⟩ <;> split <;> simp

theorem OnlyScanned.with_disp {s t : State} (h : OnlyScanned s t) (d : Disp) : OnlyScanned s { t with disp := d } := by
  obtain ⟨_, es, rfl, hes⟩ := h
  exact ⟨d, es, rfl, hes⟩

/-- A step in query context scans, whatever its phase there (R224). -/
theorem dispStep_query_onlyScanned (live : Bool) {s : State} (hl : s.lock = .free) (h : dispInRange s = true)
    (hc : s.disp.ctx = .query) : OnlyScanned s (dispStep live s) := by
  rcases queryPhases h hc with hp | hp | hp | hp
  · have hstays : dispStep live s = s := by simp only [dispStep, hp]
    rw [hstays]
    exact .of_disp s s.disp
  · rw [dispStep_status live hp hl]
    exact .of_disp s _
  · rw [dispStep_next live hp]
    cases hk : lowestSet s.disp.work with
    | none =>
      rw [nextStep_query_done (lowestSet_none.mp hk) hc]
      exact (OnlyScanned.of_disp s s.disp).endPass _
    | some k =>
      rw [nextStep_group hk]
      exact .of_disp s _
  · rcases Nat.lt_or_ge s.disp.pin s.cfg.npins with hn | hn
    · rw [dispStep_read live hp hn hl]
      by_cases hwake : anySet (s.x s.disp.pin) s.cfg.wakeStsBit = true
      · rw [readDecision_query_wake hc hwake]
        exact (OnlyScanned.wordTaken s).endPass _
      · rw [readDecision_query_on hc hwake]
        exact (OnlyScanned.wordTaken s).with_disp _
    · rw [dispStep_read_past live hp hn]
      exact .of_disp s _

/-- Settles O46: the step is one of the sequencer in query context, which only scans. -/
theorem queryPassWritesNoRegister : Obligations.QueryPassWritesNoRegister := by
  intro s t live rest hinv hs hc hstep
  obtain ⟨_, _, _, hl, _, hdisp, _⟩ := (inv_iff s).mp hinv
  obtain ⟨_, ⟨hnil, _⟩ | ⟨a, rest', hs', hrun⟩⟩ := step_cases hstep
  · simp [hs] at hnil
  · obtain ⟨rfl, rfl⟩ : Act.disp live = a ∧ rest = rest' := by simpa [hs] using hs'
    obtain rfl := Host.Outcome.next.inj hrun
    obtain ⟨d, es, heq, hes⟩ := dispStep_query_onlyScanned (s := { s with sched := rest }) live hl hdisp hc
    rw [heq]
    exact ⟨rfl, rfl, rfl, rfl, rfl, es, rfl, hes⟩

end Sys2Proof.Proofs
end

section
/-! PROOFS. 42_irq_dispatch.md, a pass as a whole: run alone, the sequencer's steps are the algorithms of R227 and R228,
within the 601 steps of R340. -/

namespace Sys2Proof.Proofs

open Sys2Proof.Machine Sys2Proof.Safety

/-! ## Runs that end a pass -/

/-- More fuel changes nothing once the engine is idle. -/
theorem runWhile_mono {busy : State → Bool} {choose : State → Act} {n m : Nat} {s t : State} (hnm : n ≤ m)
    (h : runWhile busy choose n s = .next t) (ht : busy t = false) : runWhile busy choose m s = .next t := by
  induction n generalizing m s with
  | zero =>
    obtain rfl := Host.Outcome.next.inj h
    exact runWhile_done ht
  | succ n ih =>
    obtain ⟨m, rfl⟩ : ∃ k, m = k + 1 := ⟨m - 1, by omega⟩
    unfold runWhile at h ⊢
    split at h
    · next hb =>
      rw [if_pos hb]
      split at h
      · next u hu => exact ih (by omega) h
      · next hstop => exact absurd h (hstop t)
    · next hb => rw [if_neg hb, h]

/-- Within `n` steps the pass run from `s` ends in the state `r`, the idle sequencer's fields aside. -/
def Ends (live : Nat → Bool) (n : Nat) (s r : State) : Prop :=
  ∃ t, runPass live n s = .next t ∧ t.disp.phase = .idle ∧ { t with disp := r.disp } = r

section
variable {live : Nat → Bool} {n m : Nat} {s r : State}

theorem Ends.mono (h : Ends live n s r) (hnm : n ≤ m) : Ends live m s r := by
  obtain ⟨t, hrun, hidle, heq⟩ := h
  exact ⟨t, runWhile_mono hnm hrun (by simp [hidle]), hidle, heq⟩

/-- An ended pass. -/
theorem Ends.of_idle (hidle : s.disp.phase = .idle) (heq : { s with disp := r.disp } = r) : Ends live n s r :=
  ⟨s, runWhile_done (by simp [hidle]), hidle, heq⟩

/-- A step of the sequencer, busy and not waiting for the callback. -/
theorem Ends.step (hw : s.cfg.wf = true) (hbusy : s.disp.phase ≠ .idle) (hwait : s.disp.phase ≠ .cbwait)
    (h : Ends live n (dispStep (live s.disp.pin) s) r) : Ends live (n + 1) s r := by
  obtain ⟨t, hrun, hend⟩ := h
  refine ⟨t, ?_, hend⟩
  rw [runPass, runWhile_succ (by simpa using hbusy) (by rw [if_neg hwait]; exact drive_disp hw _)]
  exact hrun

/-- The return of a callback that did nothing. -/
theorem Ends.callbackReturn (hw : s.cfg.wf = true) (hwait : s.disp.phase = .cbwait)
    (h : Ends live n { s with trace := s.trace ++ [.cbRet], disp := { s.disp with phase := .reread } } r) :
    Ends live (n + 1) s r := by
  obtain ⟨t, hrun, hend⟩ := h
  refine ⟨t, ?_, hend⟩
  rw [runPass, runWhile_succ (by simp [hwait])
    (by rw [if_pos hwait, drive_eq hw]; exact callbackReturn_cbwait hwait)]
  exact hrun

end

/-! ## The machine beside the algorithm -/

/-- The machine while the algorithm has reached `a`: the sequencer stands at `d`, and its flag is the algorithm's. -/
def standing (a : State) (d : Disp) : State := { a with disp := { d with handled := a.disp.handled } }

/-- What every step of a pass run alone needs and keeps. -/
structure Ready (a : State) : Prop where
  wf : a.cfg.wf = true
  free : a.lock = .free

theorem Ready.standing {a : State} (h : Ready a) (d : Disp) : Ready (standing a d) := ⟨h.wf, h.free⟩

@[simp] theorem reported_disp (p : Nat) (a : State) : (reported p a).disp = a.disp := by
  unfold reported; split <;> rfl

theorem Ready.reported {a : State} (h : Ready a) (p : Nat) : Ready (reported p a) := by
  unfold Proofs.reported
  split <;> exact ⟨h.wf, h.free⟩

theorem standing_onward (a : State) (d : Disp) :
    { standing a d with disp := onward (standing a d).disp } = standing a (onward d) := by
  by_cases hi : d.i < 3 <;> simp [standing, onward, hi]

/-- The diagnostic does not look at the sequencer. -/
theorem reported_with_disp (p : Nat) (a : State) (d : Disp) :
    reported p { a with disp := d } = { reported p a with disp := d } := by
  have hreg : ({ a with disp := d } : State).x p = a.x p := rfl
  simp only [reported, hreg]
  split <;> rfl

theorem wordTaken_standing (a : State) (d : Disp) :
    wordTaken (standing a d) = standing (reported d.pin a) { d with v := a.x d.pin } := by
  unfold standing
  rw [reported_disp]
  exact reported_with_disp d.pin a _

/-! ## The algorithm, pin by pin -/

/-- The end of R227: the EOI and the answer. -/
def hwFinish (a : State) : State :=
  (a.storeMaster (a.master ||| a.cfg.eoiBit)).respond .disp .ok (boolResult a.disp.handled)

/-- What the algorithm of the context makes of the pins still to visit (R227, R228). -/
def walk (live : Nat → Bool) : Ctx → List Nat → State → State
  | .query, ps, a => queryWalk ps a
  | .hw, ps, a => hwFinish (ps.foldl (hwVisit live) a)

theorem hwPass_eq_walk (live : Nat → Bool) (s : State) :
    hwPass live s = walk live .hw (flaggedPins s) { s with disp := { s.disp with handled := false } } := rfl

theorem hwVisit_past {live : Nat → Bool} {a : State} {p : Nat} (hn : a.cfg.npins ≤ p) : hwVisit live a p = a :=
  if_pos hn

theorem hwVisit_skip {live : Nat → Bool} {a : State} {p : Nat} (hn : p < a.cfg.npins)
    (hv : ¬ (anySet (a.x p) a.cfg.pendingBit = true ∧ anySet (a.x p) a.cfg.intMaskBit = true)) :
    hwVisit live a p = reported p a := by
  rw [← Bool.and_eq_true] at hv
  simp only [hwVisit, Nat.not_le.mpr hn, hv, if_false]
  rfl

/-- A visit that calls the callback, as the machine takes it: the word is read and reported, the callback called and
returned, and then this is the step that reads again. -/
theorem dispStep_returned {live : Nat → Bool} {a : State} {d : Disp} (hl : a.lock = .free) (hn : d.pin < a.cfg.npins)
    (hv : anySet (a.x d.pin) a.cfg.pendingBit = true ∧ anySet (a.x d.pin) a.cfg.intMaskBit = true) :
    dispStep (live d.pin)
        (standing (((a.emit (.diagActive d.pin)).emit (.cbCall d.pin)).emit .cbRet)
          { d with v := a.x d.pin, phase := .reread }) =
      standing (hwVisit live a d.pin) (onward { d with v := a.x d.pin }) := by
  refine (dispStep_reread (live d.pin) rfl (by exact hl)).trans ?_
  simp only [hwVisit, Nat.not_le.mpr hn, hv.1, hv.2, Bool.and_self, if_true, if_false]
  rw [← standing_onward]
  cases live d.pin <;> rfl

theorem Ready.hwVisit {a : State} (h : Ready a) (live : Nat → Bool) (p : Nat) : Ready (hwVisit live a p) := by
  simp only [Safety.hwVisit]
  split_ifs <;> exact ⟨h.wf, h.free⟩

theorem queryWalk_past {a : State} {p : Nat} {rest : List Nat} (hn : a.cfg.npins ≤ p) :
    queryWalk (p :: rest) a = queryWalk rest a :=
  if_pos hn

theorem queryWalk_wake {a : State} {p : Nat} {rest : List Nat} (hn : p < a.cfg.npins)
    (hv : anySet (a.x p) a.cfg.wakeStsBit = true) :
    queryWalk (p :: rest) a = (reported p a).respond .disp .ok 1 := by
  simp only [queryWalk, Nat.not_le.mpr hn, hv, if_true, if_false]
  rfl

theorem queryWalk_on {a : State} {p : Nat} {rest : List Nat} (hn : p < a.cfg.npins)
    (hv : ¬ anySet (a.x p) a.cfg.wakeStsBit = true) : queryWalk (p :: rest) a = queryWalk rest (reported p a) := by
  simp only [queryWalk, Nat.not_le.mpr hn, hv, if_false]
  rfl

/-- The query algorithm does not look at the sequencer. -/
theorem queryWalk_with_disp (ps : List Nat) (a : State) (d : Disp) :
    queryWalk ps { a with disp := d } = { queryWalk ps a with disp := d } := by
  induction ps generalizing a with
  | nil => rfl
  | cons p rest ih =>
    rcases Nat.lt_or_ge p a.cfg.npins with hn | hn
    · by_cases hv : anySet (a.x p) a.cfg.wakeStsBit = true
      · rw [queryWalk_wake hn hv, queryWalk_wake (a := { a with disp := d }) hn hv, reported_with_disp]
        rfl
      · rw [queryWalk_on hn hv, queryWalk_on (a := { a with disp := d }) hn hv, reported_with_disp, ih]
    · rw [queryWalk_past hn, queryWalk_past (a := { a with disp := d }) hn, ih]

/-! ## One pin -/

section
variable {live : Nat → Bool} {n : Nat} {a : State} {d : Disp} {rest : List Nat}

/-- The response ends the pass. -/
theorem ends_answered (rdata : Rdata) : Ends live n (endPass rdata (standing a d)) (a.respond .disp .ok rdata) :=
  .of_idle rfl rfl

/-- From the pin after `d`'s the pass ends as the algorithm does over `rest`, whatever word was read before. -/
def EndsOnward (live : Nat → Bool) (n : Nat) (d : Disp) (rest : List Nat) : Prop :=
  ∀ a v, Ready a → Ends live n (standing a (onward { d with v := v })) (walk live d.ctx rest a)

/-- A pin past the last one (R226), in either context. -/
theorem ends_read_past (ha : Ready a) (hp : d.phase = .read) (hn : a.cfg.npins ≤ d.pin)
    (hrest : EndsOnward live n d rest) : Ends live (n + 1) (standing a d) (walk live d.ctx rest a) := by
  refine Ends.step ha.wf (by simp [standing, hp]) (by simp [standing, hp]) ?_
  rw [dispStep_read_past _ hp hn, standing_onward]
  exact hrest a d.v ha

/-- An existing pin: its word is read and reported, and then decides. -/
theorem ends_read_decides {r : State} (ha : Ready a) (hp : d.phase = .read) (hn : d.pin < a.cfg.npins)
    (h : Ends live n (readDecision (wordTaken (standing a d))) r) : Ends live (n + 1) (standing a d) r := by
  refine Ends.step ha.wf (by simp [standing, hp]) (by simp [standing, hp]) ?_
  rwa [dispStep_read _ hp hn (ha.standing d).free]

/-- The pin is done with, and the scan goes on. -/
theorem ends_read_on (ha : Ready a) (hrest : EndsOnward live n d rest) :
    Ends live n { wordTaken (standing a d) with disp := onward (wordTaken (standing a d)).disp }
      (walk live d.ctx rest (reported d.pin a)) := by
  rw [wordTaken_standing, standing_onward]
  exact hrest _ _ (ha.reported _)

theorem ends_read_query (ha : Ready a) (hp : d.phase = .read) (hc : d.ctx = .query)
    (hrest : EndsOnward live n d rest) : Ends live (n + 3) (standing a d) (walk live d.ctx (d.pin :: rest) a) := by
  refine Ends.mono (n := n + 1) ?_ (by omega)
  have hwalk : ∀ ps u, walk live d.ctx ps u = queryWalk ps u := fun ps u => by rw [hc]; rfl
  rcases Nat.lt_or_ge d.pin a.cfg.npins with hn | hn
  · refine ends_read_decides ha hp hn ?_
    by_cases hv : anySet (a.x d.pin) a.cfg.wakeStsBit = true
    · rw [hwalk, queryWalk_wake hn hv, readDecision_query_wake (s := standing a d) hc hv, wordTaken_standing]
      exact ends_answered 1
    · rw [hwalk, queryWalk_on hn hv, ← hwalk, readDecision_query_on (s := standing a d) hc hv]
      exact ends_read_on ha hrest
  · rw [hwalk, queryWalk_past hn, ← hwalk]
    exact ends_read_past ha hp hn hrest

/-- With the callback three steps: the call, the return and the reread (R219 to R222). -/
theorem ends_read_hw (ha : Ready a) (hp : d.phase = .read) (hc : d.ctx = .hw)
    (hrest : EndsOnward live n d rest) : Ends live (n + 3) (standing a d) (walk live d.ctx (d.pin :: rest) a) := by
  have hwalk : walk live d.ctx (d.pin :: rest) a = walk live d.ctx rest (hwVisit live a d.pin) := by rw [hc]; rfl
  rw [hwalk]
  rcases Nat.lt_or_ge d.pin a.cfg.npins with hn | hn
  · by_cases hv : anySet (a.x d.pin) a.cfg.pendingBit = true ∧ anySet (a.x d.pin) a.cfg.intMaskBit = true
    · have h := hrest _ (a.x d.pin) (ha.hwVisit live d.pin)
      rw [← dispStep_returned ha.free hn hv] at h
      refine ends_read_decides ha hp hn ?_
      rw [readDecision_hw_call (s := standing a d) hc hv, wordTaken_standing, reported, if_pos hv.1]
      exact Ends.callbackReturn ha.wf rfl (Ends.step ha.wf (by simp) (by simp) h)
    · rw [hwVisit_skip hn hv]
      refine Ends.mono (n := n + 1) (ends_read_decides ha hp hn ?_) (by omega)
      rw [readDecision_hw_skip (s := standing a d) hc hv]
      exact ends_read_on ha hrest
  · rw [hwVisit_past hn]
    exact (ends_read_past ha hp hn hrest).mono (by omega)

theorem ends_read (ha : Ready a) (hp : d.phase = .read) (hrest : EndsOnward live n d rest) :
    Ends live (n + 3) (standing a d) (walk live d.ctx (d.pin :: rest) a) := by
  cases hc : d.ctx with
  | query => exact hc ▸ ends_read_query ha hp hc hrest
  | hw => exact hc ▸ ends_read_hw ha hp hc hrest

end

/-! ## One group, and the scan over the groups -/

/-- The flagged groups of a working copy, ascending (R214). -/
def groupsOf (work : Bitmap) : List Nat := (List.range 46).filter fun k => work.getLsbD k

theorem groupsOf_length (work : Bitmap) : (groupsOf work).length ≤ 46 := by
  simpa [groupsOf] using List.length_filter_le (fun k => work.getLsbD k) (List.range 46)

/-- The step takes the head of the list. -/
theorem lowestSet_eq_head (work : Bitmap) : lowestSet work = (groupsOf work).head? :=
  (List.head?_filter ..).symm

/-- And leaves the tail. -/
theorem groupsOf_clearBit {work : Bitmap} {k : Nat} {gs : List Nat} (h : groupsOf work = k :: gs) :
    groupsOf (clearBit work k) = gs := by
  have hnodup : (k :: gs).Nodup := h ▸ List.nodup_range.filter _
  calc groupsOf (clearBit work k)
      = (List.range 46).filter (fun j => (j != k) && work.getLsbD j) :=
        List.filter_congr fun j hj => by
          rw [getLsbD_clearBit work k (List.mem_range.mp hj), Bool.eq_iff_iff]
          simp [and_comm]
    _ = (groupsOf work).filter (· != k) := List.filter_filter.symm
    _ = (k :: gs).erase k := by rw [h, hnodup.erase_eq_filter]
    _ = gs := List.erase_cons_head k gs

/-- The bitmap sampled by `STATUS` flags the pins the algorithm visits. -/
theorem flaggedPins_eq (s : State) : flaggedPins s = (groupsOf (s.wakeBitmap.setWidth 46)).flatMap pinsOfGroup := by
  have hgroups : groupsOf (s.wakeBitmap.setWidth 46) = (List.range 46).filter fun k => s.wakeBitmap.getLsbD k :=
    List.filter_congr fun k hk => by simp [List.mem_range.mp hk]
  rw [hgroups]
  rfl

section
variable {live : Nat → Bool} {n : Nat} {a : State} {d : Disp}

/-- The four pins of a group, at most three steps each. -/
theorem ends_group {k : Nat} {rest : List Nat} (ha : Ready a)
    (hrest : ∀ a i v, Ready a → Ends live n (standing a { d with phase := .next, k := k, i := i, v := v })
      (walk live d.ctx rest a)) :
    Ends live (n + 12) (standing a { d with phase := .read, k := k, i := 0 })
      (walk live d.ctx (pinsOfGroup k ++ rest) a) :=
  ends_read ha rfl fun _ _ h1 => ends_read h1 rfl fun _ _ h2 => ends_read h2 rfl fun _ _ h3 =>
    ends_read h3 rfl fun _ _ h4 => hrest _ _ _ h4

theorem ends_eoi (ha : Ready a) (hp : d.phase = .eoi) : Ends live 1 (standing a d) (hwFinish a) := by
  refine Ends.step ha.wf (by simp [standing, hp]) (by simp [standing, hp]) ?_
  rw [dispStep_eoi _ hp (ha.standing d).free]
  refine .of_idle rfl ?_
  simp only [endPass, hwFinish, storeMaster_eq]
  rfl

/-- With no group left: the answer `false`, or the EOI and the flag (R214, R224, R225). -/
theorem ends_scan_done (ha : Ready a) (hp : d.phase = .next) (hwork : d.work = 0#46) :
    Ends live 2 (standing a d) (walk live d.ctx [] a) := by
  refine Ends.step ha.wf (by simp [standing, hp]) (by simp [standing, hp]) ?_
  rw [dispStep_next _ hp]
  cases hc : d.ctx with
  | query =>
    rw [nextStep_query_done (s := standing a d) hwork hc]
    exact ends_answered 0
  | hw =>
    rw [nextStep_hw_done (s := standing a d) hwork hc]
    exact ends_eoi (d := { d with phase := .eoi }) ha rfl

/-- Thirteen steps for each group left, and two for the end. -/
theorem ends_scan (gs : List Nat) (ha : Ready a) (hp : d.phase = .next) (hwork : groupsOf d.work = gs) :
    Ends live (13 * gs.length + 2) (standing a d) (walk live d.ctx (gs.flatMap pinsOfGroup) a) := by
  induction gs generalizing a d with
  | nil => exact ends_scan_done ha hp (lowestSet_none.mp (by rw [lowestSet_eq_head, hwork]; rfl))
  | cons k gs ih =>
    have hk : lowestSet d.work = some k := by rw [lowestSet_eq_head, hwork]; rfl
    refine Ends.step (n := 13 * gs.length + 2 + 12) ha.wf (by simp [standing, hp]) (by simp [standing, hp]) ?_
    rw [dispStep_next _ hp, nextStep_group (s := standing a d) hk, List.flatMap_cons]
    exact ends_group (d := { d with work := clearBit d.work k }) ha fun _ _ _ h => ih h rfl (groupsOf_clearBit hwork)

/-- The whole pass from its acceptance on, `d` being what the acceptance left. -/
theorem ends_pass (ha : Ready a) (hp : d.phase = .status) :
    Ends live 601 (standing a d) (walk live d.ctx (flaggedPins a) a) := by
  have hlen := groupsOf_length (a.wakeBitmap.setWidth 46)
  refine Ends.step ha.wf (by simp [standing, hp]) (by simp [standing, hp]) ?_
  rw [dispStep_status _ hp (ha.standing d).free, flaggedPins_eq]
  exact (ends_scan (d := { d with phase := .next, work := a.wakeBitmap.setWidth 46 })
    (groupsOf (a.wakeBitmap.setWidth 46)) ha rfl rfl).mono (by omega)

end

/-! ## The settled passes -/

/-- An accepted pass stands beside the algorithm with its flag cleared (R212), and ends as the algorithm does. -/
theorem accepted_pass_ends {s : State} (hinv : inv s = true) (hidle : s.disp.phase = .idle) (i : Instr) (irq : Word)
    (live : Nat → Bool) : ∃ s' t, acceptDispatch i irq s = .next s' ∧ runPass live 601 s' = .next t
      ∧ t.disp.phase = .idle
      ∧ ∀ d, { t with disp := d } = { walk live (ctxOf irq) (flaggedPins s)
          { s with disp := { s.disp with handled := false } } with disp := d } := by
  obtain ⟨hw, _, _, hl, _⟩ := (inv_iff s).mp hinv
  obtain ⟨t, hrun, hend, heq⟩ := ends_pass (live := live) (a := { s with disp := { s.disp with handled := false } })
    (d := startedDisp (ctxOf irq) s.draw) ⟨hw, hl⟩ rfl
  exact ⟨_, t, acceptDispatch_idle hidle i irq, hrun, hend,
    fun d => congrArg (fun u : State => { u with disp := d }) heq⟩

/-- Settles O48: in hardware context the walk is R227. -/
theorem hwPassFollowsTheAlgorithm : Obligations.HwPassFollowsTheAlgorithm := by
  intro s irq live hinv hidle hsign
  have hctx : ctxOf irq = .hw := by simp [ctxOf_msb, hsign]
  obtain ⟨s', t, hacc, hrun, hend, heq⟩ := accepted_pass_ends hinv hidle (.dispatchHw irq) irq live
  rw [hctx, ← hwPass_eq_walk] at heq
  exact ⟨s', t, hacc, hrun, hend, heq s.disp⟩

/-- Settles O49: in query context the walk is R228, which does not look at the flag cleared at the acceptance. -/
theorem queryPassFollowsTheAlgorithm : Obligations.QueryPassFollowsTheAlgorithm := by
  intro s irq live hinv hidle hsign
  have hctx : ctxOf irq = .query := by simp [ctxOf_msb, hsign]
  obtain ⟨s', t, hacc, hrun, hend, heq⟩ := accepted_pass_ends hinv hidle (.dispatchQuery irq) irq live
  have hwalk := queryWalk_with_disp (flaggedPins s) s
  rw [hctx, walk, hwalk] at heq
  exact ⟨s', t, hacc, hrun, hend, (heq s.disp).trans (hwalk s.disp).symm⟩

end Sys2Proof.Proofs
end

section
/-! PROOFS. 43_state_manager.md: the steps of the state manager, `ENTER` and `RESTORE` as a whole, and the one after the
other (R252 to R263). -/

namespace Sys2Proof.Proofs

open Sys2Proof.Machine Sys2Proof.Safety

/-! ## The steps -/

/-- The choice of the state manager is its step. -/
theorem drive_sm {s : State} (hw : s.cfg.wf = true) (e : Bool) : drive (.sm e) s = .next (smStep e s) :=
  drive_eq hw (.sm e)

theorem smStep_save {s : State} (h : s.sm.phase = .save) (e : Bool) : smStep e s = saveStep e s := by
  simp [smStep, h]

theorem smStep_rest {s : State} (h : s.sm.phase = .rest) (e : Bool) : smStep e s = restStep e s := by
  simp [smStep, h]

/-- After the last pin either operation answers `Ok` (R258, R260). -/
theorem smStep_end {s : State} (hbusy : s.sm.phase ≠ .idle) (h : s.cfg.npins ≤ s.sm.pin) (e : Bool) :
    smStep e s = endManager s := by
  cases hp : s.sm.phase with
  | idle => exact absurd hp hbusy
  | save => rw [smStep_save hp, saveStep_end h]
  | rest => rw [smStep_rest hp, restStep_end h]

/-- Settles O51: a pin passed over, an eligible pin, and the end are the three ways through `saveStep`. -/
theorem enterStepSavesAndMasksOnePin : Obligations.EnterStepSavesAndMasksOnePin := by
  intro s hinv hsave
  obtain ⟨hw, hpins, _, hl, _⟩ := (inv_iff s).mp hinv
  refine ⟨fun hp => ⟨?_, ?_⟩, fun hp e => ?_⟩
  · rw [drive_sm hw, smStep_save hsave, saveStep_skip hp]
    rfl
  · rw [drive_sm hw, smStep_save hsave, saveStep_value hw hpins hl hp]
  · rw [drive_sm hw, smStep_end (by simp [hsave]) hp.ge]
    rfl

/-- Settles O52: a saved word is given back by a software write, which merges it (R76). -/
theorem restoreStepWritesBackOnePin : Obligations.RestoreStepWritesBackOnePin := by
  intro s hinv hrest
  obtain ⟨hw, _, _, hl, _⟩ := (inv_iff s).mp hinv
  refine ⟨fun hp => ⟨?_, fun hnone => ?_, fun w hsome => ?_⟩, fun hp e => ?_⟩
  · rw [drive_sm hw, smStep_rest hrest, restStep_skip hp]
    rfl
  · rw [drive_sm hw, smStep_rest hrest, restStep_none hp hnone]
    rfl
  · rw [drive_sm hw, smStep_rest hrest, restStep_free hp hsome hl]
    rfl
  · rw [drive_sm hw, smStep_end (by simp [hrest]) hp.ge]
    rfl

/-- Settles O60: the step is the state manager's, with its frame. -/
theorem managerStepTouchesOnlyItsPin : Obligations.ManagerStepTouchesOnlyItsPin := by
  intro s t eligible rest hs h
  obtain ⟨_, ⟨hnil, _⟩ | ⟨a, rest', hs', hrun⟩⟩ := step_cases h
  · simp [hs] at hnil
  · obtain ⟨rfl, rfl⟩ : Act.sm eligible = a ∧ rest = rest' := by simpa using hs.symm.trans hs'
    obtain rfl := Host.Outcome.next.inj hrun
    obtain ⟨⟨_, _, hx⟩, h0, h1, hmaster, hdisp, hgrp, hport, _⟩ := smStep_frame eligible { s with sched := rest }
    exact ⟨hmaster, h0, h1, hdisp, hgrp, hport, fun p hp => (hx p).2 hp⟩

/-! ## The algorithms, pin by pin -/

/-- The body of R252's loop for one pin. -/
def enterVisit (mode : Mode) (eligible : Nat → Bool) (s : State) (p : Nat) : State :=
  if eligible p then
    { s with
      snap := s.snap.set p (some (s.x p &&& ~~~s.cfg.pendingBit))
      pins := s.pins.set p (savedLive s.cfg mode (s.x p))
      trace := s.trace ++ savedEvents s.cfg mode p (s.x p) }
  else s

/-- The body of R260's loop for one pin. -/
def restoreVisit (eligible : Nat → Bool) (s : State) (p : Nat) : State :=
  if eligible p then
    match s.slot p with
    | none => s
    | some w => s.storePin p w
  else s

theorem enterPass_eq (mode : Mode) (eligible : Nat → Bool) (s : State) : enterPass mode eligible s =
    ((List.range s.cfg.npins).foldl (enterVisit mode eligible) s).respond .sm .ok 0 := rfl

theorem restorePass_eq (eligible : Nat → Bool) (s : State) : restorePass eligible s =
    ((List.range s.cfg.npins).foldl (restoreVisit eligible) s).respond .sm .ok 0 := rfl

theorem enterVisit_skip {eligible : Nat → Bool} {p : Nat} (h : eligible p = false) (mode : Mode) (s : State) :
    enterVisit mode eligible s p = s := by
  simp [enterVisit, h]

theorem enterVisit_eligible {eligible : Nat → Bool} {p : Nat} (h : eligible p = true) (mode : Mode) (s : State) :
    enterVisit mode eligible s p = { s with
      snap := s.snap.set p (some (s.x p &&& ~~~s.cfg.pendingBit))
      pins := s.pins.set p (savedLive s.cfg mode (s.x p))
      trace := s.trace ++ savedEvents s.cfg mode p (s.x p) } := by
  simp [enterVisit, h]

theorem restoreVisit_skip {eligible : Nat → Bool} {p : Nat} (h : eligible p = false) (s : State) :
    restoreVisit eligible s p = s := by
  simp [restoreVisit, h]

theorem restoreVisit_none {s : State} {p : Nat} (h : s.slot p = none) (eligible : Nat → Bool) :
    restoreVisit eligible s p = s := by
  simp [restoreVisit, h]

theorem restoreVisit_some {eligible : Nat → Bool} {s : State} {p : Nat} {w : Word} (h : eligible p = true)
    (hslot : s.slot p = some w) : restoreVisit eligible s p = s.storePin p w := by
  simp [restoreVisit, h, hslot]

/-! ## A run as a whole -/

/-- In the phase and mode given, the steps of the state manager are the visits of an algorithm, which does not look at the
sequencer. -/
structure StepsAre (phase : SmPhase) (mode : Mode) (eligible : Nat → Bool) (visit : State → Nat → State) : Prop where
  busy : phase ≠ .idle
  step : ∀ {s p}, inv s = true → s.sm = { phase := phase, mode := mode, pin := p } → p < s.cfg.npins →
    smStep (eligible p) s = nextPin (visit s p)
  with_sm : ∀ s p m, visit { s with sm := m } p = { visit s p with sm := m }

theorem stepsAre_enter (mode : Mode) (eligible : Nat → Bool) :
    StepsAre .save mode eligible (enterVisit mode eligible) where
  busy := by decide
  step {s p} hinv hsm hp := by
    obtain ⟨hw, hpins, _, hl, _⟩ := (inv_iff s).mp hinv
    have hpin : s.sm.pin = p := by rw [hsm]
    have hmode : s.sm.mode = mode := by rw [hsm]
    subst hpin hmode
    rw [smStep_save (by rw [hsm])]
    cases he : eligible s.sm.pin with
    | false => rw [saveStep_skip hp, enterVisit_skip he]
    | true =>
      rw [saveStep_value hw hpins hl hp, enterVisit_eligible he]
      rfl
  with_sm s p m := by
    cases he : eligible p with
    | false => simp only [enterVisit_skip he]
    | true =>
      simp only [enterVisit_eligible he]
      rfl

theorem stepsAre_restore (mode : Mode) (eligible : Nat → Bool) :
    StepsAre .rest mode eligible (restoreVisit eligible) where
  busy := by decide
  step {s p} hinv hsm hp := by
    obtain ⟨_, _, _, hl, _⟩ := (inv_iff s).mp hinv
    have hpin : s.sm.pin = p := by rw [hsm]
    subst hpin
    rw [smStep_rest (by rw [hsm])]
    cases he : eligible s.sm.pin with
    | false => rw [restStep_skip hp, restoreVisit_skip he]
    | true =>
      cases hslot : s.slot s.sm.pin with
      | none => rw [restStep_none hp hslot, restoreVisit_none hslot]
      | some w => rw [restStep_free hp hslot hl, restoreVisit_some he hslot]
  with_sm s p m := by
    cases he : eligible p with
    | false => simp only [restoreVisit_skip he]
    | true =>
      cases hslot : s.slot p with
      | none => rw [restoreVisit_none hslot, restoreVisit_none (s := { s with sm := m }) hslot]
      | some w =>
        rw [restoreVisit_some he hslot, restoreVisit_some (s := { s with sm := m }) he hslot]
        rfl

section
variable {phase : SmPhase} {mode : Mode} {eligible : Nat → Bool} {visit : State → Nat → State}

/-- A visit leaves the sequencer as it is. -/
theorem StepsAre.sm_eq (h : StepsAre phase mode eligible visit) (s : State) (p : Nat) : (visit s p).sm = s.sm :=
  (congrArg State.sm (h.with_sm s p s.sm) :)

theorem runManager_step {s : State} (hw : s.cfg.wf = true) (hbusy : s.sm.phase ≠ .idle) (n : Nat) :
    runManager eligible (n + 1) s = runManager eligible n (smStep (eligible s.sm.pin) s) :=
  runWhile_succ (by simpa using hbusy) (drive_sm hw _)

theorem runManager_idle {s : State} (hidle : s.sm.phase = .idle) (n : Nat) : runManager eligible n s = .next s :=
  runWhile_done (by simp [hidle])

/-- From pin `p` on, with `k` pins left, the run is the visits of these pins and the answer, within `k + 1` steps; `m`
stands for what the algorithm holds in the place of the sequencer, which it does not use. -/
theorem StepsAre.run_from (h : StepsAre phase mode eligible visit) (m : Sm) {k p : Nat} {s : State}
    (hinv : inv s = true) (hsm : s.sm = { phase := phase, mode := mode, pin := p }) (hk : p + k = s.cfg.npins) :
    ∃ t, runManager eligible (k + 1) s = .next t ∧ t.sm.phase = .idle
      ∧ { t with sm := m } = ((List.range' p k).foldl visit { s with sm := m }).respond .sm .ok 0 := by
  have hpin : s.sm.pin = p := by rw [hsm]
  induction k generalizing s p with
  | zero =>
    obtain ⟨hw, _⟩ := (inv_iff s).mp hinv
    have hbusy : s.sm.phase ≠ .idle := by rw [hsm]; exact h.busy
    rw [runManager_step hw hbusy, smStep_end hbusy (by omega)]
    exact ⟨_, runManager_idle rfl _, rfl, rfl⟩
  | succ k ih =>
    obtain ⟨hw, _⟩ := (inv_iff s).mp hinv
    have hbusy : s.sm.phase ≠ .idle := by rw [hsm]; exact h.busy
    have hstep := h.step hinv hsm (by omega)
    have hkept : inv (nextPin (visit s p)) = true := hstep ▸ smStep_keeps_inv (eligible p) hinv
    obtain ⟨⟨hcfg, _⟩, _⟩ := smStep_frame (eligible p) s
    rw [hstep] at hcfg
    have hnext : (nextPin (visit s p)).sm = { phase := phase, mode := mode, pin := p + 1 } := by
      simp [nextPin, h.sm_eq, hsm]
    obtain ⟨t, hrun, hidle, heq⟩ := ih hkept hnext (by rw [hcfg]; omega) (by rw [hnext])
    refine ⟨t, ?_, hidle, ?_⟩
    · rw [runManager_step hw hbusy, hpin, hstep, hrun]
    · rw [heq, List.range'_succ, List.foldl_cons, h.with_sm s p m]
      rfl

/-- The same for a sequencer that has just accepted its command. -/
theorem StepsAre.run (h : StepsAre phase mode eligible visit) {s : State} (hinv : inv s = true) :
    ∃ t, runManager eligible (s.cfg.npins + 1) { s with sm := { phase := phase, mode := mode, pin := 0 } } = .next t
      ∧ t.sm.phase = .idle
      ∧ { t with sm := s.sm } = ((List.range s.cfg.npins).foldl visit s).respond .sm .ok 0 := by
  have hstart : inv { s with sm := { phase := phase, mode := mode, pin := 0 } } = true :=
    inv_of_commandFrame hinv ⟨⟨0, .of_same rfl rfl⟩, rfl, rfl, rfl, rfl, .inl rfl, .inl rfl, .inr rfl⟩
  rw [List.range_eq_range']
  exact h.run_from s.sm hstart rfl (Nat.zero_add _)

end

/-- The two commands that start `ENTER`, with their modes (R250). -/
def enterCommands : List (Instr × Mode) := [(.enterSuspend, .suspend), (.enterHibernate, .hibernate)]

theorem exec_enter_idle {im : Instr × Mode} (him : im ∈ enterCommands) {s : State} (h : s.sm.phase = .idle) :
    exec im.1 s = .next { s with sm := { phase := .save, mode := im.2, pin := 0 } } := by
  simp only [enterCommands, List.mem_cons, List.not_mem_nil, or_false] at him
  rcases him with rfl | rfl
  · exact acceptEnter_idle h _ _
  · exact acceptEnter_idle h _ _

/-- Settles O53: the steps of `SAVE` are the visits of R252. -/
theorem enterRunFollowsTheAlgorithm : Obligations.EnterRunFollowsTheAlgorithm := by
  intro s eligible hinv hidle im him
  obtain ⟨t, hrun, hend, heq⟩ := (stepsAre_enter im.2 eligible).run hinv
  exact ⟨_, t, exec_enter_idle him hidle, hrun, hend, heq⟩

/-- Settles O54: the steps of `REST` are the visits of R260. -/
theorem restoreRunFollowsTheAlgorithm : Obligations.RestoreRunFollowsTheAlgorithm := by
  intro s eligible hinv hidle
  obtain ⟨t, hrun, hend, heq⟩ := (stepsAre_restore s.draw.mode eligible).run hinv
  exact ⟨_, t, execRestore_idle hidle, hrun, hend, heq⟩

/-! ## `ENTER`, then `RESTORE` -/

/-- Clearing bits leaves every word that shares none of them. -/
theorem clear_and_of_disjoint {m u : Word} (h : m &&& u = 0#32) (w : Word) : (w &&& ~~~m) &&& u = w &&& u := by
  rw [← hwMerge_clear h, hwMerge_and_mask]

/-- `ENTER` leaves the read-only bits of the register (R257). -/
theorem savedLive_and_roMask {c : Config} (hw : c.wf = true) (mode : Mode) (v : Word) :
    savedLive c mode v &&& c.roMask = v &&& c.roMask := by
  have hmask := clear_and_of_disjoint (Config.intMask_disjoint_roMask hw)
  have hcount : ∀ w, (w &&& ~~~c.dbCntField) &&& c.roMask = w &&& c.roMask :=
    clear_and_of_disjoint (Config.dbCnt_disjoint_roMask hw)
  simp only [savedLive]
  split_ifs <;> simp only [hmask, hcount]

/-- R262 for one word: of the saved word only the pending bit is missing, which is read-only. -/
theorem hwMerge_savedLive {c : Config} (hw : c.wf = true) (mode : Mode) (v : Word) :
    hwMerge c.roMask (savedLive c mode v) (v &&& ~~~c.pendingBit) = v :=
  calc hwMerge c.roMask (savedLive c mode v) (v &&& ~~~c.pendingBit)
      = hwMerge c.roMask v v := by
        simp only [hwMerge, savedLive_and_roMask hw, clear_and_of_disjoint (Config.pending_in_roMask hw)]
    _ = v := hwMerge_self _ v

/-- The two states agree in what the visit of pin `q` reads, in the shape of the register files and in `MASTER`. -/
structure SameAt (q : Nat) (s t : State) : Prop where
  cfg : t.cfg = s.cfg
  pins : t.pins.length = s.pins.length
  slots : t.snap.length = s.snap.length
  word : t.x q = s.x q
  slot : t.slot q = s.slot q
  master : t.master = s.master

theorem SameAt.refl (q : Nat) (s : State) : SameAt q s s := ⟨rfl, rfl, rfl, rfl, rfl, rfl⟩

theorem SameAt.trans {q : Nat} {s t u : State} (h : SameAt q s t) (h' : SameAt q t u) : SameAt q s u :=
  ⟨h'.cfg.trans h.cfg, h'.pins.trans h.pins, h'.slots.trans h.slots, h'.word.trans h.word, h'.slot.trans h.slot,
    h'.master.trans h.master⟩

/-- The answer and the sequencer's fields are none of it. -/
theorem SameAt.of_pass {a t : State} {m : Sm} (h : { t with sm := m } = a.respond .sm .ok 0) (q : Nat) :
    SameAt q a t :=
  ⟨(congrArg State.cfg h :), (congrArg (fun u : State => u.pins.length) h :),
    (congrArg (fun u : State => u.snap.length) h :), (congrArg (fun u : State => u.x q) h :),
    (congrArg (fun u : State => u.slot q) h :), (congrArg State.master h :)⟩

theorem enterVisit_sameAt (mode : Mode) (eligible : Nat → Bool) {p q : Nat} (h : q ≠ p) (s : State) :
    SameAt q s (enterVisit mode eligible s p) := by
  cases he : eligible p with
  | false =>
    rw [enterVisit_skip he]
    exact .refl q s
  | true =>
    rw [enterVisit_eligible he]
    exact ⟨rfl, by simp, by simp, by simp [State.x, List.getD_eq_getElem?_getD, List.getElem?_set_ne h.symm],
      by simp [State.slot, List.getD_eq_getElem?_getD, List.getElem?_set_ne h.symm], rfl⟩

/-- `RESTORE` leaves the snapshot. -/
theorem restoreVisit_snap (eligible : Nat → Bool) (s : State) (p : Nat) :
    (restoreVisit eligible s p).snap = s.snap := by
  unfold restoreVisit
  split
  · split <;> rfl
  · rfl

theorem restoreVisit_sameAt (eligible : Nat → Bool) {p q : Nat} (h : q ≠ p) (s : State) :
    SameAt q s (restoreVisit eligible s p) := by
  cases he : eligible p with
  | false =>
    rw [restoreVisit_skip he]
    exact .refl q s
  | true =>
    cases hslot : s.slot p with
    | none =>
      rw [restoreVisit_none hslot]
      exact .refl q s
    | some w =>
      rw [restoreVisit_some he hslot]
      exact ⟨rfl, by simp, rfl, State.x_storePin_other h w, rfl, rfl⟩

section
variable {visit : State → Nat → State} (hother : ∀ {p q : Nat}, q ≠ p → ∀ s, SameAt q s (visit s p))
include hother

/-- A pin that is not visited is left. -/
theorem foldl_sameAt {ps : List Nat} {q : Nat} (hq : q ∉ ps) (s : State) : SameAt q s (ps.foldl visit s) :=
  List.foldlRecOn ps visit (motive := SameAt q s) (.refl q s) fun a ha _ hp =>
    ha.trans (hother (ne_of_mem_of_not_mem hp hq).symm a)

/-- Of all the visits its own alone counts for pin `q`. -/
theorem foldl_range_at {n q : Nat} (hq : q < n) (s : State) :
    ∃ a, SameAt q s a ∧ SameAt q (visit a q) ((List.range n).foldl visit s) := by
  induction n with
  | zero => omega
  | succ n ih =>
    rw [List.range_succ, List.foldl_append, List.foldl_cons, List.foldl_nil]
    rcases Nat.lt_succ_iff_lt_or_eq.mp hq with hlt | rfl
    · obtain ⟨a, ha, hvisit⟩ := ih hlt
      exact ⟨a, ha, hvisit.trans (hother hlt.ne _)⟩
    · exact ⟨_, foldl_sameAt hother (by simp) s, .refl q _⟩

end

/-- R262 for one pin: its visit in `RESTORE` undoes its visit in `ENTER`. -/
theorem x_restoreVisit_enterVisit {a b : State} {q : Nat} (hw : a.cfg.wf = true) (hpins : q < a.pins.length)
    (hslots : q < a.snap.length) {mode : Mode} {eligible : Nat → Bool}
    (h : SameAt q (enterVisit mode eligible a q) b) : (restoreVisit eligible b q).x q = a.x q := by
  cases he : eligible q with
  | false =>
    rw [enterVisit_skip he] at h
    rw [restoreVisit_skip he, h.word]
  | true =>
    rw [enterVisit_eligible he] at h
    obtain ⟨hcfg, hlen, _, hword, hslot, _⟩ := h
    have hlive : b.x q = savedLive a.cfg mode (a.x q) := by
      rw [hword]
      simp [State.x, hpins]
    have hsaved : b.slot q = some (a.x q &&& ~~~a.cfg.pendingBit) := by
      rw [hslot]
      simp [State.slot, hslots]
    rw [restoreVisit_some he hsaved, State.x_storePin_self (by rw [hlen]; simpa using hpins), hlive, hcfg,
      hwMerge_savedLive hw]

/-- The register files agree when every register does. -/
theorem pins_eq_of_x {s t : State} (hlen : t.pins.length = s.pins.length) (h : ∀ q < s.pins.length, t.x q = s.x q) :
    t.pins = s.pins :=
  List.ext_getElem hlen fun q ht hs => by simpa [State.x, ht, hs] using h q hs

/-- R262 for the two algorithms, the sequencer's fields aside. -/
theorem restorePass_undoes_enterPass {s t u : State} {mode : Mode} {eligible : Nat → Bool} (hinv : inv s = true)
    (ht : { t with sm := s.sm } = enterPass mode eligible s) (hu : { u with sm := t.sm } = restorePass eligible t) :
    t.cfg = s.cfg ∧ u.pins = s.pins ∧ u.snap = t.snap ∧ u.master = s.master := by
  obtain ⟨hw, hpins, hslots, _⟩ := (inv_iff s).mp hinv
  rw [enterPass_eq] at ht
  rw [restorePass_eq] at hu
  have henter := @enterVisit_sameAt mode eligible
  have hrestore := @restoreVisit_sameAt eligible
  have hst : SameAt s.cfg.npins s t := (foldl_sameAt henter (by simp) s).trans (.of_pass ht _)
  have htu : SameAt t.cfg.npins t u := (foldl_sameAt hrestore (by simp) t).trans (.of_pass hu _)
  have hsnap : ((List.range t.cfg.npins).foldl (restoreVisit eligible) t).snap = t.snap :=
    List.foldlRecOn _ _ (motive := fun a : State => a.snap = t.snap) rfl fun a ha p _ =>
      (restoreVisit_snap eligible a p).trans ha
  refine ⟨hst.cfg, pins_eq_of_x (htu.pins.trans hst.pins) fun q hq => ?_, (congrArg State.snap hu).trans hsnap,
    htu.master.trans hst.master⟩
  have hqs : q < s.cfg.npins := hpins ▸ hq
  have hqt : q < t.cfg.npins := hst.cfg ▸ hqs
  obtain ⟨a, ha, hentered⟩ := foldl_range_at henter hqs s
  obtain ⟨b, hb, hrestored⟩ := foldl_range_at hrestore hqt t
  calc u.x q
      = (restoreVisit eligible b q).x q := (hrestored.trans (.of_pass hu q)).word
    _ = a.x q := x_restoreVisit_enterVisit (by rw [ha.cfg, hw]) (by rw [ha.pins]; exact hq)
        (by rw [ha.slots, hslots]; exact hqs) ((hentered.trans (.of_pass ht q)).trans hb)
    _ = s.x q := ha.word

/-- A run of one engine keeps the invariant. -/
theorem runWhile_keeps_inv {busy : State → Bool} {choose : State → Act} {n : Nat} {s t : State} (hinv : inv s = true)
    (h : runWhile busy choose n s = .next t) : inv t = true := by
  induction n generalizing s with
  | zero =>
    obtain rfl := Host.Outcome.next.inj h
    exact hinv
  | succ n ih =>
    unfold runWhile at h
    split at h
    · split at h
      · next u hu =>
        obtain ⟨hw, _⟩ := (inv_iff s).mp hinv
        rw [drive_eq hw] at hu
        exact ih (runAct_keeps_inv hinv hu) h
      · next hstop => exact absurd h (hstop t)
    · obtain rfl := Host.Outcome.next.inj h
      exact hinv

/-- Settles O55: `ENTER` ends in a state with the invariant, so `RESTORE` is accepted there and runs as a whole too. -/
theorem enterThenRestoreGivesBackThePins : Obligations.EnterThenRestoreGivesBackThePins := by
  intro s eligible hinv hidle enter henter
  obtain ⟨mode, him⟩ : ∃ mode, (enter, mode) ∈ enterCommands := by
    simpa [enterCommands, exists_or] using henter
  obtain ⟨s1, t1, hacc1, hrun1, hidle1, hpass1⟩ := enterRunFollowsTheAlgorithm s eligible hinv hidle _ him
  obtain ⟨hw, _⟩ := (inv_iff s).mp hinv
  have hinv1 : inv t1 = true :=
    runWhile_keeps_inv (inv_of_commandFrame hinv (exec_commandFrame hw hacc1)) hrun1
  obtain ⟨s2, t2, hacc2, hrun2, hidle2, hpass2⟩ := restoreRunFollowsTheAlgorithm t1 eligible hinv1 hidle1
  obtain ⟨hcfg, hpins, hsnap, hmaster⟩ := restorePass_undoes_enterPass hinv hpass1 hpass2
  rw [hcfg] at hrun2
  exact ⟨s1, t1, s2, t2, hacc1, hrun1, hacc2, hrun2, hidle2, hpins, hsnap, hmaster⟩

end Sys2Proof.Proofs
end

section
/-! PROOFS. 60_exceptions.md: no choice the outside parties are allowed stops the block, an error answers and writes
nothing, and the port serves commands while a callback is outstanding (R286, R287, R300). -/

namespace Sys2Proof.Proofs

open Sys2Proof.Machine Sys2Proof.Safety

/-! ## Nothing stops the block -/

/-- A word taken up goes on, whether it decodes or not. -/
theorem takeCommand_goes_on {s : State} (hw : s.cfg.wf = true) (w : Command) : ∃ t, takeCommand w s = .next t := by
  cases hdec : decode w with
  | ok i =>
    rw [takeCommand_legal hdec]
    exact exec_goes_on hw i
  | error e => exact ⟨_, takeCommand_illegal hdec s⟩

/-- The port's step goes on, whether a word waits at the place or not. -/
theorem acceptNth_goes_on {s : State} (hw : s.cfg.wf = true) (n : Nat) : ∃ t, acceptNth n s = .next t := by
  unfold acceptNth
  split
  · exact ⟨s, rfl⟩
  · next w _ => exact takeCommand_goes_on (by exact hw) w

/-- In a well-formed configuration the one choice that can be refused is a callback's return nobody waits for (R221). -/
theorem runAct_goes_on {a : Act} {s : State} (hw : s.cfg.wf = true) (hret : a = .cbRet → s.disp.phase = .cbwait) :
    ∃ t, runAct a s = .next t := by
  cases a with
  | accept n => exact acceptNth_goes_on hw n
  | cbRet => exact ⟨_, callbackReturn_cbwait (hret rfl)⟩
  | present | draw | disp | grp | sm | envPin | envWake | reset => exact ⟨_, rfl⟩

/-- Settles O11: R343 allows a return only while a callback is outstanding, and every other choice goes on. -/
theorem allowedActsNeverStop : Obligations.AllowedActsNeverStop := by
  intro s a rest hw hs hallowed
  have hret : a = .cbRet → s.disp.phase = .cbwait := by
    rintro rfl
    exact of_decide_eq_true hallowed
  have hstep : step s = runAct a { s with sched := rest } := by simp [step, hw, runSchedule, hs]
  rw [hstep]
  exact runAct_goes_on hw hret

/-! ## An error writes nothing -/

/-- Two records that end in a response end in the same one. -/
theorem response_inj {l l' : List PortEvent} {g g' : Engine} {st st' : Status} {r r' : Rdata}
    (h : l ++ [.response g st r] = l' ++ [.response g' st' r']) : st = st' ∧ r = r' := by
  obtain ⟨_, hlast⟩ := List.append_inj' h rfl
  cases hlast
  exact ⟨rfl, rfl⟩

/-- Settles O30: a waiting command answers nothing, a command that writes a register answers `Ok`, and what is left only
answers. -/
theorem failedSinglePinCommandWritesNothing : Obligations.FailedSinglePinCommandWritesNothing := by
  intro i s t st r hw hi h htrace hst
  rcases exec_singleStep_cases hw hi h with ⟨_, rfl⟩ | ⟨st', r', hzero, rfl⟩ | ⟨p, v, _, _, rfl⟩ | ⟨data, _, rfl⟩
  · simp at htrace
  · obtain ⟨rfl, rfl⟩ := response_inj htrace
    rw [hzero hst]
    rfl
  · exact absurd (response_inj htrace).1.symm hst
  · exact absurd (response_inj htrace).1.symm hst

/-! ## Commands during a callback -/

/-- The port serves a command: it goes on, does not wait, and leaves the dispatch sequencer alone. -/
def Served (i : Instr) (s : State) : Prop := ∃ t, exec i s = .next t ∧ t.port = s.port ∧ t.disp = s.disp

/-- A single-step command is served whenever the lock is free, whatever the sequencers do. -/
theorem served_singleStep {i : Instr} {s : State} (hw : s.cfg.wf = true) (hl : s.lock = .free)
    (hi : singleStep i = true) : Served i s := by
  obtain ⟨t, ht⟩ := exec_goes_on hw i
  refine ⟨t, ht, ?_⟩
  rcases exec_singleStep_cases hw hi ht with ⟨hheld, _⟩ | ⟨st, r, _, rfl⟩ | ⟨p, v, _, _, rfl⟩ | ⟨data, _, rfl⟩
  · rw [hl] at hheld
    cases hheld
  · exact ⟨rfl, rfl⟩
  · exact ⟨rfl, rfl⟩
  · exact ⟨State.storeMaster_port s data, State.storeMaster_disp s data⟩

/-- `SET_CONFIG_GROUP` is served while its sequencer is idle: a group past the last one is answered, any other starts. -/
theorem served_setConfigGroup {s : State} (hidle : s.grp.phase = .idle) (group : Selector) (param : ParamByte)
    (value : Word) : Served (.setConfigGroup group param value) s := by
  cases hlist : s.cfg.groups[group.toNat]? with
  | none => exact ⟨_, execSetConfigGroup_notFound (List.getElem?_eq_none_iff.mp hlist) param value, rfl, rfl⟩
  | some list => exact ⟨_, execSetConfigGroup_idle hlist hidle param value, rfl, rfl⟩

/-- `ENTER` and `RESTORE` are served while the state manager is idle. -/
theorem served_manager {i : Instr} {s : State} (hidle : s.sm.phase = .idle)
    (hi : i ∈ [Instr.enterSuspend, .enterHibernate, .restore]) : Served i s := by
  obtain ⟨hsuspend, hhibernate, _, hrestore⟩ := managerCommandsAccepted s hidle
  simp only [List.mem_cons, List.not_mem_nil, or_false] at hi
  rcases hi with rfl | rfl | rfl
  · exact ⟨_, hsuspend, rfl, rfl⟩
  · exact ⟨_, hhibernate, rfl, rfl⟩
  · exact ⟨_, hrestore, rfl, rfl⟩

/-- Settles O34: the invariant has the lock free, so a single-step command does not wait, and each multi-step command has
an idle sequencer of its own. -/
theorem commandsServedDuringTheCallback : Obligations.CommandsServedDuringTheCallback := by
  intro s i hinv _ hdisp hsm hgrp
  obtain ⟨hw, _, _, hl, _⟩ := (inv_iff s).mp hinv
  change Served i s
  cases i with
  | setConfigGroup g p v => exact served_setConfigGroup (hgrp g p v rfl) g p v
  | dispatchHw irq => exact absurd rfl (hdisp irq).1
  | dispatchQuery irq => exact absurd rfl (hdisp irq).2
  | enterSuspend | enterHibernate | restore => exact served_manager (hsm (by simp)) (by simp)
  | _ => exact served_singleStep hw hl rfl

end Sys2Proof.Proofs
end
